-- ==== Sys2Proof/Word.lean ====
section
/-! DEFINITION. The word types of SK64-BDB: every width that 00_scope.md R13 fixes or decides. Bit 0 is the least
significant bit of every word (R14). -/

namespace Sys2Proof

/-- A data byte, a cache entry, a tone generator register (R13). -/
abbrev Byte := BitVec 8

/-- A 64-bit unsigned counter or clock reading (R13). -/
abbrev Word64 := BitVec 64

/-- A 32-bit unsigned register (R13). -/
abbrev Word32 := BitVec 32

/-- A 16-bit audio sample, read as two's complement (R113). -/
abbrev Sample := BitVec 16

/-- A chip index, 0..7 (R13). -/
abbrev ChipIndex := BitVec 3

/-- A register number within one chip's window, 0..31 (R13). -/
abbrev RegNum := BitVec 5

/-- A raw address, 0..255 (R21). -/
abbrev RawAddr := BitVec 8

/-- A bus sample, format BS (R65, R66). -/
abbrev BusWord := BitVec 19

/-- A BusEvent slot word, format EV (R65, R72). -/
abbrev EventWord := BitVec 80

/-- A FIFO read port request, format DQ (R65, R73). -/
abbrev RequestWord := BitVec 65

/-- A consumer phase code, format PH (R65, R74). -/
abbrev PhaseCode := BitVec 3

end Sys2Proof
end

