-- ==== Sys2Proof/Syntax.lean ====
section
/-! DEFINITION. The operations of spec/opcode_table.json, one constructor per row, and the words that carry them to
the block's ports (30_encoding.md). Fields the spec says are ignored (R67, R75) are no operands. -/

namespace Sys2Proof

/-- The document's BusEvent tuple (R72). -/
structure BusEvent where
  chipIndex : ChipIndex
  register : RegNum
  value : Byte
  atCycle : Word64
  deriving DecidableEq, Repr

/-- One constructor per row of spec/opcode_table.json. -/
inductive Instr where
  /-- IDLE: a bus cycle outside the chip region (R84); `rst` is the reset modifier (R82). -/
  | idle (rst : Bool)
  /-- READ: a host read of register `reg` (R85). -/
  | read (rst : Bool) (reg : RegNum)
  /-- WRITE: a host write of `d` to chip `ci`, register `reg` (R87). -/
  | write (rst : Bool) (d : Byte) (ci : ChipIndex) (reg : RegNum)
  /-- FETCH_TARGET (R126). -/
  | fetchTarget
  /-- ACC_STEP (R104). -/
  | accStep
  /-- TG_ADVANCE (R127). -/
  | tgAdvance
  /-- CACHE_REFRESH (R128). -/
  | cacheRefresh
  /-- DRAIN_APPLY (R129). -/
  | drainApply
  /-- MIX_OUT (R115). -/
  | mixOut
  /-- RESET_CLEAR (R134). -/
  | resetClear
  /-- CALIBRATE, one consumer step of it (R109). -/
  | calibrate
  /-- ENQUEUE at the FIFO write port (R94). -/
  | enqueue (ev : BusEvent)
  /-- TRY_DEQUEUE_DUE_BY at the FIFO read port (R95). -/
  | tryDequeueDueBy (cycle : Word64)
  deriving DecidableEq, Repr

/-- The ports a word can arrive on; the port tells the format (R65). -/
inductive Port where
  | busSample
  | phase
  | fifoWrite
  | fifoRead
  deriving DecidableEq, Repr

/-- A word on its port (R65, R66, R72, R73, R74). -/
inductive PortWord where
  | bus (bs : BusWord)
  | phase (p : PhaseCode)
  | fifoWrite (we : Bool) (ev : EventWord)
  | fifoRead (dq : RequestWord)
  deriving DecidableEq, Repr

/-- Why a port's word is no operation. Both are an idle port (R73): there is no illegal encoding (R71, R75). -/
inductive DecodeReject where
  /-- The FIFO write port with `we = 0`. -/
  | writePortIdle
  /-- The FIFO read port with `re = 0`. -/
  | readPortIdle
  deriving DecidableEq, Repr

end Sys2Proof
end

