-- ==== Sys2Proof/Config.lean ====
section
/-! DEFINITION. What is fixed at construction (the parameters of 00_scope.md R11), what the environment presents
(10_state.md R41), and the one free value of the model: which turn the environment takes next. -/

namespace Sys2Proof

/-- The tone generator variants of R139, "variant A, variant B". -/
inductive ChipModel where
  | variantA
  | variantB
  deriving DecidableEq, Repr, Inhabited

/-- One instance's stored configuration: CHIP_MODEL and DIGIBOOST (R11, R139). -/
structure TGSetting where
  chipModel : ChipModel
  digiBoost : Bool
  deriving DecidableEq, Repr, Inhabited

/-- The parameters of R11, each constant for the run. Their legal ranges are `Params.legal` (WellFormed.lean).
INACTIVITY_TIMEOUT has no value, no unit and no rule that reads it: D27 replaces it by the input shutdown_req. -/
structure Params where
  /-- LOG2CAP: log2 of the FIFO capacity. -/
  log2cap : Nat
  /-- SAMPLE_RATE (S), audio samples per second. -/
  sampleRate : Nat
  /-- STEP_CYCLES (G), host cycles per TG_ADVANCE. -/
  stepCycles : Nat
  /-- RESET_THRESHOLD (T), in host cycles. -/
  resetThreshold : Nat
  /-- MIN_LIVE_CYCLES: host cycles the calibrator waits for. -/
  minLiveCycles : Nat
  /-- LIVENESS_TIMEOUT_US: the bound of that wait. -/
  livenessTimeoutUs : Nat
  /-- CAL_WINDOW_US: the length of the measuring window. -/
  calWindowUs : Nat
  /-- The per-instance configuration storage of R139; only entry 0 is used. -/
  tgSettings : Vector TGSetting 8
  deriving DecidableEq, Repr

/-- The defaults of R11. MIN_LIVE_CYCLES, LIVENESS_TIMEOUT_US (both OPEN) and the tone generator settings have no
value in the spec: DESIGN CHOICE, unsafe (entry 4); 100 and 5000000 are the figures of the spec's own example (95, 2.5). -/
def Params.default : Params where
  log2cap := 17
  sampleRate := 44100
  stepCycles := 1
  resetThreshold := 3
  minLiveCycles := 100
  livenessTimeoutUs := 5000000
  calWindowUs := 1000000
  tgSettings := Vector.replicate 8 { chipModel := .variantA, digiBoost := false }

/-- The inputs of CONS that are not state of the block (R41), as the environment presents them to one consumer step. -/
structure EnvInputs where
  /-- `shutdown_req` (R156). -/
  shutdownReq : Bool
  /-- `WallClockUs()` (R41); the step refuses a reading of CALIBRATE below the one before it (R9, U24, entry 8). -/
  wallClock : Word64
  /-- The answers of `TGRead(0, r)`; the block reads no other chip (R135, R137). -/
  tgRead : Vector Byte 32
  /-- The answers of `TGOutput(c)` (R135, R137). -/
  tgOutput : Vector Sample 8
  deriving DecidableEq, Repr

/-- Inputs of zeros: only the value of the field before the first consumer turn (entry 10). -/
def EnvInputs.zero : EnvInputs where
  shutdownReq := false
  wallClock := 0
  tgRead := Vector.replicate 32 0
  tgOutput := Vector.replicate 8 0

/-- One turn of one of the two agents of R9, with the inputs the environment chooses for it. -/
inductive AgentTurn where
  /-- One host bus cycle with its bus sample: PROD's turn. -/
  | producer (bs : BusWord)
  /-- CONS is scheduled, and the environment answers what its phase may ask. -/
  | consumer (env : EnvInputs)
  deriving DecidableEq, Repr, Inhabited

/-- What may happen next at the block's ports: an agent's turn, or a request at a FIFO port by itself (R73; R90 gives
the ports to DEC and SEQ alone, so a bare request is a test bench's, entry 18). -/
inductive Turn where
  | agent (t : AgentTurn)
  /-- FIFO write port: `we` and an EV word. -/
  | fifoWrite (we : Bool) (ev : EventWord)
  /-- FIFO read port: a DQ word. -/
  | fifoRead (dq : RequestWord)
  deriving DecidableEq, Repr, Inhabited

/-- DESIGN CHOICE, safe (entry 3): the environment's n-th turn of its own choosing. Nothing constrains it: any agent,
any bus sample, any answers (R9, R41, R56, R137, U10, U17, U21); the step refuses a wall clock that runs back (U24). -/
opaque Config.environment : Nat → AgentTurn

end Sys2Proof
end

