-- ==== Sys2Proof/WellFormed.lean ====
section
/-! DEFINITION. What is well formed. No operand of an operation can be out of range (30_encoding.md R71, R75), so
every instruction is; the parameters fixed at construction have the ranges of 00_scope.md R11 and are refused outside
them (93_implementation_defined.md U16). -/

namespace Sys2Proof

/-- R71, R75: every 5-bit register, 3-bit chip index and 8-bit value is valid, there are no reserved encodings; the
types of the operands already say so. -/
def Instr.wf : Instr → Bool
  | .idle _ => true
  | .read _ _ => true
  | .write _ _ _ _ => true
  | .fetchTarget => true
  | .accStep => true
  | .tgAdvance => true
  | .cacheRefresh => true
  | .drainApply => true
  | .mixOut => true
  | .resetClear => true
  | .calibrate => true
  | .enqueue _ => true
  | .tryDequeueDueBy _ => true

/-- A port's word asks for an operation: the FIFO ports have an enable bit (R73), the others always do (R65). -/
def PortWord.requests : PortWord → Bool
  | .bus _ => true
  | .phase _ => true
  | .fifoWrite we _ => we
  | .fifoRead dq => dq.getLsbD 64

/-- The static ranges of R11; U16 refuses a configuration outside them. -/
def Params.legal (p : Params) : Bool :=
  decide (1 ≤ p.log2cap) && decide (p.log2cap ≤ 31) &&
  decide (1 ≤ p.sampleRate) && decide (p.sampleRate < 2 ^ 32) &&
  decide (1 ≤ p.stepCycles) && decide (p.stepCycles < 2 ^ 16) &&
  decide (p.resetThreshold < 2 ^ 32) &&
  decide (1 ≤ p.minLiveCycles) && decide (1 ≤ p.calWindowUs)

end Sys2Proof
end

