-- ==== Sys2Proof/Decode.lean ====
section
/-! DEFINITION. Decoding and encoding of the four word formats (30_encoding.md), the rows of the opcode table as
masks and matches, the raw address split, and the text notation of R76. -/

namespace Sys2Proof

/-! ## Format BS, the bus sample (R66) -/

/-- R66, bit 18. -/
def BusWord.rst (bs : BusWord) : Bool := bs.getLsbD 18

/-- R66, bit 17. -/
def BusWord.sel (bs : BusWord) : Bool := bs.getLsbD 17

/-- R66, bit 16: true is a host read. -/
def BusWord.rw (bs : BusWord) : Bool := bs.getLsbD 16

/-- R66, bits 15:8. -/
def BusWord.d (bs : BusWord) : Byte := bs.extractLsb' 8 8

/-- R66, bits 7:0: the raw address. -/
def BusWord.ra (bs : BusWord) : RawAddr := bs.extractLsb' 0 8

/-- R68: `chipIndex = RA[7:5]`. -/
def RawAddr.chipIndex (ra : RawAddr) : ChipIndex := ra.extractLsb' 5 3

/-- R68: `register = RA[4:0]`. -/
def RawAddr.register (ra : RawAddr) : RegNum := ra.extractLsb' 0 5

/-- R70: `RA = chipIndex * 32 + register = {chipIndex, register}`. -/
def rawAddr (c : ChipIndex) (r : RegNum) : RawAddr := c ++ r

/-- R69: the raw address as the platform forms it from line groups A and B and the low address lines; `A[0]` is no
input. The block itself takes RA as given. -/
def rawAddrOfLines (a : BitVec 3) (b0 : BitVec 1) (low : BitVec 5) : RawAddr := a.extractLsb' 1 2 ++ b0 ++ low

/-- R67: the region is tested first, then the direction. -/
def decodeBus (bs : BusWord) : Instr :=
  if bs.sel = false then .idle bs.rst
  else if bs.rw = true then .read bs.rst (RawAddr.register bs.ra)
  else .write bs.rst bs.d (RawAddr.chipIndex bs.ra) (RawAddr.register bs.ra)

/-- A bus sample from its fields, bit 18 first (R66). -/
def busWord (rst sel rw : Bool) (d : Byte) (ci : ChipIndex) (reg : RegNum) : BusWord :=
  BitVec.ofBool rst ++ BitVec.ofBool sel ++ BitVec.ofBool rw ++ d ++ ci ++ reg

/-! ## Format EV, the slot word (R72) -/

/-- R72: `[79:16] atCycle`, `[15:8] value`, `[7:5] chipIndex`, `[4:0] register`. -/
def packEvent (ev : BusEvent) : EventWord := ev.atCycle ++ ev.value ++ ev.chipIndex ++ ev.register

/-- The fields of a slot word (R72); all `2^80` words are valid events. -/
def unpackEvent (w : EventWord) : BusEvent where
  atCycle := w.extractLsb' 16 64
  value := w.extractLsb' 8 8
  chipIndex := w.extractLsb' 5 3
  register := w.extractLsb' 0 5

/-! ## Format PH, the phase code (R74) -/

/-- R74: the code of each consumer phase, FETCH_TARGET. -/
def phFetchTarget : PhaseCode := 0b000#3
/-- R74, ACC_STEP. -/
def phAccStep : PhaseCode := 0b001#3
/-- R74, TG_ADVANCE. -/
def phTgAdvance : PhaseCode := 0b010#3
/-- R74, CACHE_REFRESH. -/
def phCacheRefresh : PhaseCode := 0b011#3
/-- R74, DRAIN_APPLY. -/
def phDrainApply : PhaseCode := 0b100#3
/-- R74, MIX_OUT. -/
def phMixOut : PhaseCode := 0b101#3
/-- R74, RESET_CLEAR. -/
def phResetClear : PhaseCode := 0b110#3
/-- R74, CALIBRATE. -/
def phCalibrate : PhaseCode := 0b111#3

/-- R74: all eight codes are used. -/
def decodePhase (p : PhaseCode) : Instr :=
  if p = phFetchTarget then .fetchTarget
  else if p = phAccStep then .accStep
  else if p = phTgAdvance then .tgAdvance
  else if p = phCacheRefresh then .cacheRefresh
  else if p = phDrainApply then .drainApply
  else if p = phMixOut then .mixOut
  else if p = phResetClear then .resetClear
  else .calibrate

/-! ## Format DQ, the read port request (R73) -/

/-- R73: bit 64 is `re`, bits 63:0 the `cycle` argument. -/
def requestWord (re : Bool) (cycle : Word64) : RequestWord := BitVec.ofBool re ++ cycle

/-- R73. -/
def decodeRequest (dq : RequestWord) : Except DecodeReject Instr :=
  if dq.getLsbD 64 then .ok (.tryDequeueDueBy (dq.extractLsb' 0 64)) else .error .readPortIdle

/-! ## Decode and encode -/

/-- The operation a word on its port asks for; the port tells the format (R65). Only an idle FIFO port asks for none. -/
def decode : PortWord → Except DecodeReject Instr
  | .bus bs => .ok (decodeBus bs)
  | .phase p => .ok (decodePhase p)
  | .fifoWrite we ev => if we then .ok (.enqueue (unpackEvent ev)) else .error .writePortIdle
  | .fifoRead dq => decodeRequest dq

/-- The canonical word of each operation: every ignored field is 0 (R76). -/
def encode : Instr → PortWord
  | .idle rst => .bus (busWord rst false false 0 0 0)
  | .read rst reg => .bus (busWord rst true true 0 0 reg)
  | .write rst d ci reg => .bus (busWord rst true false d ci reg)
  | .fetchTarget => .phase phFetchTarget
  | .accStep => .phase phAccStep
  | .tgAdvance => .phase phTgAdvance
  | .cacheRefresh => .phase phCacheRefresh
  | .drainApply => .phase phDrainApply
  | .mixOut => .phase phMixOut
  | .resetClear => .phase phResetClear
  | .calibrate => .phase phCalibrate
  | .enqueue ev => .fifoWrite true (packEvent ev)
  | .tryDequeueDueBy cycle => .fifoRead (requestWord true cycle)

/-! ## The rows of spec/opcode_table.json -/

/-- A word as one number on its port, the enable of the write port not counted (R73). -/
def PortWord.bits : PortWord → Nat
  | .bus bs => bs.toNat
  | .phase p => p.toNat
  | .fifoWrite _ ev => ev.toNat
  | .fifoRead dq => dq.toNat

/-- The port of a word. -/
def PortWord.port : PortWord → Port
  | .bus _ => .busSample
  | .phase _ => .phase
  | .fifoWrite _ _ => .fifoWrite
  | .fifoRead _ => .fifoRead

/-- The port, mask and match of an operation's row (R67, R73, R74; ENQUEUE is selected by its port, not by bits). -/
def Instr.row : Instr → Port × Nat × Nat
  | .idle _ => (.busSample, 0x20000, 0x00000)
  | .read _ _ => (.busSample, 0x30000, 0x30000)
  | .write _ _ _ _ => (.busSample, 0x30000, 0x20000)
  | .fetchTarget => (.phase, 0x7, 0x0)
  | .accStep => (.phase, 0x7, 0x1)
  | .tgAdvance => (.phase, 0x7, 0x2)
  | .cacheRefresh => (.phase, 0x7, 0x3)
  | .drainApply => (.phase, 0x7, 0x4)
  | .mixOut => (.phase, 0x7, 0x5)
  | .resetClear => (.phase, 0x7, 0x6)
  | .calibrate => (.phase, 0x7, 0x7)
  | .enqueue _ => (.fifoWrite, 0x0, 0x0)
  | .tryDequeueDueBy _ => (.fifoRead, 0x10000000000000000, 0x10000000000000000)

/-- A word matches an operation's row: on the row's port, and equal to the match under the mask. -/
def PortWord.matchesRow (w : PortWord) (i : Instr) : Bool :=
  decide (w.port = i.row.1) && decide (w.bits &&& i.row.2.1 = i.row.2.2)

/-! ## Words of a given width -/

/-- The word that a number of `nbits` bits (a row's width in whole bytes) stands for. DESIGN CHOICE, unsafe (entry 17):
the width names the port (R65), and the padding bits above the port's lines are no lines, so they are dropped. -/
def portWordOfBits (nbits w : Nat) : Option PortWord :=
  if nbits ≤ 8 then some (.phase (BitVec.ofNat 3 w))
  else if nbits ≤ 24 then some (.bus (BitVec.ofNat 19 w))
  else if nbits ≤ 72 then some (.fifoRead (BitVec.ofNat 65 w))
  else if nbits ≤ 80 then some (.fifoWrite true (BitVec.ofNat 80 w))
  else none

/-- What the decoder reads from a table row's word; an idle read port and a width no format has give none. -/
def decodeTableWord (nbits w : Nat) : Option Instr :=
  match portWordOfBits nbits w with
  | none => none
  | some pw => (decode pw).toOption

/-! ## The text notation (R76, R77) -/

/-- `IDLE` (R76). -/
def idleSample : BusWord := 0x00000#19

/-- `RDA ra` (R76): `0x30000 + ra`. -/
def readSample (ra : RawAddr) : BusWord := 0x30000#19 + ra.setWidth 19

/-- `WRA ra,#v` (R76): `0x20000 + 256*v + ra`. -/
def writeSample (ra : RawAddr) (v : Byte) : BusWord := 0x20000#19 + 256#19 * v.setWidth 19 + ra.setWidth 19

/-- Suffix `+RST` (R76), on a sample whose RST is 0. -/
def withRst (bs : BusWord) : BusWord := bs + 0x40000#19

/-- `NOP n` (R77). -/
def nopSamples (n : Nat) : List BusWord := List.replicate n idleSample

/-- `RESET n` (R77). -/
def resetSamples (n : Nat) : List BusWord := List.replicate n (withRst idleSample) ++ [idleSample]

end Sys2Proof
end

