-- ==== Sys2Proof/Machine/State.lean ====
section
/-! DEFINITION. Every piece of state the spec gives SK64-BDB (10_state.md), as plain data, and the state after
initialisation (70_reset_and_hazards.md R157). The reasons a step can stop stand here too. -/

namespace Sys2Proof.Machine

open Sys2Proof

/-- A byte memory: (address, byte) pairs in rising order of address, no pair holding what an unlisted address reads as
(`Memory.wf` in Ops.lean). -/
abbrev Memory := List Host.Cell

/-- The FIFO's slot array (R31): (slot, 80-bit word) pairs in rising order of slot; an unlisted slot has no value. The
element is the whole slot, never a byte of it (R52, R53; entry 15). -/
abbrev SlotArray := List (Nat × EventWord)

/-- `MODE` (R37). Code 7 is never taken and the type does not have it (U15). -/
inductive Mode where
  | init
  | calibrating
  | catchup
  | playing
  | resetting
  | halted
  | stopped
  deriving DecidableEq, Repr

/-- `CALSTATE` (R40). Code 3 is never taken and the type does not have it (U15). -/
inductive CalState where
  | live
  | window
  | done
  deriving DecidableEq, Repr

/-- One call of a tone generator primitive (R135). -/
inductive TGCall where
  | write (c : ChipIndex) (r : RegNum) (v : Byte)
  | read (c : ChipIndex) (r : RegNum)
  | advance (c : ChipIndex) (n : Nat)
  | output (c : ChipIndex)
  deriving DecidableEq, Repr

/-- Why a step faults. -/
inductive Fault where
  /-- A dequeue examines a slot that nothing has written since initialisation, which has no value (R31, U7). Raised by
  TRY_DEQUEUE_DUE_BY and DRAIN_APPLY. Safe: no reachable state raises it (entry 2). -/
  | slotNeverWritten
  deriving DecidableEq, Repr

/-- Why a step is refused. -/
inductive Refusal where
  /-- An operation that has no meaning yet; raised by `exec` alone. Safe. No arm uses it. -/
  | notModelled (mnemonic : String)
  /-- The parameters are outside the ranges of R11: "refuse at construction" (U16). Raised by `step` alone. Safe
  (entry 5). -/
  | illegalConfiguration
  /-- `WallClockUs()` answers CALIBRATE less than it answered before: "refuse (monotonic by premise)" (U24, R9). Raised
  by `step` alone. Safe (entry 8). -/
  | wallClockRanBack
  deriving DecidableEq, Repr

/-- The machine. Names are the spec's in lower case; INVENTORY.md lists each with its rule. -/
structure State where
  /-- The parameters of R11, constant for the run (entry 4). -/
  cfg : Params
  /-- `HCC` (R25). -/
  hcc : Word64
  /-- `RC` (R26). -/
  rc : Word32
  /-- `PRESSED` (R27). -/
  pressed : Bool
  /-- `RELEASED` (R27). -/
  released : Bool
  /-- `WR` (R28): a number of LOG2CAP + 1 bits (entry 16). -/
  wr : Nat
  /-- `D_OUT` (R29): none is "not driven" (entry 12). -/
  dOut : Option Byte
  /-- `D_OE` (R29). -/
  dOE : Bool
  /-- `ARMED` (R30). -/
  armed : Bool
  /-- `SLOT[0..CAP-1]` (R31). -/
  slots : SlotArray
  /-- `CACHE[0..31]` (R22). -/
  cache : Vector Byte 32
  /-- `RD` (R32): a number of LOG2CAP + 1 bits (entry 16). -/
  rd : Nat
  /-- `CE` (R33). -/
  ce : Word64
  /-- `CARRY` (R34). -/
  carry : Word32
  /-- `FREQ` (R35). -/
  freq : Word32
  /-- `INC` (R35). -/
  inc : Word32
  /-- `TARGET` (R36). -/
  target : Word64
  /-- `PHASE` (R37, R74). -/
  phase : PhaseCode
  /-- `MODE` (R37). -/
  mode : Mode
  /-- `NOUT` (R38). -/
  nout : BitVec 16
  /-- `LEFT` (R39). -/
  left : Sample
  /-- `RIGHT` (R39). -/
  right : Sample
  /-- `CALSTATE` (R40). -/
  calState : CalState
  /-- `TSTART` (R40). -/
  tstart : Word64
  /-- `T0` (R40). -/
  t0 : Word64
  /-- `C0` (R40). -/
  c0 : Word64
  /-- `TGREG[0..7][0..31]` (R42), chip `c` register `r` at address `32 * c + r`. -/
  tgreg : Memory
  /-- The model's own: the inputs presented to CONS (R41; entry 10). -/
  env : EnvInputs
  /-- The model's own: the calls made to TGB (R135), newest first (entry 10). -/
  tgCalls : List TGCall
  /-- The model's own: the pairs handed to `SinkPut` (R121), newest first (entry 10). -/
  sink : List (Sample × Sample)
  /-- The model's own: the FIFO read port's last response (R73), none for `hit = 0` (entry 14). -/
  readPort : Option BusEvent
  /-- The model's own: the turns the environment has lined up (R9, R41; entry 3). -/
  agenda : List Turn
  /-- The model's own: how many turns were drawn from `Config.environment` (entry 3). -/
  turnNo : Nat
  deriving DecidableEq, Repr

/-- R157, for a given configuration. FREQ, INC, TSTART, T0 and C0 are unspecified there and hold 0: DESIGN CHOICE,
unsafe (entry 1). -/
def State.resetWith (cfg : Params) : State where
  cfg := cfg
  hcc := 0
  rc := 0
  pressed := false
  released := false
  wr := 0
  dOut := none
  dOE := false
  armed := false
  slots := []
  cache := Vector.replicate 32 0
  rd := 0
  ce := 0
  carry := 0
  freq := 0
  inc := 0
  target := 0
  phase := 0b111
  mode := .init
  nout := 0
  left := 0
  right := 0
  calState := .live
  tstart := 0
  t0 := 0
  c0 := 0
  tgreg := []
  env := EnvInputs.zero
  tgCalls := []
  sink := []
  readPort := none
  agenda := []
  turnNo := 0

/-- The machine right after initialisation (R157, R158), with the default parameters (entry 4). -/
def State.reset : State := State.resetWith Params.default

end Sys2Proof.Machine
end

