-- ==== Sys2Proof/Machine/Operands.lean ====
section
/-! DEFINITION. Operand forms: FIFO index and slot addressing, the fixed-point fields, the mixer's arithmetic, the
register codes of MODE and CALSTATE, and the inputs a consumer phase asks for. -/

namespace Sys2Proof.Machine

open Sys2Proof

/-! ## Arithmetic of R15 -/

/-- `asr(v, k) = floor(v / 2^k)` (R15, R117). -/
def asr (v : Int) (k : Nat) : Int := v / 2 ^ k

/-- `clamp(v, lo, hi)` (R15). -/
def clamp (v lo hi : Int) : Int := if v < lo then lo else if v > hi then hi else v

/-! ## FIFO addressing (R91, R92) -/

/-- `CAP = 2^LOG2CAP` (R91). -/
def Params.capacity (p : Params) : Nat := 2 ^ p.log2cap

/-- `trunc_(LOG2CAP+1)(v)` (R15, R92). -/
def indexTrunc (p : Params) (v : Nat) : Nat := v % 2 ^ (p.log2cap + 1)

/-- `I +_(LOG2CAP+1) 1` (R94, R95). -/
def indexNext (p : Params) (i : Nat) : Nat := indexTrunc p (i + 1)

/-- `trunc_(LOG2CAP+1)(a - b)` (R92). -/
def indexDiff (p : Params) (a b : Nat) : Nat := (((a : Int) - (b : Int)) % (2 ^ (p.log2cap + 1) : Int)).toNat

/-- The slot an index addresses, `I[LOG2CAP-1:0] = I mod CAP` (R91). -/
def slotOf (p : Params) (i : Nat) : Nat := i % 2 ^ p.log2cap

/-! ## Tone generator addressing (R46, R48) -/

/-- Chip `c` register `r` at `32 * c + r`, the numbering of R48. -/
def tgAddr (c : ChipIndex) (r : RegNum) : Nat := 32 * c.toNat + r.toNat

/-- `c = 0..7`, ascending. -/
def allChips : List ChipIndex := [0, 1, 2, 3, 4, 5, 6, 7]

/-- `r = 0..31`, ascending. -/
def allRegs : List RegNum := (List.range 32).map (BitVec.ofNat 5)

/-- All pairs, `c` ascending, then `r` ascending (R134). -/
def allChipRegs : List (ChipIndex × RegNum) := allChips.flatMap fun c => allRegs.map fun r => (c, r)

/-! ## The inputs of a consumer step (R41, R137) -/

/-- `TGRead(0, r)`'s answer. -/
def tgReadAnswer (s : State) (r : RegNum) : Byte := s.env.tgRead[r.toNat]'r.isLt

/-- `sext_16(TGOutput(c))` (R115). -/
def tgOutputAnswer (s : State) (c : ChipIndex) : Int := (s.env.tgOutput[c.toNat]'c.isLt).toInt

/-- `CACHE[r]` (R16). -/
def cacheAt (s : State) (r : RegNum) : Byte := s.cache[r.toNat]'r.isLt

/-! ## The fixed-point accumulator (R101, R103) -/

/-- `INC = floor(2^16 * F / S)` on exact integers (R103). -/
def incrementOf (f sampleRate : Nat) : Nat := 2 ^ 16 * f / sampleRate

/-- `f = floor(cyclesObserved * 1000000 / microsecondsElapsed)` on exact integers (R109). -/
def measuredFrequency (cyclesObserved microsecondsElapsed : Nat) : Nat :=
  cyclesObserved * 1000000 / microsecondsElapsed

/-- A reading minus an earlier one, on mathematical integers (R15, R109). -/
def elapsedUs (now since : Word64) : Int := (now.toNat : Int) - (since.toNat : Int)

/-! ## Register codes -/

/-- MODE's 3-bit code (R37). -/
def Mode.code : Mode → BitVec 3
  | .init => 0
  | .calibrating => 1
  | .catchup => 2
  | .playing => 3
  | .resetting => 4
  | .halted => 5
  | .stopped => 6

/-- CALSTATE's 2-bit code (R40). -/
def CalState.code : CalState → BitVec 2
  | .live => 0
  | .window => 1
  | .done => 2

/-- R139: the setting instance `c` runs with is chip 0's, whatever its own storage holds. -/
def Params.settingOf (p : Params) (_c : ChipIndex) : TGSetting := p.tgSettings[0]

end Sys2Proof.Machine
end

