-- ==== Sys2Proof/Machine/Flags.lean ====
section
/-! DEFINITION. The status flags (10_state.md R43): the stored PRESSED and RELEASED with the debounce that writes them,
the derived FIFO flags, and the conditions the sequencer tests. -/

namespace Sys2Proof.Machine

open Sys2Proof

/-- `OCC = trunc_(LOG2CAP+1)(WR - RD)` (R43, R92). -/
def State.occ (s : State) : Nat := indexDiff s.cfg s.wr s.rd

/-- `EMPTY = (WR = RD)` (R43). -/
def State.isEmpty (s : State) : Bool := decide (s.wr = s.rd)

/-- `FULL = (OCC = CAP)` (R43). -/
def State.isFull (s : State) : Bool := decide (s.occ = Params.capacity s.cfg)

/-- R82, step 1 of the decoder: the reset line's sample updates RC, PRESSED and RELEASED. -/
def debounce (rst : Bool) (s : State) : State :=
  if rst then { s with rc := s.rc + 1, pressed := true }
  else if s.pressed then { s with released := true, pressed := false }
  else s

/-- R133: a reset is due when `RC > RESET_THRESHOLD` and `RELEASED = 1`. -/
def State.resetDue (s : State) : Bool := decide (s.rc.toNat > s.cfg.resetThreshold) && s.released

/-- The loop test `CE < TARGET`, unsigned 64 bits (R124, R126). -/
def State.behind (s : State) : Bool := decide (s.ce < s.target)

/-- E1 Backlog, `CE < HCC` (R141, R143). -/
def State.backlog (s : State) : Bool := decide (s.ce < s.hcc)

/-- CONS takes steps only while MODE is neither HALTED nor STOPPED (R123). -/
def State.consRuns (s : State) : Bool := decide (s.mode ≠ .halted) && decide (s.mode ≠ .stopped)

/-- The read port's `hit` bit (R73). -/
def State.hit (s : State) : Bool := s.readPort.isSome

end Sys2Proof.Machine
end

