-- ==== Sys2Proof/Machine/Ops.lean ====
section
/-! DEFINITION. The named operations over the memories and registers, shared by the meanings: the two cell memories,
the FIFO (41_transaction_fifo.md), the tone generator primitives (44_sequencer.md R135), the decoder step
(40_bus_decoder.md R79), and what stands for exception entry and return here (60_exceptions.md R145, R148, R156). -/

namespace Sys2Proof.Machine

open Sys2Proof

/-! ## Cells: lists of (address, value) in rising order -/

/-- The value listed at an address. -/
def cellFind {α : Type} : List (Nat × α) → Nat → Option α
  | [], _ => none
  | (b, v) :: rest, a => if a = b then some v else cellFind rest a

/-- Write a value at an address, keeping the order. -/
def cellInsert {α : Type} : List (Nat × α) → Nat → α → List (Nat × α)
  | [], a, v => [(a, v)]
  | (b, w) :: rest, a, v =>
    if a < b then (a, v) :: (b, w) :: rest
    else if a = b then (a, v) :: rest
    else (b, w) :: cellInsert rest a v

/-- Remove what is listed at an address. -/
def cellErase {α : Type} (l : List (Nat × α)) (a : Nat) : List (Nat × α) :=
  l.filter fun c => decide (c.1 ≠ a)

/-- The addresses rise strictly and stay below `n`. -/
abbrev cellsBelow {α : Type} (n : Nat) (l : List (Nat × α)) : Prop :=
  l.Pairwise (fun x y => x.1 < y.1) ∧ ∀ c ∈ l, c.1 < n

/-! ## The tone generator registers, a byte memory -/

/-- What an unlisted address reads as: the reset contents 0x00 of R157. -/
def unlistedByte : Byte := 0x00

/-- Read one byte. -/
def memRead (m : Memory) (a : Nat) : Byte := (cellFind m a).getD unlistedByte

/-- Write one byte, keeping the canonical form. -/
def memWrite (m : Memory) (a : Nat) (v : Byte) : Memory :=
  if v = unlistedByte then cellErase m a else cellInsert m a v

/-- The canonical form of a memory of `n` bytes: addresses strictly rising and below `n`, and no pair holding what an
unlisted address reads as. -/
abbrev Memory.wf (n : Nat) (m : Memory) : Prop := cellsBelow n m ∧ ∀ c ∈ m, c.2 ≠ unlistedByte

/-- `TGREG[c][r]` (R42). -/
def tgRegAt (s : State) (c : ChipIndex) (r : RegNum) : Byte := memRead s.tgreg (tgAddr c r)

/-! ## The slot array -/

/-- `SLOT[i]`; none where nothing has been written since initialisation (R31). -/
def slotRead (m : SlotArray) (i : Nat) : Option EventWord := cellFind m i

/-- `SLOT[i] <- w` (R16). -/
def slotWrite (m : SlotArray) (i : Nat) (w : EventWord) : SlotArray := cellInsert m i w

/-- The canonical form of the slot array: slots strictly rising and below CAP. An unlisted slot reads as no value, which
no entry can equal. -/
abbrev SlotArray.wf (p : Params) (m : SlotArray) : Prop := cellsBelow (Params.capacity p) m

/-! ## The FIFO (R94, R95) -/

/-- `Enqueue(ev)` (R94), sub-steps E1, E2, E3 in order: write the slot, evict the oldest when full, publish WR. -/
def enqueue (ev : BusEvent) (s : State) : State :=
  let s1 := { s with slots := slotWrite s.slots (slotOf s.cfg s.wr) (packEvent ev) }
  let s2 := if s1.isFull then { s1 with rd := indexNext s1.cfg s1.rd } else s1
  { s2 with wr := indexNext s2.cfg s2.wr }

/-- The slot at RD, the oldest event when the FIFO is not empty (R95). -/
def headSlot (s : State) : Option EventWord := slotRead s.slots (slotOf s.cfg s.rd)

/-- `TryDequeueDueBy(y)` (R95) with the read port's response (R73): what it answers and the state after. A head slot
that nothing has written has no value, and examining it faults (R31, entry 2). -/
def tryDequeueDueBy (y : Word64) (s : State) : Except Fault (Option BusEvent × State) :=
  if s.isEmpty then .ok (none, { s with readPort := none })
  else
    match headSlot s with
    | none => .error .slotNeverWritten
    | some w =>
      if (unpackEvent w).atCycle ≤ y then
        .ok (some (unpackEvent w), { s with rd := indexNext s.cfg s.rd, readPort := some (unpackEvent w) })
      else .ok (none, { s with readPort := none })

/-! ## The tone generator primitives (R135) and the sink (R121) -/

/-- Record calls made to TGB, the first of the list made first. -/
def recordCalls (calls : List TGCall) (s : State) : State := { s with tgCalls := calls.reverse ++ s.tgCalls }

/-- `TGWrite(c, r, v)` (R135, R136). -/
def tgWrite (c : ChipIndex) (r : RegNum) (v : Byte) (s : State) : State :=
  recordCalls [.write c r v] { s with tgreg := memWrite s.tgreg (tgAddr c r) v }

/-- `TGWrite(c, r, 0x00)` for every pair of a list, in its order (R134). -/
def tgClear (pairs : List (ChipIndex × RegNum)) (s : State) : State :=
  recordCalls (pairs.map fun p => .write p.1 p.2 0x00)
    { s with tgreg := pairs.foldl (fun m p => memWrite m (tgAddr p.1 p.2) 0x00) s.tgreg }

/-- `TGAdvance(c, n)` for all eight instances, `c` ascending (R127). -/
def tgAdvanceAll (n : Nat) (s : State) : State := recordCalls (allChips.map fun c => .advance c n) s

/-- `SinkPut(left, right)` (R121): always accepted. -/
def sinkPut (left right : Sample) (s : State) : State := { s with sink := (left, right) :: s.sink }

/-! ## CONS's gate -/

/-- CONS has no step in HALTED and STOPPED: then nothing changes (R123). -/
def whileConsRuns (f : State → State) (s : State) : State := if s.consRuns then f s else s

/-! ## The decoder step (R79) -/

/-- Step 5 of the decoder, `HCC <- HCC +_64 1` (R88). -/
def countCycle (s : State) : State := { s with hcc := s.hcc + 1 }

/-- DEC does not drive the data lines: `D_OE <- 0` (R79, R86). -/
def releaseData (s : State) : State := { s with dOE := false, dOut := none }

/-- `D_OUT <- v ; D_OE <- 1` (R79, R85). -/
def driveData (v : Byte) (s : State) : State := { s with dOE := true, dOut := some v }

/-- One host bus cycle. While ARMED = 1 the decoder step (R79): the reset line's debounce, `D_OE <- 0`, the transaction
kind's own part, the cycle count. While ARMED = 0 no decoder step and no register changes (R30, R78), and the data lines
are not driven: a READ drives them "for that host bus cycle only" (R86, R29; entry 11). -/
def decoderStep (rst : Bool) (kind : State → State) (s : State) : State :=
  if s.armed then countCycle (kind (releaseData (debounce rst s))) else releaseData s

/-! ## The sequencer's control state -/

/-- `PHASE <- p`. -/
def goTo (p : PhaseCode) (s : State) : State := { s with phase := p }

/-- `if MODE = CATCHUP then MODE <- PLAYING` (R125, R126, R129). -/
def notePlaying (s : State) : State := if s.mode = .catchup then { s with mode := .playing } else s

/-- The loop test at the end of FETCH_TARGET and DRAIN_APPLY: behind, to ACC_STEP; caught up, to MIX_OUT (R126, R129). -/
def loopTest (s : State) : State := if s.behind then goTo phAccStep s else goTo phMixOut (notePlaying s)

/-! ## Conditions and pseudo-states: what exception entry and return are here -/

/-- `raise CalibrationFailure` (R145): both agents stop, no frequency is written. -/
def raiseCalibrationFailure (s : State) : State := { s with armed := false, mode := .halted }

/-- Entry to the Reset pseudo-state (R126, R148): it saves nothing. -/
def enterReset (s : State) : State := goTo phResetClear { s with mode := .resetting }

/-- Return from the Reset pseudo-state (R134, R149). -/
def leaveReset (s : State) : State := goTo phFetchTarget { s with mode := .playing }

/-- Shutdown (R156): the interrupt is disarmed and CONS takes no further step. The release of the instances has no
primitive (R135; entry 21). -/
def shutdown (s : State) : State := { s with armed := false, mode := .stopped }

end Sys2Proof.Machine
end

