-- ==== Sys2Proof/Machine/Accumulator.lean ====
section
/-! DEFINITION. The fractional cycle accumulator ACC and the clock calibrator CAL (42_cycle_accumulator.md). -/

namespace Sys2Proof.Machine

open Sys2Proof

/-- `X <- INC + CARRY ; NOUT <- X[31:16] ; CARRY <- zext_32(X[15:0])` (R104). -/
def accumulate (s : State) : State :=
  let x := s.inc + s.carry
  { s with nout := x.extractLsb' 16 16, carry := (x.extractLsb' 0 16).setWidth 32 }

/-- ACC_STEP (R104). -/
def execAccStep (s : State) : Host.Outcome State Fault Refusal :=
  .next (whileConsRuns (fun t => goTo phTgAdvance (accumulate t)) s)

/-- The first CALIBRATE step (R109): arm DEC and start the liveness wait. -/
def calibrateStart (s : State) : State :=
  { s with mode := .calibrating, armed := true, calState := .live, tstart := s.env.wallClock }

/-- The liveness wait (R109): the host is clocking, or the bound has passed, or wait on. -/
def calibrateLive (s : State) : State :=
  if s.hcc.toNat ≥ s.cfg.minLiveCycles then { s with t0 := s.env.wallClock, c0 := s.hcc, calState := .window }
  else if elapsedUs s.env.wallClock s.tstart > (s.cfg.livenessTimeoutUs : Int) then raiseCalibrationFailure s
  else s

/-- The end of the measuring window, with the frequency measured (R109); the constraints are R103's. -/
def calibrateFinish (f : Nat) (s : State) : State :=
  if s.cfg.sampleRate < 1 ∨ f < 1 ∨ f ≥ 2 ^ 32 ∨ incrementOf f s.cfg.sampleRate > 2 ^ 32 - 2 ^ 16 then
    raiseCalibrationFailure s
  else
    goTo phFetchTarget
      { s with
        freq := BitVec.ofNat 32 f
        inc := BitVec.ofNat 32 (incrementOf f s.cfg.sampleRate)
        calState := .done
        mode := .catchup }

/-- The measuring window (R109): it is over when CAL_WINDOW_US has passed. -/
def calibrateWindow (s : State) : State :=
  if elapsedUs s.env.wallClock s.t0 ≥ (s.cfg.calWindowUs : Int) then
    calibrateFinish (measuredFrequency (s.hcc - s.c0).toNat (elapsedUs s.env.wallClock s.t0).toNat) s
  else s

/-- One consumer step of CALIBRATE (R109). -/
def calibrateStep (s : State) : State :=
  if s.mode = .init then calibrateStart s
  else
    match s.calState with
    | .live => calibrateLive s
    | .window => calibrateWindow s
    | .done => s

/-- CALIBRATE (R109). -/
def execCalibrate (s : State) : Host.Outcome State Fault Refusal :=
  .next (whileConsRuns calibrateStep s)

end Sys2Proof.Machine
end

