-- ==== Sys2Proof/Machine/Decoder.lean ====
section
/-! DEFINITION. The three transaction kinds of the bus transaction decoder (40_bus_decoder.md). -/

namespace Sys2Proof.Machine

open Sys2Proof

/-- IDLE (R84): nothing read, nothing enqueued; the reset modifier and the cycle count still act. -/
def execIdle (rst : Bool) (s : State) : Host.Outcome State Fault Refusal :=
  .next (decoderStep rst id s)

/-- READ (R85): drive `CACHE[REG]`, chip 0's byte whatever the chip index. -/
def execRead (rst : Bool) (reg : RegNum) (s : State) : Host.Outcome State Fault Refusal :=
  .next (decoderStep rst (fun t => driveData (cacheAt t reg) t) s)

/-- WRITE (R87): enqueue the event, stamped with HCC before this step's increment. -/
def execWrite (rst : Bool) (d : Byte) (ci : ChipIndex) (reg : RegNum) (s : State) : Host.Outcome State Fault Refusal :=
  .next (decoderStep rst (fun t => enqueue { chipIndex := ci, register := reg, value := d, atCycle := t.hcc } t) s)

end Sys2Proof.Machine
end

