-- ==== Sys2Proof/Machine/Fifo.lean ====
section
/-! DEFINITION. The two FIFO port operations by themselves (41_transaction_fifo.md, 30_encoding.md R73). The port
operations test neither ARMED nor MODE: those gate the agents that drive the ports (entry 18). -/

namespace Sys2Proof.Machine

open Sys2Proof

/-- ENQUEUE (R94): always succeeds and never blocks. -/
def execEnqueue (ev : BusEvent) (s : State) : Host.Outcome State Fault Refusal :=
  .next (enqueue ev s)

/-- TRY_DEQUEUE_DUE_BY (R95): the answer is the read port's response (R73). -/
def execTryDequeueDueBy (cycle : Word64) (s : State) : Host.Outcome State Fault Refusal :=
  match tryDequeueDueBy cycle s with
  | .ok (_, t) => .next t
  | .error f => .fault f

end Sys2Proof.Machine
end

