-- ==== Sys2Proof/Machine/Mixer.lean ====
section
/-! DEFINITION. The audio mixer with clipping (43_mixer.md). -/

namespace Sys2Proof.Machine

open Sys2Proof

/-- `out[1] + out[3] + out[5] + out[7]`, exact (R115, R116, R120). -/
def sumLeft (s : State) : Int :=
  tgOutputAnswer s 1 + tgOutputAnswer s 3 + tgOutputAnswer s 5 + tgOutputAnswer s 7

/-- `out[0] + out[2] + out[4] + out[6]`, exact (R115, R116, R120). -/
def sumRight (s : State) : Int :=
  tgOutputAnswer s 0 + tgOutputAnswer s 2 + tgOutputAnswer s 4 + tgOutputAnswer s 6

/-- Halve by an arithmetic shift and clip hard to [-32767, 32767] (R115, R117, R118). -/
def clipHalf (sum : Int) : Int := clamp (asr sum 1) (-32767) 32767

/-- The mixer (R115): eight outputs read, `c` ascending, the pair formed and handed to the sink. -/
def mix (s : State) : State :=
  let l : Sample := BitVec.ofInt 16 (clipHalf (sumLeft s))
  let r : Sample := BitVec.ofInt 16 (clipHalf (sumRight s))
  sinkPut l r (recordCalls (allChips.map TGCall.output) { s with left := l, right := r })

/-- MIX_OUT (R115). -/
def execMixOut (s : State) : Host.Outcome State Fault Refusal :=
  .next (whileConsRuns (fun t => goTo phFetchTarget (mix t)) s)

end Sys2Proof.Machine
end

