-- ==== Sys2Proof/Machine/Sequencer.lean ====
section
/-! DEFINITION. The consumer sequencer's own phases (44_sequencer.md). -/

namespace Sys2Proof.Machine

open Sys2Proof

/-- FETCH_TARGET's three cases in the order of R147: shutdown, reset due, the normal read of the target (R126). -/
def fetchTarget (s : State) : State :=
  if s.env.shutdownReq then shutdown s
  else if s.resetDue then enterReset s
  else loopTest { s with target := s.hcc }

/-- FETCH_TARGET (R126). -/
def execFetchTarget (s : State) : Host.Outcome State Fault Refusal :=
  .next (whileConsRuns fetchTarget s)

/-- All eight instances advance by STEP_CYCLES, and CE with them (R127). -/
def tgAdvance (s : State) : State :=
  goTo phCacheRefresh { tgAdvanceAll s.cfg.stepCycles s with ce := s.ce + BitVec.ofNat 64 s.cfg.stepCycles }

/-- TG_ADVANCE (R127). -/
def execTgAdvance (s : State) : Host.Outcome State Fault Refusal :=
  .next (whileConsRuns tgAdvance s)

/-- All 32 entries from `TGRead(0, r)`, `r` ascending (R128). -/
def cacheRefresh (s : State) : State :=
  goTo phDrainApply
    { recordCalls (allRegs.map fun r => .read 0 r) s with
      cache := Vector.ofFn fun r => tgReadAnswer s (BitVec.ofFin r) }

/-- CACHE_REFRESH (R128). -/
def execCacheRefresh (s : State) : Host.Outcome State Fault Refusal :=
  .next (whileConsRuns cacheRefresh s)

/-- What DRAIN_APPLY does with the read port's answer: write the event's register, if there is one, then the loop test
(R129). -/
def applyAnswer (m : Option BusEvent) (s : State) : State :=
  match m with
  | some ev => loopTest (tgWrite ev.chipIndex ev.register ev.value s)
  | none => loopTest s

/-- DRAIN_APPLY (R129): at most one due event, applied to its chip. -/
def execDrainApply (s : State) : Host.Outcome State Fault Refusal :=
  if s.consRuns then
    match tryDequeueDueBy s.ce s with
    | .ok (m, t) => .next (applyAnswer m t)
    | .error f => .fault f
  else .next s

/-- 256 register writes of 0x00, then `RC`, `RELEASED` and `CARRY` cleared, and back to the loop (R134). -/
def resetClear (s : State) : State :=
  leaveReset { tgClear allChipRegs s with rc := 0, released := false, carry := 0 }

/-- RESET_CLEAR (R134). -/
def execResetClear (s : State) : Host.Outcome State Fault Refusal :=
  .next (whileConsRuns resetClear s)

end Sys2Proof.Machine
end

