-- ==== Sys2Proof/Machine/Dispatch.lean ====
section
/-! DEFINITION. One arm per row of spec/opcode_table.json. -/

namespace Sys2Proof.Machine

open Sys2Proof

def exec (i : Instr) (s : State) : Host.Outcome State Fault Refusal :=
  match i with
  | .idle rst => Sys2Proof.Machine.execIdle rst s
  | .read rst reg => Sys2Proof.Machine.execRead rst reg s
  | .write rst d ci reg => Sys2Proof.Machine.execWrite rst d ci reg s
  | .fetchTarget => Sys2Proof.Machine.execFetchTarget s
  | .accStep => Sys2Proof.Machine.execAccStep s
  | .tgAdvance => Sys2Proof.Machine.execTgAdvance s
  | .cacheRefresh => Sys2Proof.Machine.execCacheRefresh s
  | .drainApply => Sys2Proof.Machine.execDrainApply s
  | .mixOut => Sys2Proof.Machine.execMixOut s
  | .resetClear => Sys2Proof.Machine.execResetClear s
  | .calibrate => Sys2Proof.Machine.execCalibrate s
  | .enqueue ev => Sys2Proof.Machine.execEnqueue ev s
  | .tryDequeueDueBy cycle => Sys2Proof.Machine.execTryDequeueDueBy cycle s

end Sys2Proof.Machine
end

