-- ==== Sys2Proof/Machine/Fetch.lean ====
section
/-! DEFINITION. How the next operation comes to the machine. There is no instruction stream (10_state.md R24,
20_memory.md R62): an agent's turn brings a bus sample to DEC, or lets CONS perform the phase that PHASE names, or a
FIFO port gets a request. Which turn comes next is the environment's choice (20_memory.md R56; entry 3). -/

namespace Sys2Proof.Machine

open Sys2Proof

/-- The next turn: the first one lined up, or one of the environment's own choosing (entry 3). -/
def nextTurn (s : State) : Turn × State :=
  match s.agenda with
  | t :: rest => (t, { s with agenda := rest })
  | [] => (.agent (Config.environment s.turnNo), { s with turnNo := s.turnNo + 1 })

/-- The word a turn puts on its port: CONS's is its own PHASE register (R74, R123). -/
def turnWord (t : Turn) (s : State) : PortWord :=
  match t with
  | .agent (.producer bs) => .bus bs
  | .agent (.consumer _) => .phase s.phase
  | .fifoWrite we ev => .fifoWrite we ev
  | .fifoRead dq => .fifoRead dq

/-- The inputs a consumer turn brings (R41) stand for that step; no other turn changes them. -/
def latchInputs (t : Turn) (s : State) : State :=
  match t with
  | .agent (.consumer env) => { s with env := env }
  | .agent (.producer _) => s
  | .fifoWrite _ _ => s
  | .fifoRead _ => s

/-- The wall clock runs back: a turn of CONS while MODE = CALIBRATING, each of which reads `WallClockUs()` (R109),
answers less than the turn before, whose answer `env` still holds. R9 has the clock "free but monotonic", and U24 refuses
this; no other turn reads the clock twice (R170; entry 8). -/
def clockRunsBack (t : Turn) (s : State) : Bool :=
  match t with
  | .agent (.consumer env) => decide (s.mode = .calibrating ∧ env.wallClock < s.env.wallClock)
  | .agent (.producer _) => false
  | .fifoWrite _ _ => false
  | .fifoRead _ => false

/-- The next operation, or an idle port, and the state it meets. -/
def fetch (s : State) : Except DecodeReject Instr × State :=
  (decode (turnWord (nextTurn s).1 (nextTurn s).2), latchInputs (nextTurn s).1 (nextTurn s).2)

/-- A mode in which CONS runs: MODE itself, or INIT, a new run's, where CONS has no further step (R123, R156). -/
def runningMode (m : Mode) : Mode := if m = .halted ∨ m = .stopped then .init else m

/-- Line up the turn that brings a port's word next. A bus sample needs ARMED = 1 (R78); a phase needs PHASE and a MODE
in which CONS runs (R123). -/
def placeWord (pw : PortWord) (s : State) : State :=
  match pw with
  | .bus bs => { s with armed := true, agenda := .agent (.producer bs) :: s.agenda }
  | .phase p => { s with phase := p, mode := runningMode s.mode, agenda := .agent (.consumer s.env) :: s.agenda }
  | .fifoWrite we ev => { s with agenda := .fifoWrite we ev :: s.agenda }
  | .fifoRead dq => { s with agenda := .fifoRead dq :: s.agenda }

end Sys2Proof.Machine
end

