-- ==== Sys2Proof/Machine/Step.lean ====
section
/-! DEFINITION. One step of the machine: one atomic step of one agent (20_memory.md R56, D10). -/

namespace Sys2Proof.Machine

open Sys2Proof

/-- Take the next turn and perform its operation. An idle FIFO port asks for none (R73). A configuration outside the
ranges of R11 is refused (U16, entry 5), and so is a wall clock that runs back (U24, entry 8). -/
def step (s : State) : Host.Outcome State Fault Refusal :=
  if s.cfg.legal then
    if clockRunsBack (nextTurn s).1 s then .refused .wallClockRanBack
    else
      match fetch s with
      | (.ok i, t) => exec i t
      | (.error _, t) => .next t
  else .refused .illegalConfiguration

/-- `s` with a table row's word lined up as the very next turn (entry 17); a width no format has changes nothing. -/
def State.withFetchWord (s : State) (nbits w : Nat) : State :=
  match portWordOfBits nbits w with
  | some pw => placeWord pw s
  | none => s

end Sys2Proof.Machine
end

