-- ==== Sys2Proof/Safety.lean ====
section
/-! DEFINITION. The terms in which claims speak of a run: the FIFO as a list (41_transaction_fifo.md R93), the cycles
an instance has been advanced by (44_sequencer.md R138), the period counts of successive ACC_STEPs
(42_cycle_accumulator.md R106), and the invariant of the machine. -/

namespace Sys2Proof.Machine

open Sys2Proof

/-! ## The FIFO as a list -/

/-- The word of the k-th queued event, `SLOT[(RD + k) mod CAP]` (R92). -/
def queuedWord (s : State) (k : Nat) : Option EventWord := slotRead s.slots (slotOf s.cfg (s.rd + k))

/-- The queued events, oldest first (R92, R93). -/
def queueOf (s : State) : List BusEvent :=
  (List.range s.occ).filterMap fun k => (queuedWord s k).map unpackEvent

/-- `Enqueue(ev)` on the list (R93): drop the first element when the list holds CAP, then append. -/
def listEnqueue (cap : Nat) (ev : BusEvent) (q : List BusEvent) : List BusEvent :=
  (if q.length = cap then q.tail else q) ++ [ev]

/-- `TryDequeueDueBy(y)` on the list (R93): the answer and the list after. -/
def listDequeue (y : Word64) : List BusEvent → Option BusEvent × List BusEvent
  | [] => (none, [])
  | h :: rest => if h.atCycle ≤ y then (some h, rest) else (none, h :: rest)

/-- The stamps of the queued events rise strictly and lie below HCC (R97). -/
def stampsRise (s : State) : Prop :=
  (queueOf s).Pairwise (fun a b => a.atCycle < b.atCycle) ∧ ∀ ev ∈ queueOf s, ev.atCycle < s.hcc

/-! ## What the tone generators and the divider have done -/

/-- How many cycles instance `c` has been advanced by in a history of calls (R138). -/
def cyclesAdvanced (c : ChipIndex) : List TGCall → Nat
  | [] => 0
  | .advance d n :: rest => (if c = d then n else 0) + cyclesAdvanced c rest
  | .write _ _ _ :: rest => cyclesAdvanced c rest
  | .read _ _ :: rest => cyclesAdvanced c rest
  | .output _ :: rest => cyclesAdvanced c rest

/-- The state after `k` ACC_STEPs and the period counts they produced, oldest first (R106). -/
def accRun : Nat → State → Option (List Nat × State)
  | 0, s => some ([], s)
  | k + 1, s =>
    match exec .accStep s with
    | .next t =>
      match accRun k t with
      | some (ns, u) => some (t.nout.toNat :: ns, u)
      | none => none
    | .fault _ => none
    | .refused _ => none

/-! ## Whose turn it is -/

/-- The operation is one of PROD's three transaction kinds. -/
def isTransaction : Instr → Bool
  | .idle _ => true
  | .read _ _ => true
  | .write _ _ _ _ => true
  | .fetchTarget => false
  | .accStep => false
  | .tgAdvance => false
  | .cacheRefresh => false
  | .drainApply => false
  | .mixOut => false
  | .resetClear => false
  | .calibrate => false
  | .enqueue _ => false
  | .tryDequeueDueBy _ => false

/-- The operation is one of CONS's eight phases. -/
def isPhase : Instr → Bool
  | .idle _ => false
  | .read _ _ => false
  | .write _ _ _ _ => false
  | .fetchTarget => true
  | .accStep => true
  | .tgAdvance => true
  | .cacheRefresh => true
  | .drainApply => true
  | .mixOut => true
  | .resetClear => true
  | .calibrate => true
  | .enqueue _ => false
  | .tryDequeueDueBy _ => false

/-! ## The invariant -/

/-- What MODE says about PHASE, ARMED and CALSTATE (R125, R124, R109, R145, R156). -/
def controlOk (s : State) : Prop :=
  match s.mode with
  | .init => s.phase = phCalibrate ∧ s.armed = false ∧ s.calState = .live
  | .calibrating => s.phase = phCalibrate ∧ s.armed = true ∧ s.calState ≠ .done
  | .catchup => s.phase.toNat ≤ 5 ∧ s.armed = true ∧ s.calState = .done
  | .playing => s.phase.toNat ≤ 5 ∧ s.armed = true ∧ s.calState = .done
  | .resetting => s.phase = phResetClear ∧ s.armed = true ∧ s.calState = .done
  | .halted => s.armed = false
  | .stopped => s.armed = false

/-- While the calibrator measures, the wall clock's last reading is at or past the ones it kept, so that no elapsed time
is negative (R9, R109, U24). -/
abbrev clockOk (s : State) : Prop :=
  s.mode = .calibrating →
    s.tstart.toNat ≤ s.env.wallClock.toNat ∧
    (s.calState = .window → s.tstart.toNat ≤ s.t0.toNat ∧ s.t0.toNat ≤ s.env.wallClock.toNat)

/-- The FIFO's registers and slots agree (R28, R32, R92, R31). -/
structure FifoInv (s : State) : Prop where
  /-- WR has LOG2CAP + 1 bits (R28). -/
  wr_lt : s.wr < 2 ^ (s.cfg.log2cap + 1)
  /-- RD has LOG2CAP + 1 bits (R32). -/
  rd_lt : s.rd < 2 ^ (s.cfg.log2cap + 1)
  /-- `OCC ≤ CAP` (R92). -/
  occ_le : s.occ ≤ Params.capacity s.cfg
  /-- The slot array is in its canonical form. -/
  slots_wf : SlotArray.wf s.cfg s.slots
  /-- Every queued slot has been written (R31). -/
  queued_written : ∀ k, k < s.occ → (queuedWord s k).isSome = true

/-- The invariant that every step keeps. -/
structure Inv (s : State) : Prop where
  /-- The parameters are legal (R11, U16). -/
  cfg_legal : s.cfg.legal = true
  /-- The FIFO (R92). -/
  fifo : FifoInv s
  /-- The tone generator registers are in the canonical form of a memory of 256 bytes (R46). -/
  tgreg_wf : Memory.wf 256 s.tgreg
  /-- `CARRY < 2^16` (R105). -/
  carry_lt : s.carry.toNat < 2 ^ 16
  /-- `INC ≤ 2^32 - 2^16` once CALIBRATE has written it (R103); before that INC is unspecified (R157). -/
  inc_le : s.calState = .done → s.inc.toNat ≤ 2 ^ 32 - 2 ^ 16
  /-- LEFT is within [-32767, 32767] (R39). -/
  left_ge : -32767 ≤ s.left.toInt
  /-- RIGHT is within [-32767, 32767] (R39). -/
  right_ge : -32767 ≤ s.right.toInt
  /-- D_OUT is driven exactly when D_OE = 1 (R29). -/
  drive : s.dOE = s.dOut.isSome
  /-- Every instance has been advanced by CE cycles, modulo the width of CE (R138, R33). -/
  lockstep : ∀ c : ChipIndex, BitVec.ofNat 64 (cyclesAdvanced c s.tgCalls) = s.ce
  /-- MODE, PHASE, ARMED and CALSTATE agree. -/
  control : controlOk s
  /-- The wall clock has not run back (R9, U24). -/
  clock : clockOk s

/-- A step that does not stop: it answers a next state (R81, R132). -/
def SafeStep (s : State) : Prop := ∃ t, step s = .next t

end Sys2Proof.Machine
end

