-- ==== Sys2Proof/Certificates/Slice0/Obligations.lean ====
section
/-! DEFINITION. The statements about SK64-BDB. Each docstring names the rule of spec/ it formalises. A statement marked
"the model's choice" rests on the log entry it names. -/

open Sys2Proof Sys2Proof.Machine

/-! ## Encodings (30_encoding.md) -/

/-- R66, R67, R72, R73, R74: words written out in 95_test_vectors.md 2.1 and 2.3 decode to what they stand for. -/
def Obligations.WordsOfTheSpecDecode : Prop :=
  decode (.bus 0x00000#19) = .ok (.idle false) ∧
  decode (.bus 0x5ABCD#19) = .ok (.idle true) ∧
  decode (.bus 0x3AB7B#19) = .ok (.read false 27) ∧
  decode (.bus 0x63F45#19) = .ok (.write true 0x3F 2 5) ∧
  decode (.phase 0b101#3) = .ok .mixOut ∧
  decode (.fifoWrite true 0x00000000000000643F45#80)
    = .ok (.enqueue { chipIndex := 2, register := 5, value := 0x3F, atCycle := 100 }) ∧
  decode (.fifoRead 0x10000000000000064#65) = .ok (.tryDequeueDueBy 100)

/-- R66, R67, R72, R73, R74: decoding an operation's word gives the operation back, with every operand at every value. -/
def Obligations.DecodeEncodeRoundTrip : Prop :=
  ∀ i : Instr, i.wf = true → decode (encode i) = .ok i

/-- R67: every bus sample is exactly one kind, told by SEL and RW alone, with the kind's own fields as operands. -/
def Obligations.EveryBusSampleIsOneKind : Prop :=
  ∀ bs : BusWord,
    (bs &&& 0x20000#19 = 0x00000#19 ∧ bs &&& 0x30000#19 ≠ 0x30000#19 ∧ bs &&& 0x30000#19 ≠ 0x20000#19 ∧
      decode (.bus bs) = .ok (.idle (bs.getLsbD 18))) ∨
    (bs &&& 0x20000#19 ≠ 0x00000#19 ∧ bs &&& 0x30000#19 = 0x30000#19 ∧ bs &&& 0x30000#19 ≠ 0x20000#19 ∧
      decode (.bus bs) = .ok (.read (bs.getLsbD 18) (bs.extractLsb' 0 5))) ∨
    (bs &&& 0x20000#19 ≠ 0x00000#19 ∧ bs &&& 0x30000#19 ≠ 0x30000#19 ∧ bs &&& 0x30000#19 = 0x20000#19 ∧
      decode (.bus bs)
        = .ok (.write (bs.getLsbD 18) (bs.extractLsb' 8 8) (bs.extractLsb' 5 3) (bs.extractLsb' 0 5)))

/-- R67, R72, R73, R74: a word that decodes to an operation matches that operation's row of the opcode table. -/
def Obligations.DecodedWordMatchesItsRow : Prop :=
  ∀ (w : PortWord) (i : Instr), decode w = .ok i → w.matchesRow i = true

/-- R70: decode then encode and encode then decode of the raw address are both the identity. -/
def Obligations.RawAddressRoundTrip : Prop :=
  (∀ ra : RawAddr, rawAddr (RawAddr.chipIndex ra) (RawAddr.register ra) = ra) ∧
  (∀ (c : ChipIndex) (r : RegNum), RawAddr.chipIndex (rawAddr c r) = c ∧ RawAddr.register (rawAddr c r) = r ∧
    (rawAddr c r).toNat = 32 * c.toNat + r.toNat)

/-- R72: the layout of the slot word; all `2^80` words are valid events, pack and unpack are inverse, and the low 16
bits of the word a WRITE sample makes are the low 16 bits of the sample. -/
def Obligations.EventWordIsFaithful : Prop :=
  (∀ ev : BusEvent, (packEvent ev).extractLsb' 16 64 = ev.atCycle ∧ (packEvent ev).extractLsb' 8 8 = ev.value ∧
    (packEvent ev).extractLsb' 5 3 = ev.chipIndex ∧ (packEvent ev).extractLsb' 0 5 = ev.register) ∧
  (∀ w : EventWord, packEvent (unpackEvent w) = w) ∧
  (∀ ev : BusEvent, unpackEvent (packEvent ev) = ev) ∧
  (∀ (bs : BusWord) (t : Word64), bs &&& 0x30000#19 = 0x20000#19 →
    ∃ rst d ci reg, decode (.bus bs) = .ok (.write rst d ci reg) ∧
      (packEvent { chipIndex := ci, register := reg, value := d, atCycle := t }).extractLsb' 0 16
        = bs.extractLsb' 0 16)

/-! ## The bus transaction decoder (40_bus_decoder.md) -/

/-- R84: a sample with SEL = 0 is IDLE whatever its other fields; an IDLE cycle drives and enqueues nothing: only the
reset modifier (R82) and the cycle count (R88) act. -/
def Obligations.IdleOnlyDebouncesAndCounts : Prop :=
  (∀ bs : BusWord, bs &&& 0x20000#19 = 0x00000#19 → decode (.bus bs) = .ok (.idle (bs.getLsbD 18))) ∧
  ∀ (rst : Bool) (s : State), s.armed = true →
    exec (.idle rst) s = .next { s with
      hcc := s.hcc + 1
      rc := if rst then s.rc + 1 else s.rc
      pressed := rst
      released := s.released || (!rst && s.pressed)
      dOE := false
      dOut := none }

/-- R85: a sample with SEL = 1 and RW = 1 is READ of its low five bits whatever CI and D; a READ drives `CACHE[REG]` and
changes nothing else but what every decoder step changes. -/
def Obligations.ReadDrivesTheCachedByte : Prop :=
  (∀ bs : BusWord, bs &&& 0x30000#19 = 0x30000#19 →
    decode (.bus bs) = .ok (.read (bs.getLsbD 18) (bs.extractLsb' 0 5))) ∧
  ∀ (rst : Bool) (reg : RegNum) (s : State), s.armed = true →
    exec (.read rst reg) s = .next { s with
      hcc := s.hcc + 1
      rc := if rst then s.rc + 1 else s.rc
      pressed := rst
      released := s.released || (!rst && s.pressed)
      dOE := true
      dOut := some (s.cache[reg.toNat]'reg.isLt) }

/-- R87: a sample with SEL = 1 and RW = 0 is WRITE of its fields; a WRITE puts `{HCC, D, CI, REG}` into the slot at WR,
advances WR, and RD too when the FIFO is full; every other slot reads as before, and the rest of the state is as after
any decoder step that drives nothing. -/
def Obligations.WriteEnqueuesTheStampedEvent : Prop :=
  (∀ bs : BusWord, bs &&& 0x30000#19 = 0x20000#19 →
    decode (.bus bs)
      = .ok (.write (bs.getLsbD 18) (bs.extractLsb' 8 8) (bs.extractLsb' 5 3) (bs.extractLsb' 0 5))) ∧
  ∀ (rst : Bool) (d : Byte) (ci : ChipIndex) (reg : RegNum) (s : State), s.armed = true →
    ∃ t, exec (.write rst d ci reg) s = .next t ∧
      (∀ j, slotRead t.slots j
        = if j = slotOf s.cfg s.wr then some (s.hcc ++ d ++ ci ++ reg) else slotRead s.slots j) ∧
      t = { s with
        slots := t.slots
        wr := (s.wr + 1) % 2 ^ (s.cfg.log2cap + 1)
        rd := if s.occ = 2 ^ s.cfg.log2cap then (s.rd + 1) % 2 ^ (s.cfg.log2cap + 1) else s.rd
        hcc := s.hcc + 1
        rc := if rst then s.rc + 1 else s.rc
        pressed := rst
        released := s.released || (!rst && s.pressed)
        dOE := false
        dOut := none }

/-- R78, R30: while ARMED = 0 there is no decoder step, whatever the sample, and no register changes. That the bus cycle
still ends an earlier READ's drive (D_OE = 0, D_OUT not driven) is the model's reading of R29, R86 and D6 beside R30's "no
producer-domain register changes" (entry 11). -/
def Obligations.NoDecoderStepWhileDisarmed : Prop :=
  ∀ (i : Instr) (s : State), isTransaction i = true → s.armed = false →
    exec i s = .next { s with dOE := false, dOut := none }

/-- R83: the four-state debounce, with RC, for every transaction kind, and its column for RESET_CLEAR. -/
def Obligations.FourStateDebounce : Prop :=
  (∀ (i : Instr) (rst : Bool) (s : State),
    (i = .idle rst ∨ (∃ reg, i = .read rst reg) ∨ (∃ d ci reg, i = .write rst d ci reg)) → s.armed = true →
    ∃ t, exec i s = .next t ∧
      (t.pressed, t.released) = (match rst, s.pressed, s.released with
        | true, false, false => (true, false)
        | true, true, false => (true, false)
        | true, false, true => (true, true)
        | true, true, true => (true, true)
        | false, false, false => (false, false)
        | false, true, false => (false, true)
        | false, false, true => (false, true)
        | false, true, true => (false, true)) ∧
      t.rc = if rst then s.rc + 1 else s.rc) ∧
  (∀ s : State, s.consRuns = true → ∃ t, exec .resetClear s = .next t ∧
    (t.pressed, t.released) = (match s.pressed, s.released with
      | false, false => (false, false)
      | true, false => (true, false)
      | false, true => (false, false)
      | true, true => (true, false)))

/-- R88: HCC counts the bus samples; after `n` of them, of any kinds, it has grown by `n` modulo `2^64`. -/
def Obligations.BusCyclesAreCounted : Prop :=
  ∀ (samples : List BusWord) (rest : List Turn) (s : State), s.cfg.legal = true → s.armed = true →
    s.agenda = samples.map (fun bs => Turn.agent (.producer bs)) ++ rest →
    ∃ t, Host.Core.run Sys2Proof.core samples.length s = .next t ∧
      t.hcc = s.hcc + BitVec.ofNat 64 samples.length ∧ t.agenda = rest ∧ t.armed = true

/-- R82, R77: the pseudo-operation RESET n leaves the line released with its `n` asserted cycles counted. -/
def Obligations.ResetPulseIsCounted : Prop :=
  ∀ (n : Nat) (rest : List Turn) (s : State), s.cfg.legal = true → s.armed = true → 1 ≤ n →
    s.agenda = (resetSamples n).map (fun bs => Turn.agent (.producer bs)) ++ rest →
    ∃ t, Host.Core.run Sys2Proof.core (n + 1) s = .next t ∧
      t.rc = s.rc + BitVec.ofNat 32 n ∧ t.pressed = false ∧ t.released = true ∧
      t.hcc = s.hcc + BitVec.ofNat 64 (n + 1)

/-- R50: a READ at raw address `ra` answers `CACHE[ra[4:0]]`, whatever the chip bits, and changes nothing but what every
decoder step changes; a second READ answers the same byte. -/
def Obligations.HostReadIgnoresTheChip : Prop :=
  ∀ (ra : RawAddr) (s : State), s.armed = true →
    ∃ i t, decode (.bus (readSample ra)) = .ok i ∧ exec i s = .next t ∧
      t = { s with
        hcc := s.hcc + 1
        pressed := false
        released := s.released || s.pressed
        dOE := true
        dOut := some (cacheAt s (ra.extractLsb' 0 5)) } ∧
      queueOf t = queueOf s ∧
      exec i t = .next { t with hcc := t.hcc + 1 }

/-- R51: a WRITE at raw address `ra` with byte `v` makes one event stamped HCC, at the end of the queue, and changes
nothing else but what every decoder step changes: neither the cache nor the tone generators. -/
def Obligations.HostWriteMakesOneEvent : Prop :=
  ∀ (ra : RawAddr) (v : Byte) (s : State), s.armed = true → FifoInv s →
    ∃ i t, decode (.bus (writeSample ra v)) = .ok i ∧ exec i s = .next t ∧
      queueOf t = listEnqueue (2 ^ s.cfg.log2cap)
        { chipIndex := ra.extractLsb' 5 3, register := ra.extractLsb' 0 5, value := v, atCycle := s.hcc }
        (queueOf s) ∧
      t = { s with
        slots := t.slots
        wr := t.wr
        rd := t.rd
        hcc := s.hcc + 1
        pressed := false
        released := s.released || s.pressed
        dOE := false
        dOut := none }

/-- R80, R151: PROD writes HCC, RC, PRESSED, RELEASED, WR, SLOT, D_OUT, D_OE, and RD only when a WRITE meets a full
FIFO; it calls no TGB primitive and writes no consumer register. -/
def Obligations.TransactionsWriteOnlyProducerState : Prop :=
  ∀ (i : Instr) (s t : State), isTransaction i = true → exec i s = .next t →
    t = { s with hcc := t.hcc, rc := t.rc, pressed := t.pressed, released := t.released, wr := t.wr,
                 slots := t.slots, rd := t.rd, dOE := t.dOE, dOut := t.dOut } ∧
    (t.rd ≠ s.rd → s.isFull = true ∧ ∃ rst d ci reg, i = .write rst d ci reg)

/-! ## The transaction FIFO (41_transaction_fifo.md) -/

/-- R43, R92: EMPTY is `OCC = 0`; FULL is WR and RD equal in their low LOG2CAP bits and different in bit LOG2CAP. -/
def Obligations.EmptyAndFullFromTheIndices : Prop :=
  ∀ s : State, s.wr < 2 ^ (s.cfg.log2cap + 1) → s.rd < 2 ^ (s.cfg.log2cap + 1) →
    (s.isEmpty = true ↔ s.occ = 0) ∧
    (s.isFull = true ↔
      s.wr % 2 ^ s.cfg.log2cap = s.rd % 2 ^ s.cfg.log2cap ∧ s.wr / 2 ^ s.cfg.log2cap ≠ s.rd / 2 ^ s.cfg.log2cap)

/-- R94: the write port's word asks for Enqueue of its fields; Enqueue writes the slot at WR, evicts the oldest event
when full, publishes WR, and changes nothing else; the FIFO is then not empty, and OCC grows by 1 unless it was CAP. -/
def Obligations.EnqueueWritesThenPublishes : Prop :=
  (∀ w : EventWord, decode (.fifoWrite true w) = .ok (.enqueue
    { chipIndex := w.extractLsb' 5 3, register := w.extractLsb' 0 5, value := w.extractLsb' 8 8,
      atCycle := w.extractLsb' 16 64 })) ∧
  ∀ (ev : BusEvent) (s : State),
    ∃ t, exec (.enqueue ev) s = .next t ∧
      (∀ j, slotRead t.slots j = if j = s.wr % 2 ^ s.cfg.log2cap
        then some (ev.atCycle ++ ev.value ++ ev.chipIndex ++ ev.register) else slotRead s.slots j) ∧
      t = { s with
        slots := t.slots
        wr := (s.wr + 1) % 2 ^ (s.cfg.log2cap + 1)
        rd := if s.occ = 2 ^ s.cfg.log2cap then (s.rd + 1) % 2 ^ (s.cfg.log2cap + 1) else s.rd } ∧
      (FifoInv s → t.isEmpty = false ∧
        t.occ = if s.occ = 2 ^ s.cfg.log2cap then 2 ^ s.cfg.log2cap else s.occ + 1)

/-- R95: TryDequeueDueBy examines the oldest event only; due (`atCycle ≤ y`) it is consumed and answered, otherwise the
answer is none and nothing but the port's response (R73) changes. That State holds that response, in `readPort`, is the
model's choice (entry 14). -/
def Obligations.TryDequeueTakesTheOldestIfDue : Prop :=
  (∀ dq : RequestWord, dq.getLsbD 64 = true →
    decode (.fifoRead dq) = .ok (.tryDequeueDueBy (dq.extractLsb' 0 64))) ∧
  (∀ (y : Word64) (s t : State), FifoInv s → exec (.tryDequeueDueBy y) s = .next t →
    t.occ = if t.readPort.isSome then s.occ - 1 else s.occ) ∧
  ∀ (y : Word64) (s : State),
    (s.rd = s.wr → exec (.tryDequeueDueBy y) s = .next { s with readPort := none }) ∧
    (∀ w : EventWord, s.rd ≠ s.wr → slotRead s.slots (s.rd % 2 ^ s.cfg.log2cap) = some w →
      ((w.extractLsb' 16 64).toNat ≤ y.toNat →
        exec (.tryDequeueDueBy y) s = .next { s with
          rd := (s.rd + 1) % 2 ^ (s.cfg.log2cap + 1)
          readPort := some { chipIndex := w.extractLsb' 5 3, register := w.extractLsb' 0 5,
                             value := w.extractLsb' 8 8, atCycle := w.extractLsb' 16 64 } }) ∧
      (y.toNat < (w.extractLsb' 16 64).toNat →
        exec (.tryDequeueDueBy y) s = .next { s with readPort := none }))

/-- The model's choice (entry 2; R31 "A model gives an unwritten slot no value"): a dequeue whose head slot nothing has
written stops, in both operations that dequeue. -/
def Obligations.UnwrittenHeadSlotFaults : Prop :=
  ∀ (y : Word64) (s : State), s.rd ≠ s.wr → slotRead s.slots (slotOf s.cfg s.rd) = none →
    exec (.tryDequeueDueBy y) s = .fault .slotNeverWritten ∧
    (s.consRuns = true → exec .drainApply s = .fault .slotNeverWritten)

/-- R93: the FIFO of indices and slots refines the list, step for step, and starts empty. That State holds the answer, in
`readPort`, is the model's choice (entry 14). -/
def Obligations.FifoRefinesTheList : Prop :=
  queueOf State.reset = [] ∧
  (∀ s : State, FifoInv s → (queueOf s).length = s.occ ∧ (queueOf s).length ≤ 2 ^ s.cfg.log2cap) ∧
  (∀ (ev : BusEvent) (s : State), FifoInv s →
    ∃ t, exec (.enqueue ev) s = .next t ∧ FifoInv t ∧
      queueOf t = listEnqueue (2 ^ s.cfg.log2cap) ev (queueOf s)) ∧
  (∀ (y : Word64) (s : State), FifoInv s →
    ∃ t, exec (.tryDequeueDueBy y) s = .next t ∧ FifoInv t ∧
      t.readPort = (listDequeue y (queueOf s)).1 ∧ queueOf t = (listDequeue y (queueOf s)).2)

/-- R99: `CAP + k` enqueues into an empty FIFO, with no dequeue, leave the `CAP` newest events in order. The enqueues are
bare requests at the write port, turns of the model's own (entry 18). -/
def Obligations.OverflowKeepsTheNewest : Prop :=
  ∀ (evs : List BusEvent) (k : Nat) (rest : List Turn) (s : State), s.cfg.legal = true → FifoInv s →
    s.wr = 0 → s.rd = 0 → evs.length = 2 ^ s.cfg.log2cap + k → k < 2 ^ s.cfg.log2cap →
    s.agenda = evs.map (fun ev => Turn.fifoWrite true (packEvent ev)) ++ rest →
    ∃ t, Host.Core.run Sys2Proof.core evs.length s = .next t ∧
      t.occ = 2 ^ s.cfg.log2cap ∧ t.rd = k ∧
      t.wr = (2 ^ s.cfg.log2cap + k) % 2 ^ (s.cfg.log2cap + 1) ∧ queueOf t = evs.drop k

/-- R98, R129, R94, R95, R87: in one step of the machine the queue stays; or a turn of CONS in DRAIN_APPLY takes its
oldest event, not before its stamp, to the one register it addresses; or a request at the read port takes its oldest
event, not before its stamp; or a WRITE sample's event, stamped HCC, or the event of a request at the write port comes to
its end as R93 says. The two bare requests, and the response held in `readPort`, are the model's choice (entries 18, 14):
R90 gives the ports to DEC and SEQ alone. -/
def Obligations.EventsLeaveInOrder : Prop :=
  ∀ s t : State, Inv s → step s = .next t →
    (queueOf t = queueOf s) ∨
    (∃ e ev, (nextTurn s).1 = .agent (.consumer e) ∧ s.phase = 0b100#3 ∧
      queueOf s = ev :: queueOf t ∧ ev.atCycle.toNat ≤ s.ce.toNat ∧
      t.tgCalls = .write ev.chipIndex ev.register ev.value :: s.tgCalls ∧
      ∀ (c : ChipIndex) (r : RegNum), tgRegAt t c r
        = if c = ev.chipIndex ∧ r = ev.register then ev.value else tgRegAt s c r) ∨
    (∃ dq ev, (nextTurn s).1 = .fifoRead dq ∧ dq.getLsbD 64 = true ∧
      queueOf s = ev :: queueOf t ∧ ev.atCycle.toNat ≤ (dq.extractLsb' 0 64).toNat ∧
      t.readPort = some ev ∧ t.tgCalls = s.tgCalls ∧ t.tgreg = s.tgreg) ∨
    (∃ bs, (nextTurn s).1 = .agent (.producer bs) ∧ s.armed = true ∧ bs &&& 0x30000#19 = 0x20000#19 ∧
      queueOf t = listEnqueue (2 ^ s.cfg.log2cap)
        { chipIndex := bs.extractLsb' 5 3, register := bs.extractLsb' 0 5, value := bs.extractLsb' 8 8, atCycle := s.hcc }
        (queueOf s) ∧
      t.tgCalls = s.tgCalls ∧ t.tgreg = s.tgreg) ∨
    (∃ w, (nextTurn s).1 = .fifoWrite true w ∧
      queueOf t = listEnqueue (2 ^ s.cfg.log2cap) (unpackEvent w) (queueOf s) ∧
      t.tgCalls = s.tgCalls ∧ t.tgreg = s.tgreg)

/-- R97: with DEC as the only enqueuer and no wrap of HCC, the stamps of the queued events rise strictly and lie below
HCC: so after initialisation, and every step keeps it so. -/
def Obligations.StampsKeepRising : Prop :=
  stampsRise State.reset ∧
  ∀ s t : State, Inv s → stampsRise s → s.hcc.toNat < 2 ^ 64 - 1 →
    (∀ ev, (nextTurn s).1 ≠ .fifoWrite true ev) → step s = .next t → stampsRise t

/-! ## The accumulator and the calibrator (42_cycle_accumulator.md) -/

/-- R104: ACC_STEP splits the exact sum `INC + CARRY` at bit 16; within the bounds of R103 and R105 the sum fits 32
bits, so nothing is lost. -/
def Obligations.AccStepSplitsTheSum : Prop :=
  decode (.phase 0b001#3) = .ok .accStep ∧
  (∀ s : State, s.consRuns = true →
    exec .accStep s = .next { s with
      nout := BitVec.ofNat 16 ((s.inc.toNat + s.carry.toNat) / 2 ^ 16)
      carry := BitVec.ofNat 32 ((s.inc.toNat + s.carry.toNat) % 2 ^ 16)
      phase := 0b010#3 }) ∧
  (∀ s : State, s.inc.toNat ≤ 2 ^ 32 - 2 ^ 16 → s.carry.toNat < 2 ^ 16 → s.inc.toNat + s.carry.toNat < 2 ^ 32)

/-- R106: the no-drift law of `k` consecutive ACC_STEPs. -/
def Obligations.PeriodCountsDoNotDrift : Prop :=
  ∀ (k : Nat) (s : State), s.consRuns = true → s.inc.toNat ≤ 2 ^ 32 - 2 ^ 16 → s.carry.toNat < 2 ^ 16 →
    ∃ ns t, accRun k s = some (ns, t) ∧ ns.length = k ∧
      ns.sum = (k * s.inc.toNat + s.carry.toNat) / 2 ^ 16 ∧
      t.carry.toNat = (k * s.inc.toNat + s.carry.toNat) % 2 ^ 16 ∧
      (∀ n ∈ ns, n = s.inc.toNat / 2 ^ 16 ∨ n = s.inc.toNat / 2 ^ 16 + 1) ∧
      (k * s.inc.toNat < (ns.sum + 1) * 2 ^ 16 ∧ ns.sum * 2 ^ 16 < k * s.inc.toNat + 2 ^ 16)

/-- R105: `CARRY < 2^16` at reset, and every step keeps it. -/
def Obligations.CarryStaysAFraction : Prop :=
  State.reset.carry.toNat < 2 ^ 16 ∧
  ∀ s t : State, s.carry.toNat < 2 ^ 16 → step s = .next t → t.carry.toNat < 2 ^ 16

/-- R109, R145: every case of one CALIBRATE step, while CONS runs and with legal parameters. -/
def Obligations.CalibrateStepByStep : Prop :=
  decode (.phase 0b111#3) = .ok .calibrate ∧
  ∀ s : State, s.cfg.legal = true → s.consRuns = true →
    (s.mode = .init →
      exec .calibrate s = .next { s with
        mode := .calibrating, armed := true, calState := .live, tstart := s.env.wallClock }) ∧
    (s.mode ≠ .init → s.calState = .live → s.cfg.minLiveCycles ≤ s.hcc.toNat →
      exec .calibrate s = .next { s with t0 := s.env.wallClock, c0 := s.hcc, calState := .window }) ∧
    (s.mode ≠ .init → s.calState = .live → s.hcc.toNat < s.cfg.minLiveCycles →
      s.tstart.toNat + s.cfg.livenessTimeoutUs < s.env.wallClock.toNat →
      exec .calibrate s = .next { s with armed := false, mode := .halted }) ∧
    (s.mode ≠ .init → s.calState = .live → s.hcc.toNat < s.cfg.minLiveCycles →
      s.env.wallClock.toNat ≤ s.tstart.toNat + s.cfg.livenessTimeoutUs → exec .calibrate s = .next s) ∧
    (s.mode ≠ .init → s.calState = .window → s.env.wallClock.toNat < s.t0.toNat + s.cfg.calWindowUs →
      exec .calibrate s = .next s) ∧
    (∀ f : Nat, s.mode ≠ .init → s.calState = .window → s.t0.toNat + s.cfg.calWindowUs ≤ s.env.wallClock.toNat →
      f = (s.hcc - s.c0).toNat * 1000000 / (s.env.wallClock.toNat - s.t0.toNat) →
      (f < 1 ∨ 2 ^ 32 ≤ f ∨ 2 ^ 32 - 2 ^ 16 < 2 ^ 16 * f / s.cfg.sampleRate →
        exec .calibrate s = .next { s with armed := false, mode := .halted }) ∧
      (1 ≤ f → f < 2 ^ 32 → 2 ^ 16 * f / s.cfg.sampleRate ≤ 2 ^ 32 - 2 ^ 16 →
        exec .calibrate s = .next { s with
          freq := BitVec.ofNat 32 f
          inc := BitVec.ofNat 32 (2 ^ 16 * f / s.cfg.sampleRate)
          calState := .done
          mode := .catchup
          phase := 0b000#3 })) ∧
    (s.mode ≠ .init → s.calState = .done → exec .calibrate s = .next s)

/-- R103: what a successful calibration leaves: `F ≥ 1`, `INC ≤ 2^32 - 2^16`, and INC the floor of `2^16 * F / S`, so
that `INC / 2^16 ≤ F / S < (INC + 1) / 2^16`. -/
def Obligations.IncrementIsTight : Prop :=
  ∀ s t : State, s.cfg.legal = true → exec .calibrate s = .next t → s.calState ≠ .done → t.calState = .done →
    1 ≤ t.freq.toNat ∧ t.inc.toNat ≤ 2 ^ 32 - 2 ^ 16 ∧
    t.inc.toNat * s.cfg.sampleRate ≤ 2 ^ 16 * t.freq.toNat ∧
    2 ^ 16 * t.freq.toNat < (t.inc.toNat + 1) * s.cfg.sampleRate

/-- R110: no step enters CALIBRATE again, and once it is left FREQ and INC are fixed. -/
def Obligations.CalibrationHappensOnce : Prop :=
  ∀ s t : State, s.phase ≠ 0b111#3 → step s = .next t → t.phase ≠ 0b111#3 ∧ t.freq = s.freq ∧ t.inc = s.inc

/-! ## The mixer (43_mixer.md) -/

/-- R115: MIX_OUT reads the eight outputs, sums the odd chips to the left and the even chips to the right, halves,
clips, hands the pair to the sink and goes to FETCH_TARGET. -/
def Obligations.MixOutSumsHalvesAndClips : Prop :=
  decode (.phase 0b101#3) = .ok .mixOut ∧
  ∀ (s : State) (o : Fin 8 → Int), s.consRuns = true → (∀ c : Fin 8, o c = (s.env.tgOutput[c.val]).toInt) →
    ∀ l r : Sample,
      l = BitVec.ofInt 16 (max (-32767) (min 32767 ((o 1 + o 3 + o 5 + o 7) / 2))) →
      r = BitVec.ofInt 16 (max (-32767) (min 32767 ((o 0 + o 2 + o 4 + o 6) / 2))) →
      exec .mixOut s = .next { s with
        left := l
        right := r
        sink := (l, r) :: s.sink
        tgCalls := [.output 7, .output 6, .output 5, .output 4, .output 3, .output 2, .output 1, .output 0] ++ s.tgCalls
        phase := 0b000#3 }

/-- R119: whatever the eight samples, both outputs are within [-32767, 32767] and equal the unclamped sum-and-shift
when that lies in range; the extremes of the rule. -/
def Obligations.MixerClipsHard : Prop :=
  ∀ s : State, s.consRuns = true → ∃ t, exec .mixOut s = .next t ∧
    (-32767 ≤ t.left.toInt ∧ t.left.toInt ≤ 32767) ∧ (-32767 ≤ t.right.toInt ∧ t.right.toInt ≤ 32767) ∧
    (-32767 ≤ asr (sumLeft s) 1 → asr (sumLeft s) 1 ≤ 32767 → t.left.toInt = asr (sumLeft s) 1) ∧
    (-32767 ≤ asr (sumRight s) 1 → asr (sumRight s) 1 ≤ 32767 → t.right.toInt = asr (sumRight s) 1) ∧
    ((∀ c : Fin 8, (s.env.tgOutput[c.val]).toInt = 32767) → t.left.toInt = 32767 ∧ t.right.toInt = 32767) ∧
    ((∀ c : Fin 8, (s.env.tgOutput[c.val]).toInt = -32768) → t.left.toInt = -32767 ∧ t.right.toInt = -32767)

/-- R120: LEFT depends on the odd chips alone and RIGHT on the even chips alone. -/
def Obligations.ChannelsAreIndependent : Prop :=
  ∀ s s' t t' : State, s.consRuns = true → s'.consRuns = true →
    exec .mixOut s = .next t → exec .mixOut s' = .next t' →
    ((∀ c : Fin 8, c.val % 2 = 1 → s.env.tgOutput[c.val] = s'.env.tgOutput[c.val]) → t.left = t'.left) ∧
    ((∀ c : Fin 8, c.val % 2 = 0 → s.env.tgOutput[c.val] = s'.env.tgOutput[c.val]) → t.right = t'.right)

/-! ## The sequencer (44_sequencer.md) -/

/-- R126: FETCH_TARGET, its cases in their order. -/
def Obligations.FetchTargetInOrder : Prop :=
  decode (.phase 0b000#3) = .ok .fetchTarget ∧
  ∀ s : State, s.consRuns = true →
    (s.env.shutdownReq = true → exec .fetchTarget s = .next { s with armed := false, mode := .stopped }) ∧
    (s.env.shutdownReq = false → s.cfg.resetThreshold < s.rc.toNat ∧ s.released = true →
      exec .fetchTarget s = .next { s with mode := .resetting, phase := 0b110#3 }) ∧
    (s.env.shutdownReq = false → ¬ (s.cfg.resetThreshold < s.rc.toNat ∧ s.released = true) →
      (s.ce.toNat < s.hcc.toNat → exec .fetchTarget s = .next { s with target := s.hcc, phase := 0b001#3 }) ∧
      (s.hcc.toNat ≤ s.ce.toNat → exec .fetchTarget s = .next { s with
        target := s.hcc
        mode := if s.mode = .catchup then .playing else s.mode
        phase := 0b101#3 }))

/-- R127: TG_ADVANCE advances all eight instances by STEP_CYCLES, `c` ascending, and CE with them. -/
def Obligations.TgAdvanceMovesAllEight : Prop :=
  decode (.phase 0b010#3) = .ok .tgAdvance ∧
  ∀ s : State, s.consRuns = true →
    exec .tgAdvance s = .next { s with
      ce := s.ce + BitVec.ofNat 64 s.cfg.stepCycles
      tgCalls := [.advance 7 s.cfg.stepCycles, .advance 6 s.cfg.stepCycles, .advance 5 s.cfg.stepCycles,
                  .advance 4 s.cfg.stepCycles, .advance 3 s.cfg.stepCycles, .advance 2 s.cfg.stepCycles,
                  .advance 1 s.cfg.stepCycles, .advance 0 s.cfg.stepCycles] ++ s.tgCalls
      phase := 0b011#3 }

/-- R128: CACHE_REFRESH copies chip 0's 32 answers, `r` ascending, and changes nothing else. -/
def Obligations.CacheRefreshCopiesChipZero : Prop :=
  decode (.phase 0b011#3) = .ok .cacheRefresh ∧
  ∀ s : State, s.consRuns = true →
    ∃ t, exec .cacheRefresh s = .next t ∧
      (∀ r : RegNum, cacheAt t r = s.env.tgRead[r.toNat]'r.isLt) ∧
      (∃ calls : List TGCall, t.tgCalls = calls.reverse ++ s.tgCalls ∧ calls.length = 32 ∧
        ∀ k : Nat, k < 32 → calls[k]? = some (.read 0 (BitVec.ofNat 5 k))) ∧
      t = { s with cache := t.cache, tgCalls := t.tgCalls, phase := 0b100#3 }

/-- R129: DRAIN_APPLY applies the oldest event when it is due at CE, writing that one register of that one chip, and
goes on to ACC_STEP or MIX_OUT. What the model's own `readPort` (entry 14) holds after it is not said here. -/
def Obligations.DrainApplyAppliesOneDueEvent : Prop :=
  decode (.phase 0b100#3) = .ok .drainApply ∧
  ∀ s : State, s.consRuns = true →
    ((s.rd = s.wr ∨ ∃ w, slotRead s.slots (slotOf s.cfg s.rd) = some w ∧ s.ce.toNat < (w.extractLsb' 16 64).toNat) →
      ∃ t, exec .drainApply s = .next t ∧
        t = { s with
          readPort := t.readPort
          phase := if s.ce.toNat < s.target.toNat then 0b001#3 else 0b101#3
          mode := if s.target.toNat ≤ s.ce.toNat ∧ s.mode = .catchup then .playing else s.mode }) ∧
    (∀ w : EventWord, s.rd ≠ s.wr → slotRead s.slots (slotOf s.cfg s.rd) = some w →
      (w.extractLsb' 16 64).toNat ≤ s.ce.toNat →
      ∃ t, exec .drainApply s = .next t ∧
        (∀ (c : ChipIndex) (r : RegNum), tgRegAt t c r
          = if c = w.extractLsb' 5 3 ∧ r = w.extractLsb' 0 5 then w.extractLsb' 8 8 else tgRegAt s c r) ∧
        t = { s with
          rd := (s.rd + 1) % 2 ^ (s.cfg.log2cap + 1)
          readPort := t.readPort
          tgreg := t.tgreg
          tgCalls := .write (w.extractLsb' 5 3) (w.extractLsb' 0 5) (w.extractLsb' 8 8) :: s.tgCalls
          phase := if s.ce.toNat < s.target.toNat then 0b001#3 else 0b101#3
          mode := if s.target.toNat ≤ s.ce.toNat ∧ s.mode = .catchup then .playing else s.mode })

/-- R134: RESET_CLEAR writes 0 to all 256 registers, clears RC, RELEASED and CARRY, and resumes Playing; everything
else stays, the FIFO and the cache among it. -/
def Obligations.ResetClearZeroesTheRegisters : Prop :=
  decode (.phase 0b110#3) = .ok .resetClear ∧
  ∀ s : State, s.consRuns = true →
    ∃ t, exec .resetClear s = .next t ∧
      (∀ (c : ChipIndex) (r : RegNum), tgRegAt t c r = 0x00) ∧
      (∃ calls : List TGCall, t.tgCalls = calls.reverse ++ s.tgCalls ∧ calls.length = 256 ∧
        ∀ k : Nat, k < 256 → calls[k]? = some (.write (BitVec.ofNat 3 (k / 32)) (BitVec.ofNat 5 (k % 32)) 0x00)) ∧
      t = { s with
        tgreg := t.tgreg, tgCalls := t.tgCalls, rc := 0, released := false, carry := 0
        mode := .playing, phase := 0b000#3 }

/-- R133, R134, R140: when a reset is due at FETCH_TARGET and no shutdown is asked for, two consumer turns later every
register of every chip is 0 and the condition is gone. -/
def Obligations.DueResetClearsInTwoTurns : Prop :=
  ∀ (e1 e2 : EnvInputs) (rest : List Turn) (s : State), Inv s → (s.mode = .catchup ∨ s.mode = .playing) →
    s.phase = 0b000#3 → s.resetDue = true → e1.shutdownReq = false →
    s.agenda = [.agent (.consumer e1), .agent (.consumer e2)] ++ rest →
    ∃ t, Host.Core.run Sys2Proof.core 2 s = .next t ∧
      (∀ (c : ChipIndex) (r : RegNum), tgRegAt t c r = 0x00) ∧
      t.resetDue = false ∧ t.mode = .playing ∧ t.phase = 0b000#3 ∧ queueOf t = queueOf s ∧
      t.hcc = s.hcc ∧ t.ce = s.ce

/-- R151, R30: CONS never writes HCC, PRESSED, WR, SLOT, D_OUT or D_OE; RC and RELEASED only in RESET_CLEAR, the cache
only in CACHE_REFRESH, CE only in TG_ADVANCE, TARGET only in FETCH_TARGET, ARMED only in CALIBRATE and FETCH_TARGET; and
each other register only in the phases that have it. -/
def Obligations.PhasesWriteOnlyConsumerState : Prop :=
  ∀ (i : Instr) (s t : State), isPhase i = true → exec i s = .next t →
    t.cfg = s.cfg ∧ t.hcc = s.hcc ∧ t.pressed = s.pressed ∧ t.wr = s.wr ∧ t.slots = s.slots ∧ t.dOE = s.dOE ∧
    t.dOut = s.dOut ∧ t.env = s.env ∧ t.agenda = s.agenda ∧ t.turnNo = s.turnNo ∧
    (i ≠ .resetClear → t.rc = s.rc ∧ t.released = s.released) ∧
    (i ≠ .resetClear → i ≠ .accStep → t.carry = s.carry) ∧
    (i ≠ .accStep → t.nout = s.nout) ∧
    (i ≠ .cacheRefresh → t.cache = s.cache) ∧
    (i ≠ .tgAdvance → t.ce = s.ce) ∧
    (i ≠ .fetchTarget → t.target = s.target) ∧
    (i ≠ .drainApply → t.rd = s.rd ∧ t.readPort = s.readPort) ∧
    (i ≠ .drainApply → i ≠ .resetClear → t.tgreg = s.tgreg) ∧
    (i ≠ .mixOut → t.left = s.left ∧ t.right = s.right ∧ t.sink = s.sink) ∧
    (i ≠ .calibrate → t.freq = s.freq ∧ t.inc = s.inc ∧ t.calState = s.calState ∧ t.tstart = s.tstart ∧
      t.t0 = s.t0 ∧ t.c0 = s.c0) ∧
    (i ≠ .calibrate → i ≠ .fetchTarget → t.armed = s.armed) ∧
    (i ≠ .calibrate → i ≠ .fetchTarget → i ≠ .drainApply → i ≠ .resetClear → t.mode = s.mode) ∧
    (i = .fetchTarget ∨ i = .accStep ∨ i = .calibrate → t.tgCalls = s.tgCalls)

/-- R124: the successor table of the phases, for the phase that PHASE names. -/
def Obligations.PhasesFollowTheTable : Prop :=
  ∀ s t : State, Inv s → s.consRuns = true → exec (decodePhase s.phase) s = .next t →
    (s.phase = 0b000#3 →
      (s.env.shutdownReq = true ∧ t.mode = .stopped) ∨
      (s.env.shutdownReq = false ∧ s.resetDue = true ∧ t.phase = 0b110#3) ∨
      (s.env.shutdownReq = false ∧ s.resetDue = false ∧
        t.phase = if t.ce.toNat < t.target.toNat then 0b001#3 else 0b101#3)) ∧
    (s.phase = 0b001#3 → t.phase = 0b010#3) ∧
    (s.phase = 0b010#3 → t.phase = 0b011#3) ∧
    (s.phase = 0b011#3 → t.phase = 0b100#3) ∧
    (s.phase = 0b100#3 → t.phase = if t.ce.toNat < t.target.toNat then 0b001#3 else 0b101#3) ∧
    (s.phase = 0b101#3 → t.phase = 0b000#3) ∧
    (s.phase = 0b110#3 → t.phase = 0b000#3) ∧
    (s.phase = 0b111#3 →
      (t.mode = .calibrating ∧ t.phase = 0b111#3) ∨ (t.mode = .catchup ∧ t.phase = 0b000#3) ∨ t.mode = .halted)

/-- R125: MODE changes only as the table of transitions says. -/
def Obligations.ModesFollowTheTable : Prop :=
  ∀ s t : State, Inv s → step s = .next t → t.mode ≠ s.mode →
    (s.mode = .init ∧ t.mode = .calibrating ∧ s.phase = 0b111#3) ∨
    (s.mode = .calibrating ∧ t.mode = .catchup ∧ s.phase = 0b111#3) ∨
    (s.mode = .calibrating ∧ t.mode = .halted ∧ s.phase = 0b111#3) ∨
    (s.mode = .catchup ∧ t.mode = .playing ∧ (s.phase = 0b100#3 ∨ s.phase = 0b000#3) ∧ t.target.toNat ≤ t.ce.toNat) ∨
    ((s.mode = .catchup ∨ s.mode = .playing) ∧ t.mode = .resetting ∧ s.phase = 0b000#3 ∧ s.resetDue = true) ∨
    (s.mode = .resetting ∧ t.mode = .playing ∧ s.phase = 0b110#3) ∨
    ((s.mode = .catchup ∨ s.mode = .playing) ∧ t.mode = .stopped ∧ s.phase = 0b000#3 ∧ t.env.shutdownReq = true)

/-- R123: in HALTED and STOPPED there is no consumer step, whatever the phase, and nothing changes. -/
def Obligations.NoPhaseWhileHaltedOrStopped : Prop :=
  ∀ (i : Instr) (s : State), isPhase i = true → (s.mode = .halted ∨ s.mode = .stopped) → exec i s = .next s

/-- R123, R145, R156: HALTED and STOPPED are final: no bus cycle and no consumer turn changes a register again. That the
first bus cycle after them ends the drive of a READ before them, where R30 has no producer register change, is the model's
reading of R29, R86 and D6 (entry 11), and that a consumer turn does not is entry 13's. -/
def Obligations.HaltedAndStoppedAreFinal : Prop :=
  ∀ s t : State, Inv s → (s.mode = .halted ∨ s.mode = .stopped) → (∃ a, (nextTurn s).1 = .agent a) →
    step s = .next t →
    t = { s with env := t.env, agenda := t.agenda, turnNo := t.turnNo, dOE := t.dOE, dOut := t.dOut } ∧
    ((∃ bs, (nextTurn s).1 = .agent (.producer bs)) → t.dOE = false ∧ t.dOut = none ∧ t.env = s.env) ∧
    ((∃ e, (nextTurn s).1 = .agent (.consumer e)) → t.dOE = s.dOE ∧ t.dOut = s.dOut)

/-- R22, R64: the cache changes only when CONS performs CACHE_REFRESH. -/
def Obligations.OnlyCacheRefreshWritesTheCache : Prop :=
  ∀ s t : State, step s = .next t → t.cache ≠ s.cache →
    s.phase = 0b011#3 ∧ s.consRuns = true ∧ ∃ e, (nextTurn s).1 = .agent (.consumer e)

/-- R131: no operation reads NOUT: with another value in NOUT it does all the same, and only ACC_STEP gives NOUT a value
of its own. -/
def Obligations.NoOperationReadsNout : Prop :=
  ∀ (i : Instr) (n : BitVec 16) (s t : State), exec i s = .next t →
    exec i { s with nout := n }
      = .next { t with nout := if i = .accStep ∧ s.consRuns = true then t.nout else n }

/-- R57(d), R59: while HCC does not wrap, TARGET is never past HCC, and neither goes back: so after initialisation, and
every step keeps it so. -/
def Obligations.TargetFollowsTheCount : Prop :=
  State.reset.target.toNat ≤ State.reset.hcc.toNat ∧
  ∀ s t : State, s.target.toNat ≤ s.hcc.toNat → s.hcc.toNat < 2 ^ 64 - 1 → step s = .next t →
    t.target.toNat ≤ t.hcc.toNat ∧ s.target.toNat ≤ t.target.toNat ∧ s.hcc.toNat ≤ t.hcc.toNat

/-! ## The machine as a whole -/

/-- R9, R56, R73, R79, R123: a step takes the next turn and runs the operation its word decodes to, at the state with
that turn taken (and a consumer turn's inputs presented). An idle FIFO port changes nothing else. The model's own in this:
the turns lined up in `agenda`, and, with nothing lined up, the turn that `Config.environment s.turnNo` chooses (entry 3);
the bare turns at the FIFO's ports (entry 18); and that a wall clock reading while calibrating must not lie below the last
one, for U24 refuses it (entry 8, WallClockNeverRunsBack). -/
def Obligations.StepRunsTheDecodedOperation : Prop :=
  ∀ (s : State) (rest : List Turn), s.cfg.legal = true →
    (∀ bs i, s.agenda = .agent (.producer bs) :: rest → decode (.bus bs) = .ok i →
      step s = exec i { s with agenda := rest }) ∧
    (∀ e i, s.agenda = .agent (.consumer e) :: rest → decode (.phase s.phase) = .ok i →
      (s.mode = .calibrating → s.env.wallClock.toNat ≤ e.wallClock.toNat) →
      step s = exec i { s with agenda := rest, env := e }) ∧
    (∀ we ev i, s.agenda = .fifoWrite we ev :: rest → decode (.fifoWrite we ev) = .ok i →
      step s = exec i { s with agenda := rest }) ∧
    (∀ dq i, s.agenda = .fifoRead dq :: rest → decode (.fifoRead dq) = .ok i →
      step s = exec i { s with agenda := rest }) ∧
    (s.agenda = [] →
      step s = step { s with agenda := [.agent (Config.environment s.turnNo)], turnNo := s.turnNo + 1 }) ∧
    (∀ ev, s.agenda = .fifoWrite false ev :: rest → step s = .next { s with agenda := rest }) ∧
    (∀ dq : RequestWord, s.agenda = .fifoRead dq :: rest → dq.getLsbD 64 = false →
      step s = .next { s with agenda := rest })

/-- The model's choice (entry 5; U16 "refuse at construction"): a configuration outside the ranges of R11 is refused,
whatever the state. -/
def Obligations.IllegalConfigurationIsRefused : Prop :=
  ∀ s : State, s.cfg.legal = false → step s = .refused .illegalConfiguration

/-- R9, R41, U24: the wall clock's readings are free but monotonic. While MODE = CALIBRATING, when each turn of CONS reads
the clock (R109), a reading below the one before is refused, so no step lowers it, and every step keeps the readings that
the calibrator holds at or before the last one: no elapsed time is negative. That the turn is refused at the step, and
only while MODE = CALIBRATING, is entry 8's. -/
def Obligations.WallClockNeverRunsBack : Prop :=
  (∀ (e : EnvInputs) (s : State), s.cfg.legal = true → (nextTurn s).1 = .agent (.consumer e) → s.mode = .calibrating →
    e.wallClock.toNat < s.env.wallClock.toNat → step s = .refused .wallClockRanBack) ∧
  (∀ s t : State, s.mode = .calibrating → step s = .next t → s.env.wallClock.toNat ≤ t.env.wallClock.toNat) ∧
  (∀ s t : State, clockOk s → step s = .next t → clockOk t ∧
    (t.mode = .calibrating → 0 ≤ elapsedUs t.env.wallClock t.tstart) ∧
    (t.mode = .calibrating → t.calState = .window → 0 ≤ elapsedUs t.env.wallClock t.t0))

/-- R11: the parameters are constant for the run. -/
def Obligations.ParametersAreConstant : Prop :=
  ∀ s t : State, step s = .next t → t.cfg = s.cfg

/-- R157: the state after initialisation, wherever the table gives a value. -/
def Obligations.ResetStateOfTheTable : Prop :=
  State.reset.hcc = 0 ∧ State.reset.rc = 0 ∧ State.reset.pressed = false ∧ State.reset.released = false ∧
  State.reset.wr = 0 ∧ State.reset.rd = 0 ∧ State.reset.isEmpty = true ∧ State.reset.isFull = false ∧
  (∀ i, slotRead State.reset.slots i = none) ∧ (∀ r : RegNum, cacheAt State.reset r = 0x00) ∧
  State.reset.dOE = false ∧ State.reset.dOut = none ∧ State.reset.armed = false ∧ State.reset.ce = 0 ∧
  State.reset.carry = 0 ∧ State.reset.target = 0 ∧ State.reset.phase = 0b111#3 ∧ State.reset.mode = .init ∧
  State.reset.nout = 0 ∧ State.reset.left = 0 ∧ State.reset.right = 0 ∧ State.reset.calState = .live ∧
  (∀ (c : ChipIndex) (r : RegNum), tgRegAt State.reset c r = 0x00)

/-- R157: the invariant holds right after initialisation, with every legal configuration, every value of the five
registers that R157 leaves unspecified (so not only entry 1's zeros) and every value of the inputs, which R41 gives no
reset value (entry 10). That State.reset itself meets it rests on the model's choice of the parameters R11 leaves open,
which makes them legal (entry 4). -/
def Obligations.ResetMeetsTheInvariant : Prop :=
  (∀ (cfg : Params) (freq inc : Word32) (tstart t0 c0 : Word64) (env : EnvInputs), cfg.legal = true →
    Inv { State.resetWith cfg with freq := freq, inc := inc, tstart := tstart, t0 := t0, c0 := c0, env := env }) ∧
  Inv State.reset

/-- R92, R105, R125, R138, R145, R156: every step keeps the invariant: the FIFO's indices, slots and occupancy agree,
both memories stay canonical, CARRY stays a fraction, the outputs stay clipped, all eight instances stay in lockstep
with CE, INC stays within R103's bound once it is written, the clock's kept readings stay in order, and MODE, PHASE, ARMED
and CALSTATE stay in agreement. -/
def Obligations.StepKeepsTheInvariant : Prop :=
  ∀ s t : State, Inv s → step s = .next t → Inv t

/-- R81, R71, R132: from a state of the invariant no step faults and none is refused, whatever the environment does, as
long as its wall clock does not run back while it is read (R9, R161, U24; entry 8). -/
def Obligations.NoStepStops : Prop :=
  ∀ s : State, Inv s →
    (∀ e, (nextTurn s).1 = .agent (.consumer e) → s.mode = .calibrating →
      s.env.wallClock.toNat ≤ e.wallClock.toNat) →
    SafeStep s
end

