-- ==== Sys2Proof/Laws/Memory.lean ====
section
/-! SUPPORT. The laws of the two cell memories: a read after a write, and the canonical form, which every memory
operation keeps. -/

namespace Sys2Proof.Machine

open Sys2Proof

section Cells

variable {α : Type}

@[simp] theorem cellFind_nil (a : Nat) : cellFind ([] : List (Nat × α)) a = none := rfl

theorem cellFind_cons (b : Nat) (w : α) (l : List (Nat × α)) (a : Nat) :
    cellFind ((b, w) :: l) a = if a = b then some w else cellFind l a := rfl

theorem cellFind_insert (l : List (Nat × α)) (a : Nat) (v : α) (x : Nat) :
    cellFind (cellInsert l a v) x = if x = a then some v else cellFind l x := by
  induction l with
  | nil => simp [cellInsert, cellFind_cons]
  | cons c rest ih =>
    obtain ⟨b, w⟩ := c
    unfold cellInsert
    split
    · simp [cellFind_cons]
    · split
      · subst_vars
        by_cases h : x = b <;> simp [cellFind_cons, h]
      · rename_i h1 h2
        by_cases h : x = b
        · have : x ≠ a := fun hx => h2 (hx.symm.trans h)
          simp [cellFind_cons, h, h.symm ▸ this]
        · simp [cellFind_cons, h, ih]

theorem cellFind_erase (l : List (Nat × α)) (a x : Nat) :
    cellFind (cellErase l a) x = if x = a then none else cellFind l x := by
  induction l with
  | nil => simp [cellErase]
  | cons c rest ih =>
    obtain ⟨b, w⟩ := c
    have ih' : cellFind (List.filter (fun c => decide (c.1 ≠ a)) rest) x = if x = a then none else cellFind rest x := ih
    by_cases hb : b = a
    · subst hb
      by_cases hx : x = b <;> simp_all [cellErase, cellFind_cons]
    · by_cases hx : x = b
      · subst hx
        simp [cellErase, cellFind_cons, hb]
      · simp_all [cellErase, cellFind_cons]

theorem mem_cellInsert {l : List (Nat × α)} {a : Nat} {v : α} {c : Nat × α} (h : c ∈ cellInsert l a v) :
    c = (a, v) ∨ c ∈ l := by
  induction l with
  | nil => simp [cellInsert] at h; exact .inl h
  | cons d rest ih =>
    obtain ⟨b, w⟩ := d
    unfold cellInsert at h
    split at h
    · simpa using h
    · split at h
      · rcases List.mem_cons.mp h with h | h
        · exact .inl h
        · exact .inr (List.mem_cons_of_mem _ h)
      · rcases List.mem_cons.mp h with h | h
        · exact .inr (h ▸ List.mem_cons_self ..)
        · exact (ih h).imp_right (List.mem_cons_of_mem _)

theorem cellInsert_pairwise {l : List (Nat × α)} (a : Nat) (v : α) (h : l.Pairwise fun x y => x.1 < y.1) :
    (cellInsert l a v).Pairwise fun x y => x.1 < y.1 := by
  induction l with
  | nil => simp [cellInsert]
  | cons d rest ih =>
    obtain ⟨b, w⟩ := d
    obtain ⟨hb, hrest⟩ := List.pairwise_cons.mp h
    unfold cellInsert
    split
    · rename_i hab
      refine List.pairwise_cons.mpr ⟨fun c hc => ?_, h⟩
      rcases List.mem_cons.mp hc with rfl | hc
      · exact hab
      · exact Nat.lt_trans hab (hb c hc)
    · split
      · rename_i _ hab
        subst hab
        exact List.pairwise_cons.mpr ⟨hb, hrest⟩
      · rename_i h1 h2
        refine List.pairwise_cons.mpr ⟨fun c hc => ?_, ih hrest⟩
        rcases mem_cellInsert hc with rfl | hc
        · show b < a
          omega
        · exact hb c hc

/-- Writing a cell keeps the rising order and the bound. -/
theorem cellInsert_below {n : Nat} {l : List (Nat × α)} {a : Nat} (v : α) (ha : a < n) (h : cellsBelow n l) :
    cellsBelow n (cellInsert l a v) := by
  refine ⟨cellInsert_pairwise a v h.1, fun c hc => ?_⟩
  rcases mem_cellInsert hc with rfl | hc
  · exact ha
  · exact h.2 c hc

/-- Removing a cell keeps the rising order and the bound. -/
theorem cellErase_below {n : Nat} {l : List (Nat × α)} (a : Nat) (h : cellsBelow n l) : cellsBelow n (cellErase l a) :=
  ⟨h.1.filter _, fun c hc => h.2 c (List.mem_of_mem_filter hc)⟩

end Cells

/-- A read after a write of a byte memory (R16, R136). -/
@[simp] theorem memRead_memWrite (m : Memory) (a : Nat) (v : Byte) (x : Nat) :
    memRead (memWrite m a v) x = if x = a then v else memRead m x := by
  unfold memRead memWrite
  split
  · rename_i h
    rw [cellFind_erase]
    by_cases hx : x = a <;> simp [hx, h]
  · rw [cellFind_insert]
    by_cases hx : x = a <;> simp [hx]

/-- A byte write keeps the canonical form. -/
theorem memWrite_wf {n : Nat} {m : Memory} {a : Nat} (v : Byte) (ha : a < n) (h : Memory.wf n m) :
    Memory.wf n (memWrite m a v) := by
  unfold memWrite
  split
  · exact ⟨cellErase_below a h.1, fun c hc => h.2 c (List.mem_of_mem_filter hc)⟩
  · rename_i hv
    refine ⟨cellInsert_below v ha h.1, fun c hc => ?_⟩
    rcases mem_cellInsert hc with rfl | hc
    · exact hv
    · exact h.2 c hc

/-- A read after a write of the slot array (R94, R95). -/
@[simp] theorem slotRead_slotWrite (m : SlotArray) (i : Nat) (w : EventWord) (j : Nat) :
    slotRead (slotWrite m i w) j = if j = i then some w else slotRead m j := cellFind_insert m i w j

/-- A slot write keeps the canonical form. -/
theorem slotWrite_wf {p : Params} {m : SlotArray} {i : Nat} (w : EventWord) (hi : i < Params.capacity p)
    (h : SlotArray.wf p m) : SlotArray.wf p (slotWrite m i w) := cellInsert_below w hi h

/-- The slot that an index addresses lies in the array (R91). -/
theorem slotOf_lt (p : Params) (i : Nat) : slotOf p i < Params.capacity p := Nat.mod_lt _ (Nat.two_pow_pos _)

/-- A tone generator address lies below 256 (R48). -/
theorem tgAddr_lt (c : ChipIndex) (r : RegNum) : tgAddr c r < 256 := by
  have := c.isLt
  have := r.isLt
  unfold tgAddr
  omega

/-- Two register pairs at one address are one pair (R48: "every pair has exactly one raw address"). -/
theorem tgAddr_inj {c c' : ChipIndex} {r r' : RegNum} : tgAddr c r = tgAddr c' r' ↔ c = c' ∧ r = r' := by
  have := r.isLt
  have := r'.isLt
  unfold tgAddr
  constructor
  · intro h
    exact ⟨BitVec.eq_of_toNat_eq (by omega), BitVec.eq_of_toNat_eq (by omega)⟩
  · rintro ⟨rfl, rfl⟩
    rfl

/-- Zeroing registers, one write after another: the listed ones read 0, the others as before (R134). -/
theorem memRead_clear (pairs : List (ChipIndex × RegNum)) (m : Memory) (x : Nat) :
    memRead (pairs.foldl (fun m p => memWrite m (tgAddr p.1 p.2) 0x00) m) x
      = if ∃ p ∈ pairs, tgAddr p.1 p.2 = x then 0x00 else memRead m x := by
  induction pairs generalizing m with
  | nil => simp
  | cons p rest ih =>
    rw [List.foldl_cons, ih, memRead_memWrite]
    by_cases h : ∃ q ∈ rest, tgAddr q.1 q.2 = x
    · have h' : ∃ q ∈ p :: rest, tgAddr q.1 q.2 = x := by
        obtain ⟨q, hq, hx⟩ := h
        exact ⟨q, List.mem_cons_of_mem _ hq, hx⟩
      rw [if_pos h, if_pos h']
    · by_cases hx : x = tgAddr p.1 p.2
      · have h' : ∃ q ∈ p :: rest, tgAddr q.1 q.2 = x := ⟨p, List.mem_cons_self .., hx.symm⟩
        rw [if_neg h, if_pos hx, if_pos h']
      · have h' : ¬ ∃ q ∈ p :: rest, tgAddr q.1 q.2 = x := by
          rintro ⟨q, hq, hq'⟩
          rcases List.mem_cons.mp hq with rfl | hq
          · exact hx hq'.symm
          · exact h ⟨q, hq, hq'⟩
        rw [if_neg h, if_neg hx, if_neg h']

/-- Zeroing registers keeps the canonical form. -/
theorem clear_wf (pairs : List (ChipIndex × RegNum)) {m : Memory} (h : Memory.wf 256 m) :
    Memory.wf 256 (pairs.foldl (fun m p => memWrite m (tgAddr p.1 p.2) 0x00) m) := by
  induction pairs generalizing m with
  | nil => exact h
  | cons p rest ih => exact ih (memWrite_wf 0x00 (tgAddr_lt p.1 p.2) h)

/-- Both memories are in their canonical form at reset. -/
theorem reset_memories_wf :
    Memory.wf 256 State.reset.tgreg ∧ SlotArray.wf State.reset.cfg State.reset.slots := by
  simp [State.reset, State.resetWith, Memory.wf, SlotArray.wf, cellsBelow]

/-- Every pair is in the list that RESET_CLEAR goes through (R134). -/
theorem mem_allChipRegs (c : ChipIndex) (r : RegNum) : (c, r) ∈ allChipRegs := by
  revert c r
  decide

end Sys2Proof.Machine
end

