-- ==== Sys2Proof/Laws/State.lean ====
section
/-! SUPPORT. What each update of the state does to each field: one lemma per field per update, so that no proof
unfolds a record update. -/

namespace Sys2Proof.Machine

open Sys2Proof

/-! ## `countCycle` (R88) -/

@[simp] theorem countCycle_cfg (s : State) : (countCycle s).cfg = s.cfg := rfl
@[simp] theorem countCycle_hcc (s : State) : (countCycle s).hcc = s.hcc + 1 := rfl
@[simp] theorem countCycle_rc (s : State) : (countCycle s).rc = s.rc := rfl
@[simp] theorem countCycle_pressed (s : State) : (countCycle s).pressed = s.pressed := rfl
@[simp] theorem countCycle_released (s : State) : (countCycle s).released = s.released := rfl
@[simp] theorem countCycle_wr (s : State) : (countCycle s).wr = s.wr := rfl
@[simp] theorem countCycle_dOut (s : State) : (countCycle s).dOut = s.dOut := rfl
@[simp] theorem countCycle_dOE (s : State) : (countCycle s).dOE = s.dOE := rfl
@[simp] theorem countCycle_armed (s : State) : (countCycle s).armed = s.armed := rfl
@[simp] theorem countCycle_slots (s : State) : (countCycle s).slots = s.slots := rfl
@[simp] theorem countCycle_cache (s : State) : (countCycle s).cache = s.cache := rfl
@[simp] theorem countCycle_rd (s : State) : (countCycle s).rd = s.rd := rfl
@[simp] theorem countCycle_ce (s : State) : (countCycle s).ce = s.ce := rfl
@[simp] theorem countCycle_carry (s : State) : (countCycle s).carry = s.carry := rfl
@[simp] theorem countCycle_freq (s : State) : (countCycle s).freq = s.freq := rfl
@[simp] theorem countCycle_inc (s : State) : (countCycle s).inc = s.inc := rfl
@[simp] theorem countCycle_target (s : State) : (countCycle s).target = s.target := rfl
@[simp] theorem countCycle_phase (s : State) : (countCycle s).phase = s.phase := rfl
@[simp] theorem countCycle_mode (s : State) : (countCycle s).mode = s.mode := rfl
@[simp] theorem countCycle_nout (s : State) : (countCycle s).nout = s.nout := rfl
@[simp] theorem countCycle_left (s : State) : (countCycle s).left = s.left := rfl
@[simp] theorem countCycle_right (s : State) : (countCycle s).right = s.right := rfl
@[simp] theorem countCycle_calState (s : State) : (countCycle s).calState = s.calState := rfl
@[simp] theorem countCycle_tstart (s : State) : (countCycle s).tstart = s.tstart := rfl
@[simp] theorem countCycle_t0 (s : State) : (countCycle s).t0 = s.t0 := rfl
@[simp] theorem countCycle_c0 (s : State) : (countCycle s).c0 = s.c0 := rfl
@[simp] theorem countCycle_tgreg (s : State) : (countCycle s).tgreg = s.tgreg := rfl
@[simp] theorem countCycle_env (s : State) : (countCycle s).env = s.env := rfl
@[simp] theorem countCycle_tgCalls (s : State) : (countCycle s).tgCalls = s.tgCalls := rfl
@[simp] theorem countCycle_sink (s : State) : (countCycle s).sink = s.sink := rfl
@[simp] theorem countCycle_readPort (s : State) : (countCycle s).readPort = s.readPort := rfl
@[simp] theorem countCycle_agenda (s : State) : (countCycle s).agenda = s.agenda := rfl
@[simp] theorem countCycle_turnNo (s : State) : (countCycle s).turnNo = s.turnNo := rfl

/-! ## `releaseData` (R86) -/

@[simp] theorem releaseData_cfg (s : State) : (releaseData s).cfg = s.cfg := rfl
@[simp] theorem releaseData_hcc (s : State) : (releaseData s).hcc = s.hcc := rfl
@[simp] theorem releaseData_rc (s : State) : (releaseData s).rc = s.rc := rfl
@[simp] theorem releaseData_pressed (s : State) : (releaseData s).pressed = s.pressed := rfl
@[simp] theorem releaseData_released (s : State) : (releaseData s).released = s.released := rfl
@[simp] theorem releaseData_wr (s : State) : (releaseData s).wr = s.wr := rfl
@[simp] theorem releaseData_dOut (s : State) : (releaseData s).dOut = none := rfl
@[simp] theorem releaseData_dOE (s : State) : (releaseData s).dOE = false := rfl
@[simp] theorem releaseData_armed (s : State) : (releaseData s).armed = s.armed := rfl
@[simp] theorem releaseData_slots (s : State) : (releaseData s).slots = s.slots := rfl
@[simp] theorem releaseData_cache (s : State) : (releaseData s).cache = s.cache := rfl
@[simp] theorem releaseData_rd (s : State) : (releaseData s).rd = s.rd := rfl
@[simp] theorem releaseData_ce (s : State) : (releaseData s).ce = s.ce := rfl
@[simp] theorem releaseData_carry (s : State) : (releaseData s).carry = s.carry := rfl
@[simp] theorem releaseData_freq (s : State) : (releaseData s).freq = s.freq := rfl
@[simp] theorem releaseData_inc (s : State) : (releaseData s).inc = s.inc := rfl
@[simp] theorem releaseData_target (s : State) : (releaseData s).target = s.target := rfl
@[simp] theorem releaseData_phase (s : State) : (releaseData s).phase = s.phase := rfl
@[simp] theorem releaseData_mode (s : State) : (releaseData s).mode = s.mode := rfl
@[simp] theorem releaseData_nout (s : State) : (releaseData s).nout = s.nout := rfl
@[simp] theorem releaseData_left (s : State) : (releaseData s).left = s.left := rfl
@[simp] theorem releaseData_right (s : State) : (releaseData s).right = s.right := rfl
@[simp] theorem releaseData_calState (s : State) : (releaseData s).calState = s.calState := rfl
@[simp] theorem releaseData_tstart (s : State) : (releaseData s).tstart = s.tstart := rfl
@[simp] theorem releaseData_t0 (s : State) : (releaseData s).t0 = s.t0 := rfl
@[simp] theorem releaseData_c0 (s : State) : (releaseData s).c0 = s.c0 := rfl
@[simp] theorem releaseData_tgreg (s : State) : (releaseData s).tgreg = s.tgreg := rfl
@[simp] theorem releaseData_env (s : State) : (releaseData s).env = s.env := rfl
@[simp] theorem releaseData_tgCalls (s : State) : (releaseData s).tgCalls = s.tgCalls := rfl
@[simp] theorem releaseData_sink (s : State) : (releaseData s).sink = s.sink := rfl
@[simp] theorem releaseData_readPort (s : State) : (releaseData s).readPort = s.readPort := rfl
@[simp] theorem releaseData_agenda (s : State) : (releaseData s).agenda = s.agenda := rfl
@[simp] theorem releaseData_turnNo (s : State) : (releaseData s).turnNo = s.turnNo := rfl

/-! ## `driveData` (R85) -/

@[simp] theorem driveData_cfg (v : Byte) (s : State) : (driveData v s).cfg = s.cfg := rfl
@[simp] theorem driveData_hcc (v : Byte) (s : State) : (driveData v s).hcc = s.hcc := rfl
@[simp] theorem driveData_rc (v : Byte) (s : State) : (driveData v s).rc = s.rc := rfl
@[simp] theorem driveData_pressed (v : Byte) (s : State) : (driveData v s).pressed = s.pressed := rfl
@[simp] theorem driveData_released (v : Byte) (s : State) : (driveData v s).released = s.released := rfl
@[simp] theorem driveData_wr (v : Byte) (s : State) : (driveData v s).wr = s.wr := rfl
@[simp] theorem driveData_dOut (v : Byte) (s : State) : (driveData v s).dOut = some v := rfl
@[simp] theorem driveData_dOE (v : Byte) (s : State) : (driveData v s).dOE = true := rfl
@[simp] theorem driveData_armed (v : Byte) (s : State) : (driveData v s).armed = s.armed := rfl
@[simp] theorem driveData_slots (v : Byte) (s : State) : (driveData v s).slots = s.slots := rfl
@[simp] theorem driveData_cache (v : Byte) (s : State) : (driveData v s).cache = s.cache := rfl
@[simp] theorem driveData_rd (v : Byte) (s : State) : (driveData v s).rd = s.rd := rfl
@[simp] theorem driveData_ce (v : Byte) (s : State) : (driveData v s).ce = s.ce := rfl
@[simp] theorem driveData_carry (v : Byte) (s : State) : (driveData v s).carry = s.carry := rfl
@[simp] theorem driveData_freq (v : Byte) (s : State) : (driveData v s).freq = s.freq := rfl
@[simp] theorem driveData_inc (v : Byte) (s : State) : (driveData v s).inc = s.inc := rfl
@[simp] theorem driveData_target (v : Byte) (s : State) : (driveData v s).target = s.target := rfl
@[simp] theorem driveData_phase (v : Byte) (s : State) : (driveData v s).phase = s.phase := rfl
@[simp] theorem driveData_mode (v : Byte) (s : State) : (driveData v s).mode = s.mode := rfl
@[simp] theorem driveData_nout (v : Byte) (s : State) : (driveData v s).nout = s.nout := rfl
@[simp] theorem driveData_left (v : Byte) (s : State) : (driveData v s).left = s.left := rfl
@[simp] theorem driveData_right (v : Byte) (s : State) : (driveData v s).right = s.right := rfl
@[simp] theorem driveData_calState (v : Byte) (s : State) : (driveData v s).calState = s.calState := rfl
@[simp] theorem driveData_tstart (v : Byte) (s : State) : (driveData v s).tstart = s.tstart := rfl
@[simp] theorem driveData_t0 (v : Byte) (s : State) : (driveData v s).t0 = s.t0 := rfl
@[simp] theorem driveData_c0 (v : Byte) (s : State) : (driveData v s).c0 = s.c0 := rfl
@[simp] theorem driveData_tgreg (v : Byte) (s : State) : (driveData v s).tgreg = s.tgreg := rfl
@[simp] theorem driveData_env (v : Byte) (s : State) : (driveData v s).env = s.env := rfl
@[simp] theorem driveData_tgCalls (v : Byte) (s : State) : (driveData v s).tgCalls = s.tgCalls := rfl
@[simp] theorem driveData_sink (v : Byte) (s : State) : (driveData v s).sink = s.sink := rfl
@[simp] theorem driveData_readPort (v : Byte) (s : State) : (driveData v s).readPort = s.readPort := rfl
@[simp] theorem driveData_agenda (v : Byte) (s : State) : (driveData v s).agenda = s.agenda := rfl
@[simp] theorem driveData_turnNo (v : Byte) (s : State) : (driveData v s).turnNo = s.turnNo := rfl

/-! ## `debounce` (R82) -/

@[simp] theorem debounce_cfg (rst : Bool) (s : State) : (debounce rst s).cfg = s.cfg := by
  unfold debounce; split <;> [skip; split] <;> rfl

@[simp] theorem debounce_hcc (rst : Bool) (s : State) : (debounce rst s).hcc = s.hcc := by
  unfold debounce; split <;> [skip; split] <;> rfl

@[simp] theorem debounce_rc (rst : Bool) (s : State) : (debounce rst s).rc = if rst then s.rc + 1 else s.rc := by
  cases rst <;> cases h : s.pressed <;> simp [debounce, h]

@[simp] theorem debounce_pressed (rst : Bool) (s : State) : (debounce rst s).pressed = rst := by
  cases rst <;> cases h : s.pressed <;> simp [debounce, h]

@[simp] theorem debounce_released (rst : Bool) (s : State) : (debounce rst s).released = (s.released || (!rst && s.pressed)) := by
  cases rst <;> cases h : s.pressed <;> simp [debounce, h]

@[simp] theorem debounce_wr (rst : Bool) (s : State) : (debounce rst s).wr = s.wr := by
  unfold debounce; split <;> [skip; split] <;> rfl

@[simp] theorem debounce_dOut (rst : Bool) (s : State) : (debounce rst s).dOut = s.dOut := by
  unfold debounce; split <;> [skip; split] <;> rfl

@[simp] theorem debounce_dOE (rst : Bool) (s : State) : (debounce rst s).dOE = s.dOE := by
  unfold debounce; split <;> [skip; split] <;> rfl

@[simp] theorem debounce_armed (rst : Bool) (s : State) : (debounce rst s).armed = s.armed := by
  unfold debounce; split <;> [skip; split] <;> rfl

@[simp] theorem debounce_slots (rst : Bool) (s : State) : (debounce rst s).slots = s.slots := by
  unfold debounce; split <;> [skip; split] <;> rfl

@[simp] theorem debounce_cache (rst : Bool) (s : State) : (debounce rst s).cache = s.cache := by
  unfold debounce; split <;> [skip; split] <;> rfl

@[simp] theorem debounce_rd (rst : Bool) (s : State) : (debounce rst s).rd = s.rd := by
  unfold debounce; split <;> [skip; split] <;> rfl

@[simp] theorem debounce_ce (rst : Bool) (s : State) : (debounce rst s).ce = s.ce := by
  unfold debounce; split <;> [skip; split] <;> rfl

@[simp] theorem debounce_carry (rst : Bool) (s : State) : (debounce rst s).carry = s.carry := by
  unfold debounce; split <;> [skip; split] <;> rfl

@[simp] theorem debounce_freq (rst : Bool) (s : State) : (debounce rst s).freq = s.freq := by
  unfold debounce; split <;> [skip; split] <;> rfl

@[simp] theorem debounce_inc (rst : Bool) (s : State) : (debounce rst s).inc = s.inc := by
  unfold debounce; split <;> [skip; split] <;> rfl

@[simp] theorem debounce_target (rst : Bool) (s : State) : (debounce rst s).target = s.target := by
  unfold debounce; split <;> [skip; split] <;> rfl

@[simp] theorem debounce_phase (rst : Bool) (s : State) : (debounce rst s).phase = s.phase := by
  unfold debounce; split <;> [skip; split] <;> rfl

@[simp] theorem debounce_mode (rst : Bool) (s : State) : (debounce rst s).mode = s.mode := by
  unfold debounce; split <;> [skip; split] <;> rfl

@[simp] theorem debounce_nout (rst : Bool) (s : State) : (debounce rst s).nout = s.nout := by
  unfold debounce; split <;> [skip; split] <;> rfl

@[simp] theorem debounce_left (rst : Bool) (s : State) : (debounce rst s).left = s.left := by
  unfold debounce; split <;> [skip; split] <;> rfl

@[simp] theorem debounce_right (rst : Bool) (s : State) : (debounce rst s).right = s.right := by
  unfold debounce; split <;> [skip; split] <;> rfl

@[simp] theorem debounce_calState (rst : Bool) (s : State) : (debounce rst s).calState = s.calState := by
  unfold debounce; split <;> [skip; split] <;> rfl

@[simp] theorem debounce_tstart (rst : Bool) (s : State) : (debounce rst s).tstart = s.tstart := by
  unfold debounce; split <;> [skip; split] <;> rfl

@[simp] theorem debounce_t0 (rst : Bool) (s : State) : (debounce rst s).t0 = s.t0 := by
  unfold debounce; split <;> [skip; split] <;> rfl

@[simp] theorem debounce_c0 (rst : Bool) (s : State) : (debounce rst s).c0 = s.c0 := by
  unfold debounce; split <;> [skip; split] <;> rfl

@[simp] theorem debounce_tgreg (rst : Bool) (s : State) : (debounce rst s).tgreg = s.tgreg := by
  unfold debounce; split <;> [skip; split] <;> rfl

@[simp] theorem debounce_env (rst : Bool) (s : State) : (debounce rst s).env = s.env := by
  unfold debounce; split <;> [skip; split] <;> rfl

@[simp] theorem debounce_tgCalls (rst : Bool) (s : State) : (debounce rst s).tgCalls = s.tgCalls := by
  unfold debounce; split <;> [skip; split] <;> rfl

@[simp] theorem debounce_sink (rst : Bool) (s : State) : (debounce rst s).sink = s.sink := by
  unfold debounce; split <;> [skip; split] <;> rfl

@[simp] theorem debounce_readPort (rst : Bool) (s : State) : (debounce rst s).readPort = s.readPort := by
  unfold debounce; split <;> [skip; split] <;> rfl

@[simp] theorem debounce_agenda (rst : Bool) (s : State) : (debounce rst s).agenda = s.agenda := by
  unfold debounce; split <;> [skip; split] <;> rfl

@[simp] theorem debounce_turnNo (rst : Bool) (s : State) : (debounce rst s).turnNo = s.turnNo := by
  unfold debounce; split <;> [skip; split] <;> rfl


/-! ## `recordCalls` (R135) -/

@[simp] theorem recordCalls_cfg (calls : List TGCall) (s : State) : (recordCalls calls s).cfg = s.cfg := rfl
@[simp] theorem recordCalls_hcc (calls : List TGCall) (s : State) : (recordCalls calls s).hcc = s.hcc := rfl
@[simp] theorem recordCalls_rc (calls : List TGCall) (s : State) : (recordCalls calls s).rc = s.rc := rfl
@[simp] theorem recordCalls_pressed (calls : List TGCall) (s : State) : (recordCalls calls s).pressed = s.pressed := rfl
@[simp] theorem recordCalls_released (calls : List TGCall) (s : State) : (recordCalls calls s).released = s.released := rfl
@[simp] theorem recordCalls_wr (calls : List TGCall) (s : State) : (recordCalls calls s).wr = s.wr := rfl
@[simp] theorem recordCalls_dOut (calls : List TGCall) (s : State) : (recordCalls calls s).dOut = s.dOut := rfl
@[simp] theorem recordCalls_dOE (calls : List TGCall) (s : State) : (recordCalls calls s).dOE = s.dOE := rfl
@[simp] theorem recordCalls_armed (calls : List TGCall) (s : State) : (recordCalls calls s).armed = s.armed := rfl
@[simp] theorem recordCalls_slots (calls : List TGCall) (s : State) : (recordCalls calls s).slots = s.slots := rfl
@[simp] theorem recordCalls_cache (calls : List TGCall) (s : State) : (recordCalls calls s).cache = s.cache := rfl
@[simp] theorem recordCalls_rd (calls : List TGCall) (s : State) : (recordCalls calls s).rd = s.rd := rfl
@[simp] theorem recordCalls_ce (calls : List TGCall) (s : State) : (recordCalls calls s).ce = s.ce := rfl
@[simp] theorem recordCalls_carry (calls : List TGCall) (s : State) : (recordCalls calls s).carry = s.carry := rfl
@[simp] theorem recordCalls_freq (calls : List TGCall) (s : State) : (recordCalls calls s).freq = s.freq := rfl
@[simp] theorem recordCalls_inc (calls : List TGCall) (s : State) : (recordCalls calls s).inc = s.inc := rfl
@[simp] theorem recordCalls_target (calls : List TGCall) (s : State) : (recordCalls calls s).target = s.target := rfl
@[simp] theorem recordCalls_phase (calls : List TGCall) (s : State) : (recordCalls calls s).phase = s.phase := rfl
@[simp] theorem recordCalls_mode (calls : List TGCall) (s : State) : (recordCalls calls s).mode = s.mode := rfl
@[simp] theorem recordCalls_nout (calls : List TGCall) (s : State) : (recordCalls calls s).nout = s.nout := rfl
@[simp] theorem recordCalls_left (calls : List TGCall) (s : State) : (recordCalls calls s).left = s.left := rfl
@[simp] theorem recordCalls_right (calls : List TGCall) (s : State) : (recordCalls calls s).right = s.right := rfl
@[simp] theorem recordCalls_calState (calls : List TGCall) (s : State) : (recordCalls calls s).calState = s.calState := rfl
@[simp] theorem recordCalls_tstart (calls : List TGCall) (s : State) : (recordCalls calls s).tstart = s.tstart := rfl
@[simp] theorem recordCalls_t0 (calls : List TGCall) (s : State) : (recordCalls calls s).t0 = s.t0 := rfl
@[simp] theorem recordCalls_c0 (calls : List TGCall) (s : State) : (recordCalls calls s).c0 = s.c0 := rfl
@[simp] theorem recordCalls_tgreg (calls : List TGCall) (s : State) : (recordCalls calls s).tgreg = s.tgreg := rfl
@[simp] theorem recordCalls_env (calls : List TGCall) (s : State) : (recordCalls calls s).env = s.env := rfl
@[simp] theorem recordCalls_tgCalls (calls : List TGCall) (s : State) : (recordCalls calls s).tgCalls = calls.reverse ++ s.tgCalls := rfl
@[simp] theorem recordCalls_sink (calls : List TGCall) (s : State) : (recordCalls calls s).sink = s.sink := rfl
@[simp] theorem recordCalls_readPort (calls : List TGCall) (s : State) : (recordCalls calls s).readPort = s.readPort := rfl
@[simp] theorem recordCalls_agenda (calls : List TGCall) (s : State) : (recordCalls calls s).agenda = s.agenda := rfl
@[simp] theorem recordCalls_turnNo (calls : List TGCall) (s : State) : (recordCalls calls s).turnNo = s.turnNo := rfl

/-! ## `sinkPut` (R121) -/

@[simp] theorem sinkPut_cfg (l r : Sample) (s : State) : (sinkPut l r s).cfg = s.cfg := rfl
@[simp] theorem sinkPut_hcc (l r : Sample) (s : State) : (sinkPut l r s).hcc = s.hcc := rfl
@[simp] theorem sinkPut_rc (l r : Sample) (s : State) : (sinkPut l r s).rc = s.rc := rfl
@[simp] theorem sinkPut_pressed (l r : Sample) (s : State) : (sinkPut l r s).pressed = s.pressed := rfl
@[simp] theorem sinkPut_released (l r : Sample) (s : State) : (sinkPut l r s).released = s.released := rfl
@[simp] theorem sinkPut_wr (l r : Sample) (s : State) : (sinkPut l r s).wr = s.wr := rfl
@[simp] theorem sinkPut_dOut (l r : Sample) (s : State) : (sinkPut l r s).dOut = s.dOut := rfl
@[simp] theorem sinkPut_dOE (l r : Sample) (s : State) : (sinkPut l r s).dOE = s.dOE := rfl
@[simp] theorem sinkPut_armed (l r : Sample) (s : State) : (sinkPut l r s).armed = s.armed := rfl
@[simp] theorem sinkPut_slots (l r : Sample) (s : State) : (sinkPut l r s).slots = s.slots := rfl
@[simp] theorem sinkPut_cache (l r : Sample) (s : State) : (sinkPut l r s).cache = s.cache := rfl
@[simp] theorem sinkPut_rd (l r : Sample) (s : State) : (sinkPut l r s).rd = s.rd := rfl
@[simp] theorem sinkPut_ce (l r : Sample) (s : State) : (sinkPut l r s).ce = s.ce := rfl
@[simp] theorem sinkPut_carry (l r : Sample) (s : State) : (sinkPut l r s).carry = s.carry := rfl
@[simp] theorem sinkPut_freq (l r : Sample) (s : State) : (sinkPut l r s).freq = s.freq := rfl
@[simp] theorem sinkPut_inc (l r : Sample) (s : State) : (sinkPut l r s).inc = s.inc := rfl
@[simp] theorem sinkPut_target (l r : Sample) (s : State) : (sinkPut l r s).target = s.target := rfl
@[simp] theorem sinkPut_phase (l r : Sample) (s : State) : (sinkPut l r s).phase = s.phase := rfl
@[simp] theorem sinkPut_mode (l r : Sample) (s : State) : (sinkPut l r s).mode = s.mode := rfl
@[simp] theorem sinkPut_nout (l r : Sample) (s : State) : (sinkPut l r s).nout = s.nout := rfl
@[simp] theorem sinkPut_left (l r : Sample) (s : State) : (sinkPut l r s).left = s.left := rfl
@[simp] theorem sinkPut_right (l r : Sample) (s : State) : (sinkPut l r s).right = s.right := rfl
@[simp] theorem sinkPut_calState (l r : Sample) (s : State) : (sinkPut l r s).calState = s.calState := rfl
@[simp] theorem sinkPut_tstart (l r : Sample) (s : State) : (sinkPut l r s).tstart = s.tstart := rfl
@[simp] theorem sinkPut_t0 (l r : Sample) (s : State) : (sinkPut l r s).t0 = s.t0 := rfl
@[simp] theorem sinkPut_c0 (l r : Sample) (s : State) : (sinkPut l r s).c0 = s.c0 := rfl
@[simp] theorem sinkPut_tgreg (l r : Sample) (s : State) : (sinkPut l r s).tgreg = s.tgreg := rfl
@[simp] theorem sinkPut_env (l r : Sample) (s : State) : (sinkPut l r s).env = s.env := rfl
@[simp] theorem sinkPut_tgCalls (l r : Sample) (s : State) : (sinkPut l r s).tgCalls = s.tgCalls := rfl
@[simp] theorem sinkPut_sink (l r : Sample) (s : State) : (sinkPut l r s).sink = (l, r) :: s.sink := rfl
@[simp] theorem sinkPut_readPort (l r : Sample) (s : State) : (sinkPut l r s).readPort = s.readPort := rfl
@[simp] theorem sinkPut_agenda (l r : Sample) (s : State) : (sinkPut l r s).agenda = s.agenda := rfl
@[simp] theorem sinkPut_turnNo (l r : Sample) (s : State) : (sinkPut l r s).turnNo = s.turnNo := rfl

/-! ## `goTo` (R123) -/

@[simp] theorem goTo_cfg (p : PhaseCode) (s : State) : (goTo p s).cfg = s.cfg := rfl
@[simp] theorem goTo_hcc (p : PhaseCode) (s : State) : (goTo p s).hcc = s.hcc := rfl
@[simp] theorem goTo_rc (p : PhaseCode) (s : State) : (goTo p s).rc = s.rc := rfl
@[simp] theorem goTo_pressed (p : PhaseCode) (s : State) : (goTo p s).pressed = s.pressed := rfl
@[simp] theorem goTo_released (p : PhaseCode) (s : State) : (goTo p s).released = s.released := rfl
@[simp] theorem goTo_wr (p : PhaseCode) (s : State) : (goTo p s).wr = s.wr := rfl
@[simp] theorem goTo_dOut (p : PhaseCode) (s : State) : (goTo p s).dOut = s.dOut := rfl
@[simp] theorem goTo_dOE (p : PhaseCode) (s : State) : (goTo p s).dOE = s.dOE := rfl
@[simp] theorem goTo_armed (p : PhaseCode) (s : State) : (goTo p s).armed = s.armed := rfl
@[simp] theorem goTo_slots (p : PhaseCode) (s : State) : (goTo p s).slots = s.slots := rfl
@[simp] theorem goTo_cache (p : PhaseCode) (s : State) : (goTo p s).cache = s.cache := rfl
@[simp] theorem goTo_rd (p : PhaseCode) (s : State) : (goTo p s).rd = s.rd := rfl
@[simp] theorem goTo_ce (p : PhaseCode) (s : State) : (goTo p s).ce = s.ce := rfl
@[simp] theorem goTo_carry (p : PhaseCode) (s : State) : (goTo p s).carry = s.carry := rfl
@[simp] theorem goTo_freq (p : PhaseCode) (s : State) : (goTo p s).freq = s.freq := rfl
@[simp] theorem goTo_inc (p : PhaseCode) (s : State) : (goTo p s).inc = s.inc := rfl
@[simp] theorem goTo_target (p : PhaseCode) (s : State) : (goTo p s).target = s.target := rfl
@[simp] theorem goTo_phase (p : PhaseCode) (s : State) : (goTo p s).phase = p := rfl
@[simp] theorem goTo_mode (p : PhaseCode) (s : State) : (goTo p s).mode = s.mode := rfl
@[simp] theorem goTo_nout (p : PhaseCode) (s : State) : (goTo p s).nout = s.nout := rfl
@[simp] theorem goTo_left (p : PhaseCode) (s : State) : (goTo p s).left = s.left := rfl
@[simp] theorem goTo_right (p : PhaseCode) (s : State) : (goTo p s).right = s.right := rfl
@[simp] theorem goTo_calState (p : PhaseCode) (s : State) : (goTo p s).calState = s.calState := rfl
@[simp] theorem goTo_tstart (p : PhaseCode) (s : State) : (goTo p s).tstart = s.tstart := rfl
@[simp] theorem goTo_t0 (p : PhaseCode) (s : State) : (goTo p s).t0 = s.t0 := rfl
@[simp] theorem goTo_c0 (p : PhaseCode) (s : State) : (goTo p s).c0 = s.c0 := rfl
@[simp] theorem goTo_tgreg (p : PhaseCode) (s : State) : (goTo p s).tgreg = s.tgreg := rfl
@[simp] theorem goTo_env (p : PhaseCode) (s : State) : (goTo p s).env = s.env := rfl
@[simp] theorem goTo_tgCalls (p : PhaseCode) (s : State) : (goTo p s).tgCalls = s.tgCalls := rfl
@[simp] theorem goTo_sink (p : PhaseCode) (s : State) : (goTo p s).sink = s.sink := rfl
@[simp] theorem goTo_readPort (p : PhaseCode) (s : State) : (goTo p s).readPort = s.readPort := rfl
@[simp] theorem goTo_agenda (p : PhaseCode) (s : State) : (goTo p s).agenda = s.agenda := rfl
@[simp] theorem goTo_turnNo (p : PhaseCode) (s : State) : (goTo p s).turnNo = s.turnNo := rfl

/-! ## `notePlaying` (R125) -/

@[simp] theorem notePlaying_cfg (s : State) : (notePlaying s).cfg = s.cfg := by
  unfold notePlaying; split <;> rfl

@[simp] theorem notePlaying_hcc (s : State) : (notePlaying s).hcc = s.hcc := by
  unfold notePlaying; split <;> rfl

@[simp] theorem notePlaying_rc (s : State) : (notePlaying s).rc = s.rc := by
  unfold notePlaying; split <;> rfl

@[simp] theorem notePlaying_pressed (s : State) : (notePlaying s).pressed = s.pressed := by
  unfold notePlaying; split <;> rfl

@[simp] theorem notePlaying_released (s : State) : (notePlaying s).released = s.released := by
  unfold notePlaying; split <;> rfl

@[simp] theorem notePlaying_wr (s : State) : (notePlaying s).wr = s.wr := by
  unfold notePlaying; split <;> rfl

@[simp] theorem notePlaying_dOut (s : State) : (notePlaying s).dOut = s.dOut := by
  unfold notePlaying; split <;> rfl

@[simp] theorem notePlaying_dOE (s : State) : (notePlaying s).dOE = s.dOE := by
  unfold notePlaying; split <;> rfl

@[simp] theorem notePlaying_armed (s : State) : (notePlaying s).armed = s.armed := by
  unfold notePlaying; split <;> rfl

@[simp] theorem notePlaying_slots (s : State) : (notePlaying s).slots = s.slots := by
  unfold notePlaying; split <;> rfl

@[simp] theorem notePlaying_cache (s : State) : (notePlaying s).cache = s.cache := by
  unfold notePlaying; split <;> rfl

@[simp] theorem notePlaying_rd (s : State) : (notePlaying s).rd = s.rd := by
  unfold notePlaying; split <;> rfl

@[simp] theorem notePlaying_ce (s : State) : (notePlaying s).ce = s.ce := by
  unfold notePlaying; split <;> rfl

@[simp] theorem notePlaying_carry (s : State) : (notePlaying s).carry = s.carry := by
  unfold notePlaying; split <;> rfl

@[simp] theorem notePlaying_freq (s : State) : (notePlaying s).freq = s.freq := by
  unfold notePlaying; split <;> rfl

@[simp] theorem notePlaying_inc (s : State) : (notePlaying s).inc = s.inc := by
  unfold notePlaying; split <;> rfl

@[simp] theorem notePlaying_target (s : State) : (notePlaying s).target = s.target := by
  unfold notePlaying; split <;> rfl

@[simp] theorem notePlaying_phase (s : State) : (notePlaying s).phase = s.phase := by
  unfold notePlaying; split <;> rfl

@[simp] theorem notePlaying_mode (s : State) : (notePlaying s).mode = if s.mode = .catchup then .playing else s.mode := by
  unfold notePlaying; split <;> rfl

@[simp] theorem notePlaying_nout (s : State) : (notePlaying s).nout = s.nout := by
  unfold notePlaying; split <;> rfl

@[simp] theorem notePlaying_left (s : State) : (notePlaying s).left = s.left := by
  unfold notePlaying; split <;> rfl

@[simp] theorem notePlaying_right (s : State) : (notePlaying s).right = s.right := by
  unfold notePlaying; split <;> rfl

@[simp] theorem notePlaying_calState (s : State) : (notePlaying s).calState = s.calState := by
  unfold notePlaying; split <;> rfl

@[simp] theorem notePlaying_tstart (s : State) : (notePlaying s).tstart = s.tstart := by
  unfold notePlaying; split <;> rfl

@[simp] theorem notePlaying_t0 (s : State) : (notePlaying s).t0 = s.t0 := by
  unfold notePlaying; split <;> rfl

@[simp] theorem notePlaying_c0 (s : State) : (notePlaying s).c0 = s.c0 := by
  unfold notePlaying; split <;> rfl

@[simp] theorem notePlaying_tgreg (s : State) : (notePlaying s).tgreg = s.tgreg := by
  unfold notePlaying; split <;> rfl

@[simp] theorem notePlaying_env (s : State) : (notePlaying s).env = s.env := by
  unfold notePlaying; split <;> rfl

@[simp] theorem notePlaying_tgCalls (s : State) : (notePlaying s).tgCalls = s.tgCalls := by
  unfold notePlaying; split <;> rfl

@[simp] theorem notePlaying_sink (s : State) : (notePlaying s).sink = s.sink := by
  unfold notePlaying; split <;> rfl

@[simp] theorem notePlaying_readPort (s : State) : (notePlaying s).readPort = s.readPort := by
  unfold notePlaying; split <;> rfl

@[simp] theorem notePlaying_agenda (s : State) : (notePlaying s).agenda = s.agenda := by
  unfold notePlaying; split <;> rfl

@[simp] theorem notePlaying_turnNo (s : State) : (notePlaying s).turnNo = s.turnNo := by
  unfold notePlaying; split <;> rfl


/-! ## `loopTest` (R126, R129) -/

@[simp] theorem loopTest_cfg (s : State) : (loopTest s).cfg = s.cfg := by
  unfold loopTest; split <;> simp

@[simp] theorem loopTest_hcc (s : State) : (loopTest s).hcc = s.hcc := by
  unfold loopTest; split <;> simp

@[simp] theorem loopTest_rc (s : State) : (loopTest s).rc = s.rc := by
  unfold loopTest; split <;> simp

@[simp] theorem loopTest_pressed (s : State) : (loopTest s).pressed = s.pressed := by
  unfold loopTest; split <;> simp

@[simp] theorem loopTest_released (s : State) : (loopTest s).released = s.released := by
  unfold loopTest; split <;> simp

@[simp] theorem loopTest_wr (s : State) : (loopTest s).wr = s.wr := by
  unfold loopTest; split <;> simp

@[simp] theorem loopTest_dOut (s : State) : (loopTest s).dOut = s.dOut := by
  unfold loopTest; split <;> simp

@[simp] theorem loopTest_dOE (s : State) : (loopTest s).dOE = s.dOE := by
  unfold loopTest; split <;> simp

@[simp] theorem loopTest_armed (s : State) : (loopTest s).armed = s.armed := by
  unfold loopTest; split <;> simp

@[simp] theorem loopTest_slots (s : State) : (loopTest s).slots = s.slots := by
  unfold loopTest; split <;> simp

@[simp] theorem loopTest_cache (s : State) : (loopTest s).cache = s.cache := by
  unfold loopTest; split <;> simp

@[simp] theorem loopTest_rd (s : State) : (loopTest s).rd = s.rd := by
  unfold loopTest; split <;> simp

@[simp] theorem loopTest_ce (s : State) : (loopTest s).ce = s.ce := by
  unfold loopTest; split <;> simp

@[simp] theorem loopTest_carry (s : State) : (loopTest s).carry = s.carry := by
  unfold loopTest; split <;> simp

@[simp] theorem loopTest_freq (s : State) : (loopTest s).freq = s.freq := by
  unfold loopTest; split <;> simp

@[simp] theorem loopTest_inc (s : State) : (loopTest s).inc = s.inc := by
  unfold loopTest; split <;> simp

@[simp] theorem loopTest_target (s : State) : (loopTest s).target = s.target := by
  unfold loopTest; split <;> simp

@[simp] theorem loopTest_phase (s : State) : (loopTest s).phase = if s.behind then phAccStep else phMixOut := by
  unfold loopTest; split <;> rfl

@[simp] theorem loopTest_mode (s : State) : (loopTest s).mode = if s.behind = false ∧ s.mode = .catchup then .playing else s.mode := by
  cases h : s.behind <;> simp [loopTest, h]

@[simp] theorem loopTest_nout (s : State) : (loopTest s).nout = s.nout := by
  unfold loopTest; split <;> simp

@[simp] theorem loopTest_left (s : State) : (loopTest s).left = s.left := by
  unfold loopTest; split <;> simp

@[simp] theorem loopTest_right (s : State) : (loopTest s).right = s.right := by
  unfold loopTest; split <;> simp

@[simp] theorem loopTest_calState (s : State) : (loopTest s).calState = s.calState := by
  unfold loopTest; split <;> simp

@[simp] theorem loopTest_tstart (s : State) : (loopTest s).tstart = s.tstart := by
  unfold loopTest; split <;> simp

@[simp] theorem loopTest_t0 (s : State) : (loopTest s).t0 = s.t0 := by
  unfold loopTest; split <;> simp

@[simp] theorem loopTest_c0 (s : State) : (loopTest s).c0 = s.c0 := by
  unfold loopTest; split <;> simp

@[simp] theorem loopTest_tgreg (s : State) : (loopTest s).tgreg = s.tgreg := by
  unfold loopTest; split <;> simp

@[simp] theorem loopTest_env (s : State) : (loopTest s).env = s.env := by
  unfold loopTest; split <;> simp

@[simp] theorem loopTest_tgCalls (s : State) : (loopTest s).tgCalls = s.tgCalls := by
  unfold loopTest; split <;> simp

@[simp] theorem loopTest_sink (s : State) : (loopTest s).sink = s.sink := by
  unfold loopTest; split <;> simp

@[simp] theorem loopTest_readPort (s : State) : (loopTest s).readPort = s.readPort := by
  unfold loopTest; split <;> simp

@[simp] theorem loopTest_agenda (s : State) : (loopTest s).agenda = s.agenda := by
  unfold loopTest; split <;> simp

@[simp] theorem loopTest_turnNo (s : State) : (loopTest s).turnNo = s.turnNo := by
  unfold loopTest; split <;> simp


/-! ## `tgWrite` (R136) -/

@[simp] theorem tgWrite_cfg (c : ChipIndex) (r : RegNum) (v : Byte) (s : State) : (tgWrite c r v s).cfg = s.cfg := rfl
@[simp] theorem tgWrite_hcc (c : ChipIndex) (r : RegNum) (v : Byte) (s : State) : (tgWrite c r v s).hcc = s.hcc := rfl
@[simp] theorem tgWrite_rc (c : ChipIndex) (r : RegNum) (v : Byte) (s : State) : (tgWrite c r v s).rc = s.rc := rfl
@[simp] theorem tgWrite_pressed (c : ChipIndex) (r : RegNum) (v : Byte) (s : State) : (tgWrite c r v s).pressed = s.pressed := rfl
@[simp] theorem tgWrite_released (c : ChipIndex) (r : RegNum) (v : Byte) (s : State) : (tgWrite c r v s).released = s.released := rfl
@[simp] theorem tgWrite_wr (c : ChipIndex) (r : RegNum) (v : Byte) (s : State) : (tgWrite c r v s).wr = s.wr := rfl
@[simp] theorem tgWrite_dOut (c : ChipIndex) (r : RegNum) (v : Byte) (s : State) : (tgWrite c r v s).dOut = s.dOut := rfl
@[simp] theorem tgWrite_dOE (c : ChipIndex) (r : RegNum) (v : Byte) (s : State) : (tgWrite c r v s).dOE = s.dOE := rfl
@[simp] theorem tgWrite_armed (c : ChipIndex) (r : RegNum) (v : Byte) (s : State) : (tgWrite c r v s).armed = s.armed := rfl
@[simp] theorem tgWrite_slots (c : ChipIndex) (r : RegNum) (v : Byte) (s : State) : (tgWrite c r v s).slots = s.slots := rfl
@[simp] theorem tgWrite_cache (c : ChipIndex) (r : RegNum) (v : Byte) (s : State) : (tgWrite c r v s).cache = s.cache := rfl
@[simp] theorem tgWrite_rd (c : ChipIndex) (r : RegNum) (v : Byte) (s : State) : (tgWrite c r v s).rd = s.rd := rfl
@[simp] theorem tgWrite_ce (c : ChipIndex) (r : RegNum) (v : Byte) (s : State) : (tgWrite c r v s).ce = s.ce := rfl
@[simp] theorem tgWrite_carry (c : ChipIndex) (r : RegNum) (v : Byte) (s : State) : (tgWrite c r v s).carry = s.carry := rfl
@[simp] theorem tgWrite_freq (c : ChipIndex) (r : RegNum) (v : Byte) (s : State) : (tgWrite c r v s).freq = s.freq := rfl
@[simp] theorem tgWrite_inc (c : ChipIndex) (r : RegNum) (v : Byte) (s : State) : (tgWrite c r v s).inc = s.inc := rfl
@[simp] theorem tgWrite_target (c : ChipIndex) (r : RegNum) (v : Byte) (s : State) : (tgWrite c r v s).target = s.target := rfl
@[simp] theorem tgWrite_phase (c : ChipIndex) (r : RegNum) (v : Byte) (s : State) : (tgWrite c r v s).phase = s.phase := rfl
@[simp] theorem tgWrite_mode (c : ChipIndex) (r : RegNum) (v : Byte) (s : State) : (tgWrite c r v s).mode = s.mode := rfl
@[simp] theorem tgWrite_nout (c : ChipIndex) (r : RegNum) (v : Byte) (s : State) : (tgWrite c r v s).nout = s.nout := rfl
@[simp] theorem tgWrite_left (c : ChipIndex) (r : RegNum) (v : Byte) (s : State) : (tgWrite c r v s).left = s.left := rfl
@[simp] theorem tgWrite_right (c : ChipIndex) (r : RegNum) (v : Byte) (s : State) : (tgWrite c r v s).right = s.right := rfl
@[simp] theorem tgWrite_calState (c : ChipIndex) (r : RegNum) (v : Byte) (s : State) : (tgWrite c r v s).calState = s.calState := rfl
@[simp] theorem tgWrite_tstart (c : ChipIndex) (r : RegNum) (v : Byte) (s : State) : (tgWrite c r v s).tstart = s.tstart := rfl
@[simp] theorem tgWrite_t0 (c : ChipIndex) (r : RegNum) (v : Byte) (s : State) : (tgWrite c r v s).t0 = s.t0 := rfl
@[simp] theorem tgWrite_c0 (c : ChipIndex) (r : RegNum) (v : Byte) (s : State) : (tgWrite c r v s).c0 = s.c0 := rfl
@[simp] theorem tgWrite_tgreg (c : ChipIndex) (r : RegNum) (v : Byte) (s : State) : (tgWrite c r v s).tgreg = memWrite s.tgreg (tgAddr c r) v := rfl
@[simp] theorem tgWrite_env (c : ChipIndex) (r : RegNum) (v : Byte) (s : State) : (tgWrite c r v s).env = s.env := rfl
@[simp] theorem tgWrite_tgCalls (c : ChipIndex) (r : RegNum) (v : Byte) (s : State) : (tgWrite c r v s).tgCalls = .write c r v :: s.tgCalls := rfl
@[simp] theorem tgWrite_sink (c : ChipIndex) (r : RegNum) (v : Byte) (s : State) : (tgWrite c r v s).sink = s.sink := rfl
@[simp] theorem tgWrite_readPort (c : ChipIndex) (r : RegNum) (v : Byte) (s : State) : (tgWrite c r v s).readPort = s.readPort := rfl
@[simp] theorem tgWrite_agenda (c : ChipIndex) (r : RegNum) (v : Byte) (s : State) : (tgWrite c r v s).agenda = s.agenda := rfl
@[simp] theorem tgWrite_turnNo (c : ChipIndex) (r : RegNum) (v : Byte) (s : State) : (tgWrite c r v s).turnNo = s.turnNo := rfl

/-! ## `tgClear` (R134) -/

@[simp] theorem tgClear_cfg (ps : List (ChipIndex × RegNum)) (s : State) : (tgClear ps s).cfg = s.cfg := rfl
@[simp] theorem tgClear_hcc (ps : List (ChipIndex × RegNum)) (s : State) : (tgClear ps s).hcc = s.hcc := rfl
@[simp] theorem tgClear_rc (ps : List (ChipIndex × RegNum)) (s : State) : (tgClear ps s).rc = s.rc := rfl
@[simp] theorem tgClear_pressed (ps : List (ChipIndex × RegNum)) (s : State) : (tgClear ps s).pressed = s.pressed := rfl
@[simp] theorem tgClear_released (ps : List (ChipIndex × RegNum)) (s : State) : (tgClear ps s).released = s.released := rfl
@[simp] theorem tgClear_wr (ps : List (ChipIndex × RegNum)) (s : State) : (tgClear ps s).wr = s.wr := rfl
@[simp] theorem tgClear_dOut (ps : List (ChipIndex × RegNum)) (s : State) : (tgClear ps s).dOut = s.dOut := rfl
@[simp] theorem tgClear_dOE (ps : List (ChipIndex × RegNum)) (s : State) : (tgClear ps s).dOE = s.dOE := rfl
@[simp] theorem tgClear_armed (ps : List (ChipIndex × RegNum)) (s : State) : (tgClear ps s).armed = s.armed := rfl
@[simp] theorem tgClear_slots (ps : List (ChipIndex × RegNum)) (s : State) : (tgClear ps s).slots = s.slots := rfl
@[simp] theorem tgClear_cache (ps : List (ChipIndex × RegNum)) (s : State) : (tgClear ps s).cache = s.cache := rfl
@[simp] theorem tgClear_rd (ps : List (ChipIndex × RegNum)) (s : State) : (tgClear ps s).rd = s.rd := rfl
@[simp] theorem tgClear_ce (ps : List (ChipIndex × RegNum)) (s : State) : (tgClear ps s).ce = s.ce := rfl
@[simp] theorem tgClear_carry (ps : List (ChipIndex × RegNum)) (s : State) : (tgClear ps s).carry = s.carry := rfl
@[simp] theorem tgClear_freq (ps : List (ChipIndex × RegNum)) (s : State) : (tgClear ps s).freq = s.freq := rfl
@[simp] theorem tgClear_inc (ps : List (ChipIndex × RegNum)) (s : State) : (tgClear ps s).inc = s.inc := rfl
@[simp] theorem tgClear_target (ps : List (ChipIndex × RegNum)) (s : State) : (tgClear ps s).target = s.target := rfl
@[simp] theorem tgClear_phase (ps : List (ChipIndex × RegNum)) (s : State) : (tgClear ps s).phase = s.phase := rfl
@[simp] theorem tgClear_mode (ps : List (ChipIndex × RegNum)) (s : State) : (tgClear ps s).mode = s.mode := rfl
@[simp] theorem tgClear_nout (ps : List (ChipIndex × RegNum)) (s : State) : (tgClear ps s).nout = s.nout := rfl
@[simp] theorem tgClear_left (ps : List (ChipIndex × RegNum)) (s : State) : (tgClear ps s).left = s.left := rfl
@[simp] theorem tgClear_right (ps : List (ChipIndex × RegNum)) (s : State) : (tgClear ps s).right = s.right := rfl
@[simp] theorem tgClear_calState (ps : List (ChipIndex × RegNum)) (s : State) : (tgClear ps s).calState = s.calState := rfl
@[simp] theorem tgClear_tstart (ps : List (ChipIndex × RegNum)) (s : State) : (tgClear ps s).tstart = s.tstart := rfl
@[simp] theorem tgClear_t0 (ps : List (ChipIndex × RegNum)) (s : State) : (tgClear ps s).t0 = s.t0 := rfl
@[simp] theorem tgClear_c0 (ps : List (ChipIndex × RegNum)) (s : State) : (tgClear ps s).c0 = s.c0 := rfl
@[simp] theorem tgClear_tgreg (ps : List (ChipIndex × RegNum)) (s : State) : (tgClear ps s).tgreg = ps.foldl (fun m p => memWrite m (tgAddr p.1 p.2) 0x00) s.tgreg := rfl
@[simp] theorem tgClear_env (ps : List (ChipIndex × RegNum)) (s : State) : (tgClear ps s).env = s.env := rfl
@[simp] theorem tgClear_tgCalls (ps : List (ChipIndex × RegNum)) (s : State) : (tgClear ps s).tgCalls = (ps.map fun p => TGCall.write p.1 p.2 0x00).reverse ++ s.tgCalls := rfl
@[simp] theorem tgClear_sink (ps : List (ChipIndex × RegNum)) (s : State) : (tgClear ps s).sink = s.sink := rfl
@[simp] theorem tgClear_readPort (ps : List (ChipIndex × RegNum)) (s : State) : (tgClear ps s).readPort = s.readPort := rfl
@[simp] theorem tgClear_agenda (ps : List (ChipIndex × RegNum)) (s : State) : (tgClear ps s).agenda = s.agenda := rfl
@[simp] theorem tgClear_turnNo (ps : List (ChipIndex × RegNum)) (s : State) : (tgClear ps s).turnNo = s.turnNo := rfl

/-! ## `tgAdvanceAll` (R127) -/

@[simp] theorem tgAdvanceAll_cfg (n : Nat) (s : State) : (tgAdvanceAll n s).cfg = s.cfg := rfl
@[simp] theorem tgAdvanceAll_hcc (n : Nat) (s : State) : (tgAdvanceAll n s).hcc = s.hcc := rfl
@[simp] theorem tgAdvanceAll_rc (n : Nat) (s : State) : (tgAdvanceAll n s).rc = s.rc := rfl
@[simp] theorem tgAdvanceAll_pressed (n : Nat) (s : State) : (tgAdvanceAll n s).pressed = s.pressed := rfl
@[simp] theorem tgAdvanceAll_released (n : Nat) (s : State) : (tgAdvanceAll n s).released = s.released := rfl
@[simp] theorem tgAdvanceAll_wr (n : Nat) (s : State) : (tgAdvanceAll n s).wr = s.wr := rfl
@[simp] theorem tgAdvanceAll_dOut (n : Nat) (s : State) : (tgAdvanceAll n s).dOut = s.dOut := rfl
@[simp] theorem tgAdvanceAll_dOE (n : Nat) (s : State) : (tgAdvanceAll n s).dOE = s.dOE := rfl
@[simp] theorem tgAdvanceAll_armed (n : Nat) (s : State) : (tgAdvanceAll n s).armed = s.armed := rfl
@[simp] theorem tgAdvanceAll_slots (n : Nat) (s : State) : (tgAdvanceAll n s).slots = s.slots := rfl
@[simp] theorem tgAdvanceAll_cache (n : Nat) (s : State) : (tgAdvanceAll n s).cache = s.cache := rfl
@[simp] theorem tgAdvanceAll_rd (n : Nat) (s : State) : (tgAdvanceAll n s).rd = s.rd := rfl
@[simp] theorem tgAdvanceAll_ce (n : Nat) (s : State) : (tgAdvanceAll n s).ce = s.ce := rfl
@[simp] theorem tgAdvanceAll_carry (n : Nat) (s : State) : (tgAdvanceAll n s).carry = s.carry := rfl
@[simp] theorem tgAdvanceAll_freq (n : Nat) (s : State) : (tgAdvanceAll n s).freq = s.freq := rfl
@[simp] theorem tgAdvanceAll_inc (n : Nat) (s : State) : (tgAdvanceAll n s).inc = s.inc := rfl
@[simp] theorem tgAdvanceAll_target (n : Nat) (s : State) : (tgAdvanceAll n s).target = s.target := rfl
@[simp] theorem tgAdvanceAll_phase (n : Nat) (s : State) : (tgAdvanceAll n s).phase = s.phase := rfl
@[simp] theorem tgAdvanceAll_mode (n : Nat) (s : State) : (tgAdvanceAll n s).mode = s.mode := rfl
@[simp] theorem tgAdvanceAll_nout (n : Nat) (s : State) : (tgAdvanceAll n s).nout = s.nout := rfl
@[simp] theorem tgAdvanceAll_left (n : Nat) (s : State) : (tgAdvanceAll n s).left = s.left := rfl
@[simp] theorem tgAdvanceAll_right (n : Nat) (s : State) : (tgAdvanceAll n s).right = s.right := rfl
@[simp] theorem tgAdvanceAll_calState (n : Nat) (s : State) : (tgAdvanceAll n s).calState = s.calState := rfl
@[simp] theorem tgAdvanceAll_tstart (n : Nat) (s : State) : (tgAdvanceAll n s).tstart = s.tstart := rfl
@[simp] theorem tgAdvanceAll_t0 (n : Nat) (s : State) : (tgAdvanceAll n s).t0 = s.t0 := rfl
@[simp] theorem tgAdvanceAll_c0 (n : Nat) (s : State) : (tgAdvanceAll n s).c0 = s.c0 := rfl
@[simp] theorem tgAdvanceAll_tgreg (n : Nat) (s : State) : (tgAdvanceAll n s).tgreg = s.tgreg := rfl
@[simp] theorem tgAdvanceAll_env (n : Nat) (s : State) : (tgAdvanceAll n s).env = s.env := rfl
@[simp] theorem tgAdvanceAll_tgCalls (n : Nat) (s : State) : (tgAdvanceAll n s).tgCalls = (allChips.map fun c => TGCall.advance c n).reverse ++ s.tgCalls := rfl
@[simp] theorem tgAdvanceAll_sink (n : Nat) (s : State) : (tgAdvanceAll n s).sink = s.sink := rfl
@[simp] theorem tgAdvanceAll_readPort (n : Nat) (s : State) : (tgAdvanceAll n s).readPort = s.readPort := rfl
@[simp] theorem tgAdvanceAll_agenda (n : Nat) (s : State) : (tgAdvanceAll n s).agenda = s.agenda := rfl
@[simp] theorem tgAdvanceAll_turnNo (n : Nat) (s : State) : (tgAdvanceAll n s).turnNo = s.turnNo := rfl

/-! ## `raiseCalibrationFailure` (R145) -/

@[simp] theorem raiseCalibrationFailure_cfg (s : State) : (raiseCalibrationFailure s).cfg = s.cfg := rfl
@[simp] theorem raiseCalibrationFailure_hcc (s : State) : (raiseCalibrationFailure s).hcc = s.hcc := rfl
@[simp] theorem raiseCalibrationFailure_rc (s : State) : (raiseCalibrationFailure s).rc = s.rc := rfl
@[simp] theorem raiseCalibrationFailure_pressed (s : State) : (raiseCalibrationFailure s).pressed = s.pressed := rfl
@[simp] theorem raiseCalibrationFailure_released (s : State) : (raiseCalibrationFailure s).released = s.released := rfl
@[simp] theorem raiseCalibrationFailure_wr (s : State) : (raiseCalibrationFailure s).wr = s.wr := rfl
@[simp] theorem raiseCalibrationFailure_dOut (s : State) : (raiseCalibrationFailure s).dOut = s.dOut := rfl
@[simp] theorem raiseCalibrationFailure_dOE (s : State) : (raiseCalibrationFailure s).dOE = s.dOE := rfl
@[simp] theorem raiseCalibrationFailure_armed (s : State) : (raiseCalibrationFailure s).armed = false := rfl
@[simp] theorem raiseCalibrationFailure_slots (s : State) : (raiseCalibrationFailure s).slots = s.slots := rfl
@[simp] theorem raiseCalibrationFailure_cache (s : State) : (raiseCalibrationFailure s).cache = s.cache := rfl
@[simp] theorem raiseCalibrationFailure_rd (s : State) : (raiseCalibrationFailure s).rd = s.rd := rfl
@[simp] theorem raiseCalibrationFailure_ce (s : State) : (raiseCalibrationFailure s).ce = s.ce := rfl
@[simp] theorem raiseCalibrationFailure_carry (s : State) : (raiseCalibrationFailure s).carry = s.carry := rfl
@[simp] theorem raiseCalibrationFailure_freq (s : State) : (raiseCalibrationFailure s).freq = s.freq := rfl
@[simp] theorem raiseCalibrationFailure_inc (s : State) : (raiseCalibrationFailure s).inc = s.inc := rfl
@[simp] theorem raiseCalibrationFailure_target (s : State) : (raiseCalibrationFailure s).target = s.target := rfl
@[simp] theorem raiseCalibrationFailure_phase (s : State) : (raiseCalibrationFailure s).phase = s.phase := rfl
@[simp] theorem raiseCalibrationFailure_mode (s : State) : (raiseCalibrationFailure s).mode = .halted := rfl
@[simp] theorem raiseCalibrationFailure_nout (s : State) : (raiseCalibrationFailure s).nout = s.nout := rfl
@[simp] theorem raiseCalibrationFailure_left (s : State) : (raiseCalibrationFailure s).left = s.left := rfl
@[simp] theorem raiseCalibrationFailure_right (s : State) : (raiseCalibrationFailure s).right = s.right := rfl
@[simp] theorem raiseCalibrationFailure_calState (s : State) : (raiseCalibrationFailure s).calState = s.calState := rfl
@[simp] theorem raiseCalibrationFailure_tstart (s : State) : (raiseCalibrationFailure s).tstart = s.tstart := rfl
@[simp] theorem raiseCalibrationFailure_t0 (s : State) : (raiseCalibrationFailure s).t0 = s.t0 := rfl
@[simp] theorem raiseCalibrationFailure_c0 (s : State) : (raiseCalibrationFailure s).c0 = s.c0 := rfl
@[simp] theorem raiseCalibrationFailure_tgreg (s : State) : (raiseCalibrationFailure s).tgreg = s.tgreg := rfl
@[simp] theorem raiseCalibrationFailure_env (s : State) : (raiseCalibrationFailure s).env = s.env := rfl
@[simp] theorem raiseCalibrationFailure_tgCalls (s : State) : (raiseCalibrationFailure s).tgCalls = s.tgCalls := rfl
@[simp] theorem raiseCalibrationFailure_sink (s : State) : (raiseCalibrationFailure s).sink = s.sink := rfl
@[simp] theorem raiseCalibrationFailure_readPort (s : State) : (raiseCalibrationFailure s).readPort = s.readPort := rfl
@[simp] theorem raiseCalibrationFailure_agenda (s : State) : (raiseCalibrationFailure s).agenda = s.agenda := rfl
@[simp] theorem raiseCalibrationFailure_turnNo (s : State) : (raiseCalibrationFailure s).turnNo = s.turnNo := rfl

/-! ## `enterReset` (R126) -/

@[simp] theorem enterReset_cfg (s : State) : (enterReset s).cfg = s.cfg := rfl
@[simp] theorem enterReset_hcc (s : State) : (enterReset s).hcc = s.hcc := rfl
@[simp] theorem enterReset_rc (s : State) : (enterReset s).rc = s.rc := rfl
@[simp] theorem enterReset_pressed (s : State) : (enterReset s).pressed = s.pressed := rfl
@[simp] theorem enterReset_released (s : State) : (enterReset s).released = s.released := rfl
@[simp] theorem enterReset_wr (s : State) : (enterReset s).wr = s.wr := rfl
@[simp] theorem enterReset_dOut (s : State) : (enterReset s).dOut = s.dOut := rfl
@[simp] theorem enterReset_dOE (s : State) : (enterReset s).dOE = s.dOE := rfl
@[simp] theorem enterReset_armed (s : State) : (enterReset s).armed = s.armed := rfl
@[simp] theorem enterReset_slots (s : State) : (enterReset s).slots = s.slots := rfl
@[simp] theorem enterReset_cache (s : State) : (enterReset s).cache = s.cache := rfl
@[simp] theorem enterReset_rd (s : State) : (enterReset s).rd = s.rd := rfl
@[simp] theorem enterReset_ce (s : State) : (enterReset s).ce = s.ce := rfl
@[simp] theorem enterReset_carry (s : State) : (enterReset s).carry = s.carry := rfl
@[simp] theorem enterReset_freq (s : State) : (enterReset s).freq = s.freq := rfl
@[simp] theorem enterReset_inc (s : State) : (enterReset s).inc = s.inc := rfl
@[simp] theorem enterReset_target (s : State) : (enterReset s).target = s.target := rfl
@[simp] theorem enterReset_phase (s : State) : (enterReset s).phase = phResetClear := rfl
@[simp] theorem enterReset_mode (s : State) : (enterReset s).mode = .resetting := rfl
@[simp] theorem enterReset_nout (s : State) : (enterReset s).nout = s.nout := rfl
@[simp] theorem enterReset_left (s : State) : (enterReset s).left = s.left := rfl
@[simp] theorem enterReset_right (s : State) : (enterReset s).right = s.right := rfl
@[simp] theorem enterReset_calState (s : State) : (enterReset s).calState = s.calState := rfl
@[simp] theorem enterReset_tstart (s : State) : (enterReset s).tstart = s.tstart := rfl
@[simp] theorem enterReset_t0 (s : State) : (enterReset s).t0 = s.t0 := rfl
@[simp] theorem enterReset_c0 (s : State) : (enterReset s).c0 = s.c0 := rfl
@[simp] theorem enterReset_tgreg (s : State) : (enterReset s).tgreg = s.tgreg := rfl
@[simp] theorem enterReset_env (s : State) : (enterReset s).env = s.env := rfl
@[simp] theorem enterReset_tgCalls (s : State) : (enterReset s).tgCalls = s.tgCalls := rfl
@[simp] theorem enterReset_sink (s : State) : (enterReset s).sink = s.sink := rfl
@[simp] theorem enterReset_readPort (s : State) : (enterReset s).readPort = s.readPort := rfl
@[simp] theorem enterReset_agenda (s : State) : (enterReset s).agenda = s.agenda := rfl
@[simp] theorem enterReset_turnNo (s : State) : (enterReset s).turnNo = s.turnNo := rfl

/-! ## `leaveReset` (R134) -/

@[simp] theorem leaveReset_cfg (s : State) : (leaveReset s).cfg = s.cfg := rfl
@[simp] theorem leaveReset_hcc (s : State) : (leaveReset s).hcc = s.hcc := rfl
@[simp] theorem leaveReset_rc (s : State) : (leaveReset s).rc = s.rc := rfl
@[simp] theorem leaveReset_pressed (s : State) : (leaveReset s).pressed = s.pressed := rfl
@[simp] theorem leaveReset_released (s : State) : (leaveReset s).released = s.released := rfl
@[simp] theorem leaveReset_wr (s : State) : (leaveReset s).wr = s.wr := rfl
@[simp] theorem leaveReset_dOut (s : State) : (leaveReset s).dOut = s.dOut := rfl
@[simp] theorem leaveReset_dOE (s : State) : (leaveReset s).dOE = s.dOE := rfl
@[simp] theorem leaveReset_armed (s : State) : (leaveReset s).armed = s.armed := rfl
@[simp] theorem leaveReset_slots (s : State) : (leaveReset s).slots = s.slots := rfl
@[simp] theorem leaveReset_cache (s : State) : (leaveReset s).cache = s.cache := rfl
@[simp] theorem leaveReset_rd (s : State) : (leaveReset s).rd = s.rd := rfl
@[simp] theorem leaveReset_ce (s : State) : (leaveReset s).ce = s.ce := rfl
@[simp] theorem leaveReset_carry (s : State) : (leaveReset s).carry = s.carry := rfl
@[simp] theorem leaveReset_freq (s : State) : (leaveReset s).freq = s.freq := rfl
@[simp] theorem leaveReset_inc (s : State) : (leaveReset s).inc = s.inc := rfl
@[simp] theorem leaveReset_target (s : State) : (leaveReset s).target = s.target := rfl
@[simp] theorem leaveReset_phase (s : State) : (leaveReset s).phase = phFetchTarget := rfl
@[simp] theorem leaveReset_mode (s : State) : (leaveReset s).mode = .playing := rfl
@[simp] theorem leaveReset_nout (s : State) : (leaveReset s).nout = s.nout := rfl
@[simp] theorem leaveReset_left (s : State) : (leaveReset s).left = s.left := rfl
@[simp] theorem leaveReset_right (s : State) : (leaveReset s).right = s.right := rfl
@[simp] theorem leaveReset_calState (s : State) : (leaveReset s).calState = s.calState := rfl
@[simp] theorem leaveReset_tstart (s : State) : (leaveReset s).tstart = s.tstart := rfl
@[simp] theorem leaveReset_t0 (s : State) : (leaveReset s).t0 = s.t0 := rfl
@[simp] theorem leaveReset_c0 (s : State) : (leaveReset s).c0 = s.c0 := rfl
@[simp] theorem leaveReset_tgreg (s : State) : (leaveReset s).tgreg = s.tgreg := rfl
@[simp] theorem leaveReset_env (s : State) : (leaveReset s).env = s.env := rfl
@[simp] theorem leaveReset_tgCalls (s : State) : (leaveReset s).tgCalls = s.tgCalls := rfl
@[simp] theorem leaveReset_sink (s : State) : (leaveReset s).sink = s.sink := rfl
@[simp] theorem leaveReset_readPort (s : State) : (leaveReset s).readPort = s.readPort := rfl
@[simp] theorem leaveReset_agenda (s : State) : (leaveReset s).agenda = s.agenda := rfl
@[simp] theorem leaveReset_turnNo (s : State) : (leaveReset s).turnNo = s.turnNo := rfl

/-! ## `shutdown` (R156) -/

@[simp] theorem shutdown_cfg (s : State) : (shutdown s).cfg = s.cfg := rfl
@[simp] theorem shutdown_hcc (s : State) : (shutdown s).hcc = s.hcc := rfl
@[simp] theorem shutdown_rc (s : State) : (shutdown s).rc = s.rc := rfl
@[simp] theorem shutdown_pressed (s : State) : (shutdown s).pressed = s.pressed := rfl
@[simp] theorem shutdown_released (s : State) : (shutdown s).released = s.released := rfl
@[simp] theorem shutdown_wr (s : State) : (shutdown s).wr = s.wr := rfl
@[simp] theorem shutdown_dOut (s : State) : (shutdown s).dOut = s.dOut := rfl
@[simp] theorem shutdown_dOE (s : State) : (shutdown s).dOE = s.dOE := rfl
@[simp] theorem shutdown_armed (s : State) : (shutdown s).armed = false := rfl
@[simp] theorem shutdown_slots (s : State) : (shutdown s).slots = s.slots := rfl
@[simp] theorem shutdown_cache (s : State) : (shutdown s).cache = s.cache := rfl
@[simp] theorem shutdown_rd (s : State) : (shutdown s).rd = s.rd := rfl
@[simp] theorem shutdown_ce (s : State) : (shutdown s).ce = s.ce := rfl
@[simp] theorem shutdown_carry (s : State) : (shutdown s).carry = s.carry := rfl
@[simp] theorem shutdown_freq (s : State) : (shutdown s).freq = s.freq := rfl
@[simp] theorem shutdown_inc (s : State) : (shutdown s).inc = s.inc := rfl
@[simp] theorem shutdown_target (s : State) : (shutdown s).target = s.target := rfl
@[simp] theorem shutdown_phase (s : State) : (shutdown s).phase = s.phase := rfl
@[simp] theorem shutdown_mode (s : State) : (shutdown s).mode = .stopped := rfl
@[simp] theorem shutdown_nout (s : State) : (shutdown s).nout = s.nout := rfl
@[simp] theorem shutdown_left (s : State) : (shutdown s).left = s.left := rfl
@[simp] theorem shutdown_right (s : State) : (shutdown s).right = s.right := rfl
@[simp] theorem shutdown_calState (s : State) : (shutdown s).calState = s.calState := rfl
@[simp] theorem shutdown_tstart (s : State) : (shutdown s).tstart = s.tstart := rfl
@[simp] theorem shutdown_t0 (s : State) : (shutdown s).t0 = s.t0 := rfl
@[simp] theorem shutdown_c0 (s : State) : (shutdown s).c0 = s.c0 := rfl
@[simp] theorem shutdown_tgreg (s : State) : (shutdown s).tgreg = s.tgreg := rfl
@[simp] theorem shutdown_env (s : State) : (shutdown s).env = s.env := rfl
@[simp] theorem shutdown_tgCalls (s : State) : (shutdown s).tgCalls = s.tgCalls := rfl
@[simp] theorem shutdown_sink (s : State) : (shutdown s).sink = s.sink := rfl
@[simp] theorem shutdown_readPort (s : State) : (shutdown s).readPort = s.readPort := rfl
@[simp] theorem shutdown_agenda (s : State) : (shutdown s).agenda = s.agenda := rfl
@[simp] theorem shutdown_turnNo (s : State) : (shutdown s).turnNo = s.turnNo := rfl

/-! ## `enqueue` (R94) -/

@[simp] theorem enqueue_cfg (ev : BusEvent) (s : State) : (enqueue ev s).cfg = s.cfg := by
  unfold enqueue; dsimp only; split <;> rfl

@[simp] theorem enqueue_hcc (ev : BusEvent) (s : State) : (enqueue ev s).hcc = s.hcc := by
  unfold enqueue; dsimp only; split <;> rfl

@[simp] theorem enqueue_rc (ev : BusEvent) (s : State) : (enqueue ev s).rc = s.rc := by
  unfold enqueue; dsimp only; split <;> rfl

@[simp] theorem enqueue_pressed (ev : BusEvent) (s : State) : (enqueue ev s).pressed = s.pressed := by
  unfold enqueue; dsimp only; split <;> rfl

@[simp] theorem enqueue_released (ev : BusEvent) (s : State) : (enqueue ev s).released = s.released := by
  unfold enqueue; dsimp only; split <;> rfl

@[simp] theorem enqueue_wr (ev : BusEvent) (s : State) : (enqueue ev s).wr = indexNext s.cfg s.wr := by
  unfold enqueue; dsimp only; split <;> rfl

@[simp] theorem enqueue_dOut (ev : BusEvent) (s : State) : (enqueue ev s).dOut = s.dOut := by
  unfold enqueue; dsimp only; split <;> rfl

@[simp] theorem enqueue_dOE (ev : BusEvent) (s : State) : (enqueue ev s).dOE = s.dOE := by
  unfold enqueue; dsimp only; split <;> rfl

@[simp] theorem enqueue_armed (ev : BusEvent) (s : State) : (enqueue ev s).armed = s.armed := by
  unfold enqueue; dsimp only; split <;> rfl

@[simp] theorem enqueue_slots (ev : BusEvent) (s : State) : (enqueue ev s).slots = slotWrite s.slots (slotOf s.cfg s.wr) (packEvent ev) := by
  unfold enqueue; dsimp only; split <;> rfl

@[simp] theorem enqueue_cache (ev : BusEvent) (s : State) : (enqueue ev s).cache = s.cache := by
  unfold enqueue; dsimp only; split <;> rfl

@[simp] theorem enqueue_rd (ev : BusEvent) (s : State) : (enqueue ev s).rd = if s.isFull then indexNext s.cfg s.rd else s.rd := by
  unfold enqueue; dsimp only; split <;> rename_i h
  · exact (if_pos h).symm
  · exact (if_neg h).symm

@[simp] theorem enqueue_ce (ev : BusEvent) (s : State) : (enqueue ev s).ce = s.ce := by
  unfold enqueue; dsimp only; split <;> rfl

@[simp] theorem enqueue_carry (ev : BusEvent) (s : State) : (enqueue ev s).carry = s.carry := by
  unfold enqueue; dsimp only; split <;> rfl

@[simp] theorem enqueue_freq (ev : BusEvent) (s : State) : (enqueue ev s).freq = s.freq := by
  unfold enqueue; dsimp only; split <;> rfl

@[simp] theorem enqueue_inc (ev : BusEvent) (s : State) : (enqueue ev s).inc = s.inc := by
  unfold enqueue; dsimp only; split <;> rfl

@[simp] theorem enqueue_target (ev : BusEvent) (s : State) : (enqueue ev s).target = s.target := by
  unfold enqueue; dsimp only; split <;> rfl

@[simp] theorem enqueue_phase (ev : BusEvent) (s : State) : (enqueue ev s).phase = s.phase := by
  unfold enqueue; dsimp only; split <;> rfl

@[simp] theorem enqueue_mode (ev : BusEvent) (s : State) : (enqueue ev s).mode = s.mode := by
  unfold enqueue; dsimp only; split <;> rfl

@[simp] theorem enqueue_nout (ev : BusEvent) (s : State) : (enqueue ev s).nout = s.nout := by
  unfold enqueue; dsimp only; split <;> rfl

@[simp] theorem enqueue_left (ev : BusEvent) (s : State) : (enqueue ev s).left = s.left := by
  unfold enqueue; dsimp only; split <;> rfl

@[simp] theorem enqueue_right (ev : BusEvent) (s : State) : (enqueue ev s).right = s.right := by
  unfold enqueue; dsimp only; split <;> rfl

@[simp] theorem enqueue_calState (ev : BusEvent) (s : State) : (enqueue ev s).calState = s.calState := by
  unfold enqueue; dsimp only; split <;> rfl

@[simp] theorem enqueue_tstart (ev : BusEvent) (s : State) : (enqueue ev s).tstart = s.tstart := by
  unfold enqueue; dsimp only; split <;> rfl

@[simp] theorem enqueue_t0 (ev : BusEvent) (s : State) : (enqueue ev s).t0 = s.t0 := by
  unfold enqueue; dsimp only; split <;> rfl

@[simp] theorem enqueue_c0 (ev : BusEvent) (s : State) : (enqueue ev s).c0 = s.c0 := by
  unfold enqueue; dsimp only; split <;> rfl

@[simp] theorem enqueue_tgreg (ev : BusEvent) (s : State) : (enqueue ev s).tgreg = s.tgreg := by
  unfold enqueue; dsimp only; split <;> rfl

@[simp] theorem enqueue_env (ev : BusEvent) (s : State) : (enqueue ev s).env = s.env := by
  unfold enqueue; dsimp only; split <;> rfl

@[simp] theorem enqueue_tgCalls (ev : BusEvent) (s : State) : (enqueue ev s).tgCalls = s.tgCalls := by
  unfold enqueue; dsimp only; split <;> rfl

@[simp] theorem enqueue_sink (ev : BusEvent) (s : State) : (enqueue ev s).sink = s.sink := by
  unfold enqueue; dsimp only; split <;> rfl

@[simp] theorem enqueue_readPort (ev : BusEvent) (s : State) : (enqueue ev s).readPort = s.readPort := by
  unfold enqueue; dsimp only; split <;> rfl

@[simp] theorem enqueue_agenda (ev : BusEvent) (s : State) : (enqueue ev s).agenda = s.agenda := by
  unfold enqueue; dsimp only; split <;> rfl

@[simp] theorem enqueue_turnNo (ev : BusEvent) (s : State) : (enqueue ev s).turnNo = s.turnNo := by
  unfold enqueue; dsimp only; split <;> rfl


end Sys2Proof.Machine
end

