-- ==== Sys2Proof/Laws/Ops.lean ====
section
/-! SUPPORT. One lemma for each shared operation that says once what it can do; later proofs cite it and do not unfold
the operation. -/

namespace Sys2Proof.Machine

open Sys2Proof

/-! ## FIFO indices (R91, R92) -/

/-- The index difference without modular arithmetic, for indices of LOG2CAP + 1 bits (R92). -/
theorem indexDiff_eq {p : Params} {a b : Nat} (ha : a < 2 ^ (p.log2cap + 1)) (hb : b < 2 ^ (p.log2cap + 1)) :
    indexDiff p a b = if b ≤ a then a - b else a + 2 ^ (p.log2cap + 1) - b := by
  unfold indexDiff
  have hc : ((2 : Int) ^ (p.log2cap + 1)) = ((2 ^ (p.log2cap + 1) : Nat) : Int) := by norm_cast
  rw [hc]
  generalize 2 ^ (p.log2cap + 1) = C at *
  split
  · rw [Int.emod_eq_of_lt] <;> omega
  · rw [← Int.add_emod_right, Int.emod_eq_of_lt] <;> omega

/-- The next index without modular arithmetic (R94, R95). -/
theorem indexNext_eq {p : Params} {i : Nat} (hi : i < 2 ^ (p.log2cap + 1)) :
    indexNext p i = if i + 1 = 2 ^ (p.log2cap + 1) then 0 else i + 1 := by
  unfold indexNext indexTrunc
  split
  · rename_i h
    rw [h, Nat.mod_self]
  · exact Nat.mod_eq_of_lt (by omega)

/-- An index stays in its LOG2CAP + 1 bits. -/
theorem indexNext_lt (p : Params) (i : Nat) : indexNext p i < 2 ^ (p.log2cap + 1) := Nat.mod_lt _ (Nat.two_pow_pos _)

/-- The slot an index addresses does not depend on the index's top bit (R91). -/
theorem slotOf_indexTrunc (p : Params) (i : Nat) : slotOf p (indexTrunc p i) = slotOf p i := by
  unfold slotOf indexTrunc
  rw [Nat.pow_succ, Nat.mod_mul_right_mod]

/-- Two offsets below CAP from one index address one slot only if they are equal (R91). -/
theorem slotOf_add_inj {p : Params} {i j k : Nat} (hj : j < Params.capacity p) (hk : k < Params.capacity p)
    (h : slotOf p (i + j) = slotOf p (i + k)) : j = k := by
  unfold Params.capacity at hj hk
  unfold slotOf at h
  have h' : j % 2 ^ p.log2cap = k % 2 ^ p.log2cap := Nat.ModEq.add_left_cancel' i h
  rwa [Nat.mod_eq_of_lt hj, Nat.mod_eq_of_lt hk] at h'

/-! ## The FIFO (R94, R95) -/

/-- OCC depends on the configuration and the two indices alone (R92). -/
theorem occ_congr {s t : State} (hc : s.cfg = t.cfg) (hw : s.wr = t.wr) (hr : s.rd = t.rd) : s.occ = t.occ := by
  unfold State.occ
  rw [hc, hw, hr]

/-- FULL is `OCC = CAP` (R43). -/
theorem fifoFull_iff (s : State) : s.isFull = true ↔ s.occ = 2 ^ s.cfg.log2cap :=
  decide_eq_true_iff (p := s.occ = Params.capacity s.cfg)

/-- EMPTY is `WR = RD` (R43). -/
theorem fifoEmpty_iff (s : State) : s.isEmpty = true ↔ s.wr = s.rd :=
  decide_eq_true_iff

/-- Enqueue changes slots, WR and, when full, RD, and nothing else (R94). -/
theorem enqueue_eq (ev : BusEvent) (s : State) :
    enqueue ev s = { s with
      slots := slotWrite s.slots (slotOf s.cfg s.wr) (packEvent ev)
      wr := indexNext s.cfg s.wr
      rd := if s.isFull then indexNext s.cfg s.rd else s.rd } := by
  have h := enqueue_rd ev s
  unfold enqueue at *
  dsimp only at *
  split
  · rename_i hf
    rw [if_pos (show s.isFull = true from hf)]
  · rename_i hf
    rw [if_neg (show ¬ s.isFull = true from hf)]

/-- Every way TryDequeueDueBy can answer (R95). -/
theorem tryDequeueDueBy_cases {y : Word64} {s t : State} {m : Option BusEvent}
    (h : tryDequeueDueBy y s = .ok (m, t)) :
    (m = none ∧ t = { s with readPort := none } ∧
      (s.wr = s.rd ∨ s.wr ≠ s.rd ∧ ∃ w, headSlot s = some w ∧ ¬ (unpackEvent w).atCycle ≤ y)) ∨
    (∃ w, s.wr ≠ s.rd ∧ headSlot s = some w ∧ (unpackEvent w).atCycle ≤ y ∧ m = some (unpackEvent w) ∧
      t = { s with rd := indexNext s.cfg s.rd, readPort := some (unpackEvent w) }) := by
  unfold tryDequeueDueBy at h
  split at h
  · rename_i he
    simp only [Except.ok.injEq, Prod.mk.injEq] at h
    exact .inl ⟨h.1.symm, h.2.symm, .inl (by simpa [State.isEmpty] using he)⟩
  · rename_i he
    have hne : s.wr ≠ s.rd := by simpa [State.isEmpty] using he
    split at h
    · cases h
    · rename_i w hw
      split at h
      · rename_i hd
        simp only [Except.ok.injEq, Prod.mk.injEq] at h
        exact .inr ⟨w, hne, hw, hd, h.1.symm, h.2.symm⟩
      · rename_i hd
        simp only [Except.ok.injEq, Prod.mk.injEq] at h
        exact .inl ⟨h.1.symm, h.2.symm, .inr ⟨hne, w, hw, hd⟩⟩

/-- When TryDequeueDueBy stops: a queued head slot without a value (R31). -/
theorem tryDequeueDueBy_error {y : Word64} {s : State} {f : Fault} :
    tryDequeueDueBy y s = .error f ↔ s.wr ≠ s.rd ∧ headSlot s = none ∧ f = .slotNeverWritten := by
  unfold tryDequeueDueBy
  by_cases he : s.wr = s.rd
  · simp [State.isEmpty, he]
  · rw [if_neg (by simpa [State.isEmpty] using he)]
    cases hw : headSlot s with
    | none => simp [he]
    | some w =>
      by_cases hd : (unpackEvent w).atCycle ≤ y <;> simp [hd]

/-- An empty FIFO answers none (R95). -/
theorem tryDequeueDueBy_empty {s : State} (y : Word64) (h : s.wr = s.rd) :
    tryDequeueDueBy y s = .ok (none, { s with readPort := none }) := by
  unfold tryDequeueDueBy
  rw [if_pos (by simpa [State.isEmpty] using h)]

/-- A due head is consumed and answered (R95). -/
theorem tryDequeueDueBy_hit {s : State} {y : Word64} {w : EventWord} (hne : s.wr ≠ s.rd)
    (hw : headSlot s = some w) (hd : (unpackEvent w).atCycle ≤ y) :
    tryDequeueDueBy y s = .ok (some (unpackEvent w),
      { s with rd := indexNext s.cfg s.rd, readPort := some (unpackEvent w) }) := by
  unfold tryDequeueDueBy
  rw [if_neg (by simpa [State.isEmpty] using hne), hw]
  exact if_pos hd

/-- A head that is not due stays (R95). -/
theorem tryDequeueDueBy_miss {s : State} {y : Word64} {w : EventWord} (hne : s.wr ≠ s.rd)
    (hw : headSlot s = some w) (hd : ¬ (unpackEvent w).atCycle ≤ y) :
    tryDequeueDueBy y s = .ok (none, { s with readPort := none }) := by
  unfold tryDequeueDueBy
  rw [if_neg (by simpa [State.isEmpty] using hne), hw]
  exact if_neg hd

/-! ## The agents' gates and the decoder step -/

/-- CONS performs its phase while it runs (R123). -/
theorem whileConsRuns_eq (f : State → State) {s : State} (h : s.consRuns = true) : whileConsRuns f s = f s := if_pos h

/-- CONS has no step in HALTED and STOPPED (R123). -/
theorem whileConsRuns_stopped (f : State → State) {s : State} (h : s.consRuns = false) : whileConsRuns f s = s :=
  if_neg (by simp [h])

/-- MODE decides whether CONS runs (R123). -/
theorem consRuns_iff (s : State) : s.consRuns = true ↔ s.mode ≠ .halted ∧ s.mode ≠ .stopped := by
  simp [State.consRuns]

/-- The decoder step while armed (R79). -/
theorem decoderStep_eq (rst : Bool) (kind : State → State) {s : State} (h : s.armed = true) :
    decoderStep rst kind s = countCycle (kind (releaseData (debounce rst s))) := if_pos h

/-- No decoder step while disarmed (R78): the bus cycle only ends a drive (R29, R86). -/
theorem decoderStep_disarmed (rst : Bool) (kind : State → State) {s : State} (h : s.armed = false) :
    decoderStep rst kind s = releaseData s := if_neg (by simp [h])

/-- The debounce as one record update (R82). -/
theorem debounce_eq (rst : Bool) (s : State) :
    debounce rst s = { s with
      rc := if rst then s.rc + 1 else s.rc
      pressed := rst
      released := s.released || (!rst && s.pressed) } := by
  obtain ⟨⟩ := s
  cases rst <;> simp [debounce]
  rename_i pressed _ _ _ _ _ _ _ _ _ _ _ _ _ _ _ _ _ _ _ _ _ _ _ _ _ _ _ _ _
  cases pressed <;> simp

/-! ## The sequencer -/

/-- The loop test as one record update (R126, R129). -/
theorem loopTest_eq (s : State) :
    loopTest s = { s with
      phase := if s.behind then phAccStep else phMixOut
      mode := if s.behind = false ∧ s.mode = .catchup then .playing else s.mode } := by
  cases h : s.behind
  · by_cases hm : s.mode = .catchup <;> simp [loopTest, h, notePlaying, hm, goTo]
  · simp [loopTest, h, goTo]

/-- The cases of FETCH_TARGET, in their order (R126, R147). -/
theorem fetchTarget_cases (s : State) :
    (s.env.shutdownReq = true ∧ fetchTarget s = shutdown s) ∨
    (s.env.shutdownReq = false ∧ s.resetDue = true ∧ fetchTarget s = enterReset s) ∨
    (s.env.shutdownReq = false ∧ s.resetDue = false ∧ fetchTarget s = loopTest { s with target := s.hcc }) := by
  cases h1 : s.env.shutdownReq <;> cases h2 : s.resetDue <;> simp [fetchTarget, h1, h2]

/-- What a refreshed cache holds (R128). -/
theorem cacheRefresh_at (s : State) (r : RegNum) : cacheAt (cacheRefresh s) r = tgReadAnswer s r := by
  simp [cacheAt, cacheRefresh, tgReadAnswer, goTo]

/-- Every register is 0 after the clear (R134). -/
theorem resetClear_tgRegAt (s : State) (c : ChipIndex) (r : RegNum) : tgRegAt (resetClear s) c r = 0x00 := by
  have h : ∃ p ∈ allChipRegs, tgAddr p.1 p.2 = tgAddr c r := ⟨(c, r), mem_allChipRegs c r, rfl⟩
  unfold tgRegAt resetClear
  simp only [leaveReset_tgreg, tgClear_tgreg, memRead_clear]
  exact if_pos h

/-- The pairs of RESET_CLEAR in their order, as one table (R134). -/
theorem allChipRegs_eq :
    allChipRegs = (List.range 256).map fun k => (BitVec.ofNat 3 (k / 32), BitVec.ofNat 5 (k % 32)) := by
  decide +kernel

/-- A clear of any list of registers and the return to the loop, as one record update (R134). -/
theorem leaveReset_tgClear (pairs : List (ChipIndex × RegNum)) (s : State) :
    leaveReset { tgClear pairs s with rc := 0, released := false, carry := 0 } = { s with
      tgreg := (tgClear pairs s).tgreg
      tgCalls := (pairs.map fun p => TGCall.write p.1 p.2 0x00).reverse ++ s.tgCalls
      rc := 0
      released := false
      carry := 0
      mode := .playing
      phase := phFetchTarget } := rfl

/-- RESET_CLEAR as one record update (R134). -/
theorem resetClear_eq (s : State) :
    resetClear s = { s with
      tgreg := (tgClear allChipRegs s).tgreg
      tgCalls := (allChipRegs.map fun p => TGCall.write p.1 p.2 0x00).reverse ++ s.tgCalls
      rc := 0
      released := false
      carry := 0
      mode := .playing
      phase := phFetchTarget } := leaveReset_tgClear allChipRegs s

/-- The reads of any list of registers with a new cache, as one record update (R128). -/
theorem goTo_recordReads (regs : List RegNum) (v : Vector Byte 32) (s : State) :
    goTo phDrainApply { recordCalls (regs.map fun r => .read 0 r) s with cache := v } = { s with
      cache := v
      tgCalls := (regs.map fun r => TGCall.read 0 r).reverse ++ s.tgCalls
      phase := phDrainApply } := rfl

/-- CACHE_REFRESH as one record update (R128). -/
theorem cacheRefresh_eq (s : State) :
    cacheRefresh s = { s with
      cache := Vector.ofFn fun r => tgReadAnswer s (BitVec.ofFin r)
      tgCalls := (allRegs.map fun r => TGCall.read 0 r).reverse ++ s.tgCalls
      phase := phDrainApply } := goTo_recordReads allRegs _ s

/-- One register write: that register, and no other (R136). -/
theorem tgWrite_tgRegAt (c : ChipIndex) (r : RegNum) (v : Byte) (s : State) (c' : ChipIndex) (r' : RegNum) :
    tgRegAt (tgWrite c r v s) c' r' = if c' = c ∧ r' = r then v else tgRegAt s c' r' := by
  unfold tgRegAt
  rw [tgWrite_tgreg, memRead_memWrite]
  simp only [tgAddr_inj]

/-! ## The accumulator and the calibrator -/

/-- The two halves of the sum (R104). -/
theorem accumulate_toNat (s : State) :
    (accumulate s).nout.toNat = (s.inc.toNat + s.carry.toNat) / 2 ^ 16 % 2 ^ 16 ∧
    (accumulate s).carry.toNat = (s.inc.toNat + s.carry.toNat) % 2 ^ 16 := by
  have h1 := s.inc.isLt
  have h2 := s.carry.isLt
  constructor
  · simp [accumulate, BitVec.extractLsb'_toNat, Nat.shiftRight_eq_div_pow]
    omega
  · simp [accumulate, BitVec.extractLsb'_toNat]
    omega

/-- Every way one CALIBRATE step can end (R109, R145). -/
theorem calibrateStep_cases (s : State) :
    (s.mode = .init ∧ calibrateStep s = calibrateStart s) ∨
    (s.mode ≠ .init ∧ s.calState = .live ∧ s.cfg.minLiveCycles ≤ s.hcc.toNat ∧
      calibrateStep s = { s with t0 := s.env.wallClock, c0 := s.hcc, calState := .window }) ∨
    (s.mode ≠ .init ∧ s.calState ≠ .done ∧ calibrateStep s = raiseCalibrationFailure s) ∨
    (s.mode ≠ .init ∧ calibrateStep s = s) ∨
    (s.mode ≠ .init ∧ s.calState = .window ∧ ∃ f : Nat, 1 ≤ f ∧ f < 2 ^ 32 ∧ 1 ≤ s.cfg.sampleRate ∧
      incrementOf f s.cfg.sampleRate ≤ 2 ^ 32 - 2 ^ 16 ∧
      calibrateStep s = goTo phFetchTarget { s with
        freq := BitVec.ofNat 32 f
        inc := BitVec.ofNat 32 (incrementOf f s.cfg.sampleRate)
        calState := .done
        mode := .catchup }) := by
  by_cases hm : s.mode = .init
  · exact .inl ⟨hm, by simp [calibrateStep, hm]⟩
  · cases hc : s.calState with
    | live =>
      by_cases hl : s.cfg.minLiveCycles ≤ s.hcc.toNat
      · exact .inr (.inl ⟨hm, rfl, hl, by simp [calibrateStep, hm, hc, calibrateLive, hl]⟩)
      · by_cases ht : elapsedUs s.env.wallClock s.tstart > (s.cfg.livenessTimeoutUs : Int)
        · exact .inr (.inr (.inl ⟨hm, by simp, by simp [calibrateStep, hm, hc, calibrateLive, hl, ht]⟩))
        · exact .inr (.inr (.inr (.inl ⟨hm, by simp [calibrateStep, hm, hc, calibrateLive, hl, ht]⟩)))
    | window =>
      by_cases hw : elapsedUs s.env.wallClock s.t0 ≥ (s.cfg.calWindowUs : Int)
      · have heq : calibrateStep s = calibrateFinish
            (measuredFrequency (s.hcc - s.c0).toNat (elapsedUs s.env.wallClock s.t0).toNat) s := by
          unfold calibrateStep
          rw [if_neg hm, hc]
          exact if_pos hw
        rw [heq]
        generalize measuredFrequency (s.hcc - s.c0).toNat (elapsedUs s.env.wallClock s.t0).toNat = f
        unfold calibrateFinish
        split
        · exact .inr (.inr (.inl ⟨hm, by simp, rfl⟩))
        · rename_i hf
          exact .inr (.inr (.inr (.inr ⟨hm, rfl, f, by omega, by omega, by omega, by omega, rfl⟩)))
      · exact .inr (.inr (.inr (.inl ⟨hm, by simp [calibrateStep, hm, hc, calibrateWindow, hw]⟩)))
    | done => exact .inr (.inr (.inr (.inl ⟨hm, by simp [calibrateStep, hm, hc]⟩)))

/-! ## The mixer -/

/-- A clipped half lies within [-32767, 32767] (R118). -/
theorem clipHalf_range (v : Int) : -32767 ≤ clipHalf v ∧ clipHalf v ≤ 32767 := by
  unfold clipHalf clamp
  split <;> [skip; split] <;> omega

/-- A sample holds every value of the mixer's output range (R39). -/
theorem sample_toInt_ofInt {v : Int} (h1 : -32768 ≤ v) (h2 : v ≤ 32767) : (BitVec.ofInt 16 v : Sample).toInt = v := by
  rw [BitVec.toInt_ofInt, Int.bmod_eq_of_le] <;> omega

/-- What the mixer leaves in LEFT and RIGHT, as integers (R115). -/
theorem mix_toInt (s : State) :
    (mix s).left.toInt = clipHalf (sumLeft s) ∧ (mix s).right.toInt = clipHalf (sumRight s) := by
  have h1 := clipHalf_range (sumLeft s)
  have h2 := clipHalf_range (sumRight s)
  exact ⟨sample_toInt_ofInt (by omega) (by omega), sample_toInt_ofInt (by omega) (by omega)⟩

/-! ## The next turn and the step -/

/-- Taking the next turn changes the agenda or the environment's counter only. -/
theorem nextTurn_eq (s : State) :
    (nextTurn s).2 = { s with agenda := (nextTurn s).2.agenda, turnNo := (nextTurn s).2.turnNo } := by
  unfold nextTurn
  split <;> rfl

/-- A fetch changes the agenda, the environment's counter and the presented inputs only. -/
theorem fetch_eq (s : State) :
    (fetch s).2 = { s with
      agenda := (nextTurn s).2.agenda, turnNo := (nextTurn s).2.turnNo, env := (fetch s).2.env } := by
  have h := nextTurn_eq s
  unfold fetch latchInputs
  dsimp only
  split <;> exact h ▸ rfl

/-- When the wall clock runs back: a consumer turn of CALIBRATING with a reading below the last (U24). -/
theorem clockRunsBack_iff (t : Turn) (s : State) :
    clockRunsBack t s = true ↔
      ∃ e, t = .agent (.consumer e) ∧ s.mode = .calibrating ∧ e.wallClock.toNat < s.env.wallClock.toNat := by
  match t with
  | .agent (.consumer e) => simp [clockRunsBack, BitVec.lt_def]
  | .agent (.producer _) => simp [clockRunsBack]
  | .fifoWrite _ _ => simp [clockRunsBack]
  | .fifoRead _ => simp [clockRunsBack]

/-- Every way a step answers a next state. -/
theorem step_cases {s t : State} (h : step s = .next t) :
    s.cfg.legal = true ∧ clockRunsBack (nextTurn s).1 s = false ∧
    ((∃ i, decode (turnWord (nextTurn s).1 (nextTurn s).2) = .ok i ∧ exec i (fetch s).2 = .next t) ∨
     (∃ e, decode (turnWord (nextTurn s).1 (nextTurn s).2) = .error e ∧ t = (fetch s).2)) := by
  unfold step at h
  split at h
  · rename_i hl
    split at h
    · cases h
    rename_i hb
    refine ⟨hl, by simpa using hb, ?_⟩
    cases hd : decode (turnWord (nextTurn s).1 (nextTurn s).2) with
    | ok i =>
      refine .inl ⟨i, rfl, ?_⟩
      have hf : fetch s = (.ok i, (fetch s).2) := Prod.ext hd rfl
      rw [hf] at h
      exact h
    | error e =>
      refine .inr ⟨e, rfl, ?_⟩
      have hf : fetch s = (.error e, (fetch s).2) := Prod.ext hd rfl
      rw [hf] at h
      exact (Host.Outcome.next.inj h).symm
  · cases h

/-- A run of one step more begins with that step. -/
theorem run_succ_next {n : Nat} {s t : State} (h : step s = .next t) :
    Host.Core.run Sys2Proof.core (n + 1) s = Host.Core.run Sys2Proof.core n t := by
  simp only [Host.Core.run]
  rw [show Sys2Proof.core.step s = .next t from h]

/-- A run goes on where a shorter one ends. -/
theorem run_add {m n : Nat} {s t : State} (h : Host.Core.run Sys2Proof.core m s = .next t) :
    Host.Core.run Sys2Proof.core (m + n) s = Host.Core.run Sys2Proof.core n t := by
  induction m generalizing s with
  | zero =>
    cases h
    rw [Nat.zero_add]
  | succ m ih =>
    rw [Nat.add_right_comm]
    cases hs : step s with
    | next u =>
      rw [run_succ_next hs] at h ⊢
      exact ih h
    | fault f =>
      simp only [Host.Core.run] at h
      rw [show Sys2Proof.core.step s = .fault f from hs] at h
      cases h
    | refused r =>
      simp only [Host.Core.run] at h
      rw [show Sys2Proof.core.step s = .refused r from hs] at h
      cases h

end Sys2Proof.Machine
end

