-- ==== Sys2Proof/Laws/PerInstr.lean ====
section
/-! SUPPORT. One statement about every operation as syntax: the word that encodes it matches its row of
spec/opcode_table.json (30_encoding.md R67, R73, R74). -/

namespace Sys2Proof

/-- SEL and RW of a sample of the chip region, whatever the other fields (R67, the mask of READ and WRITE). -/
theorem busWord_and (rst rw : Bool) (d : Byte) (ci : ChipIndex) (reg : RegNum) :
    busWord rst true rw d ci reg &&& 0x30000#19 = if rw then 0x30000#19 else 0x20000#19 := by
  unfold busWord
  ext i hi
  simp only [BitVec.getElem_and, BitVec.getElem_append]
  interval_cases i <;> cases rw <;> simp

/-- SEL of a sample outside the chip region (R67, the mask of IDLE). -/
theorem busWord_and_sel (rst rw : Bool) (d : Byte) (ci : ChipIndex) (reg : RegNum) :
    busWord rst false rw d ci reg &&& 0x20000#19 = 0x00000#19 := by
  unfold busWord
  ext i hi
  simp only [BitVec.getElem_and, BitVec.getElem_append]
  interval_cases i <;> simp

/-- The enable bit of a request (R73). -/
theorem requestWord_and (cycle : Word64) :
    requestWord true cycle &&& 0x10000000000000000#65 = 0x10000000000000000#65 := by
  have h2 : (0x10000000000000000#65) = BitVec.twoPow 65 64 := by decide
  rw [h2]
  unfold requestWord
  ext i hi
  simp only [BitVec.getElem_and, BitVec.getElem_append, BitVec.getElem_twoPow]
  by_cases h : i = 64
  · subst h
    simp
  · simp [h]

/-- A word on a row's port with the row's match under its mask matches the row. -/
theorem PortWord.matchesRow_of {w : PortWord} {i : Instr} (hp : w.port = i.row.1)
    (hb : w.bits &&& i.row.2.1 = i.row.2.2) : w.matchesRow i = true := by
  simp [PortWord.matchesRow, hp, hb]

namespace Laws.RowMatch

/-- The word that encodes `i` is on the port of `i`'s row and equals the row's match under its mask. -/
def Statement (i : Instr) : Prop := (encode i).matchesRow i = true

theorem idle (rst : Bool) : Statement (.idle rst) := by
  have h := congrArg BitVec.toNat (busWord_and_sel rst false 0 0 0)
  rw [BitVec.toNat_and] at h
  exact PortWord.matchesRow_of rfl h

theorem read (rst : Bool) (reg : RegNum) : Statement (.read rst reg) := by
  have h := congrArg BitVec.toNat (busWord_and rst true 0 0 reg)
  rw [BitVec.toNat_and] at h
  exact PortWord.matchesRow_of rfl h

theorem write (rst : Bool) (d : Byte) (ci : ChipIndex) (reg : RegNum) : Statement (.write rst d ci reg) := by
  have h := congrArg BitVec.toNat (busWord_and rst false d ci reg)
  rw [BitVec.toNat_and] at h
  exact PortWord.matchesRow_of rfl h

theorem fetchTarget : Statement .fetchTarget := by unfold Statement; decide

theorem accStep : Statement .accStep := by unfold Statement; decide

theorem tgAdvance : Statement .tgAdvance := by unfold Statement; decide

theorem cacheRefresh : Statement .cacheRefresh := by unfold Statement; decide

theorem drainApply : Statement .drainApply := by unfold Statement; decide

theorem mixOut : Statement .mixOut := by unfold Statement; decide

theorem resetClear : Statement .resetClear := by unfold Statement; decide

theorem calibrate : Statement .calibrate := by unfold Statement; decide

theorem enqueue (ev : BusEvent) : Statement (.enqueue ev) := by
  exact PortWord.matchesRow_of rfl (Nat.and_zero _)

theorem tryDequeueDueBy (cycle : Word64) : Statement (.tryDequeueDueBy cycle) := by
  have h := congrArg BitVec.toNat (requestWord_and cycle)
  rw [BitVec.toNat_and] at h
  exact PortWord.matchesRow_of rfl h

end Laws.RowMatch

end Sys2Proof
end

