-- ==== Sys2Proof/Tests/Slice0.lean ====
section
/-! SUPPORT. Small tests of one step each, with expected values from spec/95_test_vectors.md or worked by hand from the
rule a comment names, and for every obligation with hypotheses a concrete state and operands that meet them. -/

namespace Sys2Proof.Tests

open Sys2Proof Sys2Proof.Machine

/-! ## Sample states -/

/-- One value read from the next state; none where there is no next state. -/
def after {α : Type} (o : Host.Outcome State Fault Refusal) (f : State → α) : Option α :=
  match o with
  | .next t => some (f t)
  | .fault _ => none
  | .refused _ => none

/-- LOG2CAP = 2, so CAP = 4, as in 95_test_vectors.md 2.2 and 2.3. -/
def smallCfg : Params := { Params.default with log2cap := 2 }

/-- After initialisation, with the small FIFO. -/
def start : State := State.resetWith smallCfg

/-- A calibrated machine at the top of its loop (`F = 985248`, 95_test_vectors.md). -/
def playing : State :=
  { start with
    armed := true, mode := .playing, calState := .done, phase := phFetchTarget
    freq := 985248, inc := 0x0016575A }

/-- Calibration under way, in the liveness wait. -/
def waiting : State := { start with mode := .calibrating, armed := true }

/-- The events `eK` of 95_test_vectors.md 2.3. -/
def sampleEvent (k : Nat) : BusEvent :=
  { chipIndex := 1, register := BitVec.ofNat 5 k, value := BitVec.ofNat 8 (0xA0 + k), atCycle := BitVec.ofNat 64 k }

/-- The FIFO holds `e0 .. e3` and is full. -/
def full : State :=
  { playing with
    hcc := 4, wr := 4
    slots := [(0, packEvent (sampleEvent 0)), (1, packEvent (sampleEvent 1)), (2, packEvent (sampleEvent 2)),
              (3, packEvent (sampleEvent 3))] }

/-- The one event of 95_test_vectors.md S9, `{chip 2, register 5, 0x3F, @100}`. -/
def oneEvent : State := { playing with hcc := 101, wr := 1, slots := [(0, 0x00000000000000643F45#80)] }

/-- `oneEvent` at emulated cycle 100, in DRAIN_APPLY. -/
def due : State :=
  { oneEvent with
    ce := 100, target := 101, phase := phDrainApply, tgCalls := allChips.map fun c => .advance c 100 }

/-- A reset is due: `RESET 5` with RESET_THRESHOLD = 3 (44_sequencer.md R134). -/
def resetDue : State := { playing with rc := 5, released := true, carry := 0x575A, tgreg := [(0, 1), (69, 0x3F)] }

/-- The answers of a consumer turn, all 0 but for what is said. -/
def answers (shutdown : Bool) (now : Word64) (regs : List (Nat × Byte)) (outs : List Int) : EnvInputs where
  shutdownReq := shutdown
  wallClock := now
  tgRead := Vector.ofFn fun r => ((regs.find? fun p => p.1 = r.val).map Prod.snd).getD 0
  tgOutput := Vector.ofFn fun c => BitVec.ofInt 16 (outs.getD c.val 0)

/-- The liveness wait after a reading of `prev` microseconds, with a turn of CONS that reads `now`. -/
def timed (prev now : Word64) : State :=
  { waiting with env := answers false prev [] [], agenda := [.agent (.consumer (answers false now [] []))] }

/-- No answer but 0. -/
def quiet : EnvInputs := EnvInputs.zero

/-- A state whose FIFO is empty and whose histories are empty meets the invariant when its control state does. -/
theorem inv_of_empty {s : State} (hcontrol : controlOk s) (hcfg : s.cfg = smallCfg := by rfl)
    (hwr : s.wr = 0 := by rfl) (hrd : s.rd = 0 := by rfl) (hslots : s.slots = [] := by rfl)
    (hmem : Memory.wf 256 s.tgreg := by decide) (hcarry : s.carry.toNat < 2 ^ 16 := by decide)
    (hinc : s.calState = .done → s.inc.toNat ≤ 2 ^ 32 - 2 ^ 16 := by decide) (hleft : s.left = 0 := by rfl)
    (hright : s.right = 0 := by rfl) (hdrive : s.dOE = s.dOut.isSome := by rfl) (hcalls : s.tgCalls = [] := by rfl)
    (hce : s.ce = 0 := by rfl) (hclock : clockOk s := by decide) : Inv s := by
  have hocc : s.occ = 0 := by simp [State.occ, indexDiff, hwr, hrd]
  refine ⟨by rw [hcfg]; decide, ⟨by rw [hwr]; exact Nat.two_pow_pos _, by rw [hrd]; exact Nat.two_pow_pos _, ?_, ?_, ?_⟩,
    hmem, hcarry, hinc, by rw [hleft]; decide, by rw [hright]; decide, hdrive, ?_, hcontrol, hclock⟩
  · rw [hocc]
    exact Nat.zero_le _
  · rw [hslots]
    exact ⟨List.Pairwise.nil, by simp⟩
  · intro k hk
    omega
  · intro c
    rw [hcalls, hce]
    rfl

theorem inv_playing : Inv playing :=
  inv_of_empty ⟨by decide, rfl, rfl⟩

theorem inv_resetDue : Inv resetDue :=
  inv_of_empty ⟨by decide, rfl, rfl⟩

theorem fifoInv_full : FifoInv full := by
  have hocc : full.occ = 4 := by decide
  refine ⟨by decide, by decide, by decide, by decide, ?_⟩
  rw [hocc]
  decide

theorem inv_full : Inv full :=
  ⟨by decide, fifoInv_full, by decide, by decide, by decide, by decide, by decide, rfl, by decide,
    ⟨by decide, rfl, rfl⟩, by decide⟩

theorem fifoInv_due : FifoInv due := by
  have hocc : due.occ = 1 := by decide
  refine ⟨by decide, by decide, by decide, by decide, ?_⟩
  rw [hocc]
  decide

theorem inv_due : Inv due :=
  ⟨by decide, fifoInv_due, by decide, by decide, by decide, by decide, by decide, rfl, by decide,
    ⟨by decide, rfl, rfl⟩, by decide⟩

/-! ## Well-formedness: each range of R11 refuses a value outside it (U16) -/

theorem test_default_parameters_are_legal : Params.default.legal = true := by decide

theorem test_log2cap_out_of_range :
    { smallCfg with log2cap := 0 }.legal = false ∧ { smallCfg with log2cap := 32 }.legal = false := by decide

theorem test_sampleRate_out_of_range :
    { smallCfg with sampleRate := 0 }.legal = false ∧ { smallCfg with sampleRate := 2 ^ 32 }.legal = false := by decide

theorem test_stepCycles_out_of_range :
    { smallCfg with stepCycles := 0 }.legal = false ∧ { smallCfg with stepCycles := 2 ^ 16 }.legal = false := by decide

theorem test_resetThreshold_out_of_range : { smallCfg with resetThreshold := 2 ^ 32 }.legal = false := by decide

theorem test_minLiveCycles_out_of_range : { smallCfg with minLiveCycles := 0 }.legal = false := by decide

theorem test_calWindow_out_of_range : { smallCfg with calWindowUs := 0 }.legal = false := by decide

/-- A FIFO port with its enable at 0 asks for nothing (R73), and the decoder says so by name. -/
theorem test_idle_ports :
    PortWord.requests (.fifoWrite false 0) = false ∧ decode (.fifoWrite false 0) = .error .writePortIdle ∧
    PortWord.requests (.fifoRead 0x0FFFFFFFFFFFFFFFF#65) = false ∧
    decode (.fifoRead 0x0FFFFFFFFFFFFFFFF#65) = .error .readPortIdle := by decide

/-! ## Decoding: words written out from R66, R72, R73, R74 (95_test_vectors.md 2.1) -/

/-- `z s w dddddddd ccc rrrrr` bit by bit. -/
theorem test_decode_idle :
    decode (.bus 0b0000000000000000000#19) = .ok (.idle false) ∧
    decode (.bus 0b1000000000000000000#19) = .ok (.idle true) ∧
    decode (.bus 0b0011111111111111111#19) = .ok (.idle false) ∧
    decode (.bus 0b1011010101111001101#19) = .ok (.idle true) := by decide

theorem test_decode_read :
    decode (.bus 0b0110000000001111011#19) = .ok (.read false 27) ∧
    decode (.bus 0b0111010101101111011#19) = .ok (.read false 27) ∧
    decode (.bus 0b0110000000011111111#19) = .ok (.read false 31) ∧
    decode (.bus 0x7001C#19) = .ok (.read true 28) := by decide

theorem test_decode_write :
    decode (.bus 0b0100011111101000101#19) = .ok (.write false 0x3F 2 5) ∧
    decode (.bus 0b0100000111100011000#19) = .ok (.write false 0x0F 0 24) ∧
    decode (.bus 0b0101111111111111111#19) = .ok (.write false 0xFF 7 31) ∧
    decode (.bus 0b1100011111101000101#19) = .ok (.write true 0x3F 2 5) := by decide

theorem test_decode_phases :
    decode (.phase 0b000#3) = .ok .fetchTarget ∧ decode (.phase 0b001#3) = .ok .accStep ∧
    decode (.phase 0b010#3) = .ok .tgAdvance ∧ decode (.phase 0b011#3) = .ok .cacheRefresh ∧
    decode (.phase 0b100#3) = .ok .drainApply ∧ decode (.phase 0b101#3) = .ok .mixOut ∧
    decode (.phase 0b110#3) = .ok .resetClear ∧ decode (.phase 0b111#3) = .ok .calibrate := by decide

theorem test_decode_enqueue :
    decode (.fifoWrite true 0x0000000000000064_3F45#80)
      = .ok (.enqueue { chipIndex := 2, register := 5, value := 0x3F, atCycle := 100 }) ∧
    decode (.fifoWrite true 0x0000000000000002_A222#80) = .ok (.enqueue (sampleEvent 2)) := by decide

theorem test_decode_tryDequeueDueBy :
    decode (.fifoRead 0x10000000000000063#65) = .ok (.tryDequeueDueBy 99) ∧
    decode (.fifoRead 0x1FFFFFFFFFFFFFFFF#65) = .ok (.tryDequeueDueBy 0xFFFFFFFFFFFFFFFF) := by decide

/-- A word of another row of the table does not match (R67). -/
theorem test_rows_do_not_match :
    PortWord.matchesRow (.bus 0x23F45#19) (.idle false) = false ∧
    PortWord.matchesRow (.bus 0x23F45#19) (.read false 5) = false ∧
    PortWord.matchesRow (.phase 3#3) .drainApply = false ∧
    PortWord.matchesRow (.fifoRead 0x10000000000000063#65) (.tryDequeueDueBy 99) = true := by decide

/-- The raw addresses of 95_test_vectors.md S5. -/
theorem test_raw_addresses :
    rawAddr 2 5 = 0x45 ∧ rawAddr 3 27 = 0x7B ∧ rawAddr 5 24 = 0xB8 ∧ RawAddr.chipIndex 0xD7 = 6 ∧
    RawAddr.register 0xD7 = 23 := by decide

/-- R69: `RA = {A[2], A[1], B[0], low}`; A[0] is no input. -/
theorem test_raw_address_of_lines :
    rawAddrOfLines 0b100#3 0b0#1 5 = 0x85 ∧ rawAddrOfLines 0b010#3 0b1#1 5 = 0x65 ∧
    rawAddrOfLines 0b001#3 0b0#1 5 = 0x05 := by decide

/-- The text notation's words (R76). -/
theorem test_notation :
    readSample 0x7B = 0x3007B#19 ∧ writeSample 0x45 0x3F = 0x23F45#19 ∧
    withRst (writeSample 0x45 0x3F) = 0x63F45#19 := by decide

theorem test_decodeTableWord :
    decodeTableWord 24 0x40000 = some (.idle true) ∧ decodeTableWord 24 0x3007B = some (.read false 27) ∧
    decodeTableWord 24 0x23F45 = some (.write false 0x3F 2 5) ∧ decodeTableWord 8 0x4 = some .drainApply ∧
    decodeTableWord 80 0x643F45 = some (.enqueue { chipIndex := 2, register := 5, value := 0x3F, atCycle := 100 }) ∧
    decodeTableWord 72 0x10000000000000064 = some (.tryDequeueDueBy 100) ∧ decodeTableWord 72 0x64 = none := by decide

/-! ## The very next step runs the word that `withFetchWord` lines up -/

theorem test_fetch_bus : after (step (start.withFetchWord 24 0x23F45)) (fun t => (t.wr, slotRead t.slots 0, t.hcc))
    = some (1, some 0x3F45#80, 1) := by decide

theorem test_fetch_phase : after (step (State.reset.withFetchWord 8 0x2)) (fun t => (t.ce, t.phase)) = some (1, 3) := by
  decide

theorem test_fetch_ports :
    after (step (start.withFetchWord 80 0x643F45)) (fun t => (t.wr, slotRead t.slots 0)) = some (1, some 0x643F45#80) ∧
    after (step (start.withFetchWord 72 0x10000000000000064)) (fun t => (t.readPort, t.agenda)) = some (none, []) := by
  decide

/-- What a program needs from reset on: CONS's first turn is CALIBRATE, and it arms DEC (R158, entry 3). -/
theorem test_first_turn_arms :
    after (step { start with agenda := [.agent (.consumer quiet)] }) (fun t => (t.armed, t.mode, t.phase))
      = some (true, .calibrating, 7) ∧
    after (step { start with agenda := [.agent (.producer 0x40000#19)] }) (fun t => (t.hcc, t.rc)) = some (0, 0) := by
  decide

/-- U24: a wall clock that runs back while CALIBRATE reads it is refused; one that stands still is a run. -/
theorem test_wall_clock :
    step (timed 1000 999) = .refused .wallClockRanBack ∧
    after (step (timed 1000 1000)) (fun t => (t.mode, t.phase)) = some (.calibrating, 7) := ⟨rfl, by decide⟩

/-! ## The decoder (95_test_vectors.md 2.2) -/

/-- Rows 1 and 15. -/
theorem test_idle_counts :
    after (exec (.idle false) { playing with hcc := 41 }) (fun t => (t.hcc, t.dOE, t.wr)) = some (42, false, 0) ∧
    after (exec (.idle false) { playing with hcc := 0xFFFFFFFFFFFFFFFF }) (fun t => t.hcc) = some 0 := by decide

/-- Rows 7, 9, 11 and 16. -/
theorem test_idle_debounces :
    after (exec (.idle true) playing) (fun t => (t.rc, t.pressed, t.released)) = some (1, true, false) ∧
    after (exec (.idle false) { playing with rc := 2, pressed := true }) (fun t => (t.rc, t.pressed, t.released))
      = some (2, false, true) ∧
    after (exec (.idle true) { playing with rc := 2, released := true }) (fun t => (t.rc, t.pressed, t.released))
      = some (3, true, true) ∧
    after (exec (.idle true) { playing with rc := 0xFFFFFFFF, pressed := true }) (fun t => t.rc) = some 0 := by decide

/-- Rows 3 and 14. -/
theorem test_read_drives_cache :
    after (exec (.read false 27) { playing with hcc := 7, cache := (Vector.replicate 32 0).set 27 0xA5 })
      (fun t => (t.hcc, t.dOE, t.dOut)) = some (8, true, some 0xA5) ∧
    after (exec (.read true 28) { playing with pressed := true, cache := (Vector.replicate 32 0).set 28 0x10 })
      (fun t => (t.rc, t.pressed, t.dOut)) = some (1, true, some 0x10) := by decide

/-- Rows 5 and 6. -/
theorem test_write_enqueues :
    after (exec (.write false 0x3F 2 5) { playing with hcc := 100 }) (fun t => (t.hcc, t.wr, slotRead t.slots 0))
      = some (101, 1, some 0x00000000000000643F45#80) ∧
    after (exec (.write false 0 0 0) playing) (fun t => (t.hcc, slotRead t.slots 0, t.dOE)) = some (1, some 0, false) := by
  decide

/-- Rows 13 and 17. -/
theorem test_write_with_reset_and_overflow :
    after (exec (.write true 0x3F 2 5) { playing with hcc := 20, wr := 2 })
      (fun t => (t.rc, t.wr, slotRead t.slots 2)) = some (1, 3, some 0x00000000000000143F45#80) ∧
    after (exec (.write false 0xEE 1 1) { full with hcc := 30, wr := 5, rd := 1 })
      (fun t => (t.wr, t.rd, slotRead t.slots 1)) = some (6, 2, some 0x000000000000001EEE21#80) := by decide

/-- R86, D6: a READ's drive ends with the next host bus cycle, also where a shutdown has disarmed DEC between the two;
nothing else changes then (row 18). -/
theorem test_drive_ends :
    after (exec (.idle false) { playing with dOE := true, dOut := some 0xA5 }) (fun t => (t.dOE, t.dOut))
      = some (false, none) ∧
    after (exec (.read true 27) { playing with armed := false, mode := .stopped, dOE := true, dOut := some 0xA5 })
      (fun t => (t.dOE, t.dOut, t.hcc, t.rc, t.pressed)) = some (false, none, 0, 0, false) := by decide

/-! ## The FIFO (95_test_vectors.md 2.3) -/

/-- Rows 2 and 15: the empty FIFO, and WR wrapping. -/
theorem test_enqueue :
    after (exec (.enqueue (sampleEvent 0)) playing) (fun t => (t.wr, t.rd, t.occ)) = some (1, 0, 1) ∧
    after (exec (.enqueue (sampleEvent 7)) { full with wr := 7, rd := 6 }) (fun t => (t.wr, t.rd, t.occ))
      = some (0, 6, 2) := by decide

/-- Row 6. -/
theorem test_enqueue_full :
    after (exec (.enqueue (sampleEvent 4)) full) (fun t => (t.wr, t.rd, t.occ, slotRead t.slots 0))
      = some (5, 1, 4, some 0x0000000000000004A424#80) := by decide

/-- Rows 1, 8 and 9. -/
theorem test_tryDequeue :
    after (exec (.tryDequeueDueBy 1000) playing) (fun t => (t.rd, t.readPort)) = some (0, none) ∧
    after (exec (.tryDequeueDueBy 1) { full with wr := 6, rd := 2 }) (fun t => (t.rd, t.readPort)) = some (2, none) ∧
    after (exec (.tryDequeueDueBy 2) { full with wr := 6, rd := 2 }) (fun t => (t.rd, t.readPort, t.occ))
      = some (3, some (sampleEvent 2), 3) := by decide

/-- Row 18: RD wraps. -/
theorem test_tryDequeue_wraps :
    after (exec (.tryDequeueDueBy 3) { full with wr := 0, rd := 7 }) (fun t => (t.rd, t.hit, t.isEmpty))
      = some (0, true, true) := by decide

/-! ## The accumulator and the calibrator (95_test_vectors.md 2.4, 2.5) -/

theorem test_accStep :
    after (exec .accStep playing) (fun t => (t.nout, t.carry, t.phase)) = some (22, 0x575A, 2) ∧
    after (exec .accStep { playing with carry := 0xAEB4 }) (fun t => (t.nout, t.carry)) = some (23, 0x060E) := by decide

theorem test_accStep_extremes :
    after (exec .accStep { playing with inc := 0xFFFF0000, carry := 0xFFFF }) (fun t => (t.nout, t.carry))
      = some (65535, 0xFFFF) ∧
    after (exec .accStep { playing with inc := 1, carry := 0xFFFF }) (fun t => (t.nout, t.carry)) = some (1, 0) := by
  decide

/-- The measuring window's last step, rows 1, 7 and 12. -/
theorem test_calibrate_finish :
    after (exec .calibrate { waiting with calState := .window, t0 := 1110, c0 := 108, hcc := 985356,
                                          env := answers false 1001110 [] [] })
      (fun t => (t.freq, t.inc, t.mode, t.phase, t.calState)) = some (985248, 0x0016575A, .catchup, 0, .done) ∧
    after (exec .calibrate { waiting with calState := .window, hcc := 0, env := answers false 1000000 [] [] })
      (fun t => (t.mode, t.armed, t.freq)) = some (.halted, false, 0) ∧
    after (exec .calibrate { waiting with calState := .window, hcc := 2890093501, env := answers false 1000000 [] [] })
      (fun t => t.mode) = some .halted := by decide

/-- The liveness wait: steps 1 and 3 of a successful calibration, and its failure. -/
theorem test_calibrate_liveness :
    after (exec .calibrate { start with env := answers false 1000 [] [] })
      (fun t => (t.mode, t.armed, t.tstart)) = some (.calibrating, true, 1000) ∧
    after (exec .calibrate { waiting with tstart := 1000, hcc := 108, env := answers false 1110 [] [] })
      (fun t => (t.t0, t.c0, t.calState)) = some (1110, 108, .window) ∧
    after (exec .calibrate { waiting with tstart := 1000, env := answers false 5001001 [] [] })
      (fun t => (t.mode, t.armed)) = some (.halted, false) := by decide

/-! ## The mixer (95_test_vectors.md 2.6) -/

/-- Rows 2, 3 and 4. -/
theorem test_mix_clips :
    after (exec .mixOut { playing with env := answers false 0 [] [100, 200, 300, 400, 500, 600, 700, 801] })
      (fun t => (t.left.toInt, t.right.toInt, t.sink, t.phase)) = some (1000, 800, [(1000, 800)], 0) ∧
    after (exec .mixOut { playing with env := answers false 0 [] (List.replicate 8 32767) })
      (fun t => (t.left.toInt, t.right.toInt)) = some (32767, 32767) ∧
    after (exec .mixOut { playing with env := answers false 0 [] (List.replicate 8 (-32768)) })
      (fun t => (t.left.toInt, t.right.toInt)) = some (-32767, -32767) := by decide

/-- Rows 6, 13 and 15. -/
theorem test_mix_shifts :
    after (exec .mixOut { playing with env := answers false 0 [] [0, -3] }) (fun t => (t.left.toInt, t.right.toInt))
      = some (-2, 0) ∧
    after (exec .mixOut { playing with
        env := answers false 0 [] [1000, -1000, 2000, -2000, 3000, -3000, 4000, -4001] })
      (fun t => (t.left.toInt, t.right.toInt)) = some (-5001, 5000) ∧
    after (exec .mixOut { playing with env := answers false 0 [] [20000, 20000, 20000, 20000, 5534, 5534] })
      (fun t => (t.left.toInt, t.right.toInt)) = some (22767, 22767) := by decide

/-! ## The sequencer (95_test_vectors.md 2.7) -/

/-- Rows 1, 3 and 4. -/
theorem test_fetchTarget_reads_the_count :
    after (exec .fetchTarget { playing with hcc := 250, ce := 200 }) (fun t => (t.target, t.phase)) = some (250, 1) ∧
    after (exec .fetchTarget { playing with mode := .catchup }) (fun t => (t.mode, t.phase)) = some (.playing, 5) ∧
    after (exec .fetchTarget { playing with hcc := 250, ce := 252 }) (fun t => (t.target, t.phase)) = some (250, 5) := by
  decide

/-- Rows 5, 6 and 7, and the shutdown before the reset. -/
theorem test_fetchTarget_checks :
    after (exec .fetchTarget { playing with hcc := 250, rc := 5, released := true })
      (fun t => (t.mode, t.phase, t.target)) = some (.resetting, 6, 0) ∧
    after (exec .fetchTarget { playing with hcc := 250, rc := 5 }) (fun t => (t.mode, t.phase)) = some (.playing, 1) ∧
    after (exec .fetchTarget { playing with hcc := 250, rc := 3, released := true }) (fun t => t.phase) = some 1 ∧
    after (exec .fetchTarget { playing with rc := 5, released := true, env := answers true 0 [] [] })
      (fun t => (t.mode, t.armed)) = some (.stopped, false) := by decide

theorem test_tgAdvance :
    after (exec .tgAdvance { playing with ce := 99 }) (fun t => (t.ce, t.phase, t.tgCalls.length, t.tgCalls.head?))
      = some (100, 3, 8, some (.advance 7 1)) := by decide

theorem test_cacheRefresh :
    after (exec .cacheRefresh { playing with env := answers false 0 [(27, 0xA5), (28, 0x10)] [] })
      (fun t => (cacheAt t 27, cacheAt t 28, cacheAt t 26, t.phase)) = some (0xA5, 0x10, 0, 4) := by decide

/-- The event of S9: not due at 99, applied at 100. -/
theorem test_drainApply :
    after (exec .drainApply { oneEvent with ce := 99, target := 101, phase := 4 }) (fun t => (t.rd, tgRegAt t 2 5, t.phase))
      = some (0, 0, 1) ∧
    after (exec .drainApply due) (fun t => (t.rd, tgRegAt t 2 5, tgRegAt t 5 2, t.tgCalls.head?))
      = some (1, 0x3F, 0, some (.write 2 5 0x3F)) := by decide

/-- Caught up: to MIX_OUT, and CATCHUP becomes PLAYING (R125). -/
theorem test_drainApply_caught_up :
    after (exec .drainApply { due with target := 100, mode := .catchup }) (fun t => (t.phase, t.mode))
      = some (5, .playing) := by decide

theorem test_resetClear :
    after (exec .resetClear { resetDue with mode := .resetting, phase := 6 })
      (fun t => (t.tgreg.length, t.rc, t.released, t.carry, t.mode, t.phase)) = some (0, 0, false, 0, .playing, 0) := by
  decide +kernel

/-! ## Every obligation with hypotheses has a case that meets them -/

theorem witness_DecodeEncodeRoundTrip :
    Instr.wf (.write true 0xFF 7 31) = true ∧ Instr.wf .calibrate = true ∧ Instr.wf (.enqueue (sampleEvent 2)) = true ∧
    Instr.wf (.tryDequeueDueBy 0xFFFFFFFFFFFFFFFF) = true := by decide

theorem witness_DecodedWordMatchesItsRow :
    decode (.bus 0x1FFFF#19) = .ok (.idle false) ∧ decode (.phase 7#3) = .ok .calibrate ∧
    decode (.fifoWrite true (packEvent (sampleEvent 2))) = .ok (.enqueue (sampleEvent 2)) ∧
    decode (.fifoRead 0x10000000000000000#65) = .ok (.tryDequeueDueBy 0) := by decide

/-- The least and the greatest WRITE sample without and with RST. -/
theorem witness_EventWordIsFaithful :
    0x20000#19 &&& 0x30000#19 = 0x20000#19 ∧ 0x6FFFF#19 &&& 0x30000#19 = 0x20000#19 := by decide

theorem witness_IdleOnlyDebouncesAndCounts : 0x5FFFF#19 &&& 0x20000#19 = 0x00000#19 ∧ playing.armed = true := by decide

theorem witness_ReadDrivesTheCachedByte : 0x7FFFF#19 &&& 0x30000#19 = 0x30000#19 ∧ playing.armed = true := by decide

/-- An empty and a full FIFO. -/
theorem witness_WriteEnqueuesTheStampedEvent :
    0x6FFFF#19 &&& 0x30000#19 = 0x20000#19 ∧ playing.armed = true ∧ playing.occ = 0 ∧ full.armed = true ∧
    full.occ = 2 ^ full.cfg.log2cap := by decide

/-- After initialisation, and after a READ that a shutdown followed (92_eei_decisions.md D6). -/
theorem witness_NoDecoderStepWhileDisarmed :
    isTransaction (.write true 0xFF 7 31) = true ∧ State.reset.armed = false ∧
    { playing with armed := false, mode := .stopped, dOE := true, dOut := some 0xA5 }.armed = false := by decide

theorem witness_FourStateDebounce :
    ((Instr.idle true = .idle true ∨ (∃ reg, Instr.idle true = .read true reg) ∨
      ∃ d ci reg, Instr.idle true = .write true d ci reg) ∧ playing.armed = true) ∧
    { playing with released := true }.armed = true ∧ playing.consRuns = true :=
  ⟨⟨.inl rfl, rfl⟩, rfl, by decide⟩

/-- An IDLE, a READ and a WRITE lined up; and no turn at all. -/
theorem witness_BusCyclesAreCounted :
    (playing.cfg.legal = true ∧ playing.armed = true ∧ playing.agenda = [].map (fun bs => Turn.agent (.producer bs)) ++ []) ∧
    { playing with agenda := [.agent (.producer 0), .agent (.producer 0x3007B), .agent (.producer 0x23F45)] }.agenda
      = [0x00000#19, 0x3007B#19, 0x23F45#19].map (fun bs => Turn.agent (.producer bs)) ++ [] := by decide

/-- The shortest pulse. -/
theorem witness_ResetPulseIsCounted :
    playing.cfg.legal = true ∧ playing.armed = true ∧
    { playing with agenda := [.agent (.producer 0x40000), .agent (.producer 0)] }.agenda
      = (resetSamples 1).map (fun bs => Turn.agent (.producer bs)) ++ [] := by decide

theorem witness_HostReadIgnoresTheChip : playing.armed = true := rfl

/-- An empty and a full FIFO. -/
theorem witness_HostWriteMakesOneEvent :
    (playing.armed = true ∧ FifoInv playing) ∧ (full.armed = true ∧ FifoInv full) :=
  ⟨⟨rfl, inv_playing.fifo⟩, ⟨rfl, fifoInv_full⟩⟩

/-- A WRITE into a full FIFO moves RD. -/
theorem witness_TransactionsWriteOnlyProducerState :
    ∃ t, isTransaction (.write false 0xEE 1 1) = true ∧ exec (.write false 0xEE 1 1) full = .next t ∧ t.rd ≠ full.rd :=
  ⟨_, rfl, rfl, by decide⟩

/-- The empty FIFO at both ends of the index range, and the full one. -/
theorem witness_EmptyAndFullFromTheIndices :
    (playing.wr < 2 ^ (playing.cfg.log2cap + 1) ∧ playing.rd < 2 ^ (playing.cfg.log2cap + 1)) ∧
    ({ playing with wr := 7, rd := 7 }.wr < 2 ^ (playing.cfg.log2cap + 1)) ∧
    (full.wr < 2 ^ (full.cfg.log2cap + 1) ∧ full.rd < 2 ^ (full.cfg.log2cap + 1)) := by decide

theorem witness_EnqueueWritesThenPublishes : FifoInv playing ∧ FifoInv full := ⟨inv_playing.fifo, fifoInv_full⟩

/-- Empty; due at the stamp itself; not due one cycle before it; and a next state. -/
theorem witness_TryDequeueTakesTheOldestIfDue :
    (0x10000000000000064#65).getLsbD 64 = true ∧ playing.rd = playing.wr ∧
    (due.rd ≠ due.wr ∧ slotRead due.slots (due.rd % 2 ^ due.cfg.log2cap) = some 0x00000000000000643F45#80 ∧
      ((0x00000000000000643F45#80).extractLsb' 16 64).toNat ≤ (100 : Word64).toNat ∧
      (99 : Word64).toNat < ((0x00000000000000643F45#80).extractLsb' 16 64).toNat) ∧
    (∃ t, FifoInv due ∧ exec (.tryDequeueDueBy 100) due = .next t ∧ t.readPort.isSome = true) :=
  ⟨by decide, rfl, by decide, ⟨_, fifoInv_due, rfl, by decide⟩⟩

theorem witness_UnwrittenHeadSlotFaults :
    { playing with wr := 1 }.rd ≠ { playing with wr := 1 }.wr ∧
    slotRead { playing with wr := 1 }.slots (slotOf playing.cfg { playing with wr := 1 }.rd) = none ∧
    { playing with wr := 1 }.consRuns = true := by decide

theorem witness_FifoRefinesTheList : FifoInv playing ∧ FifoInv full ∧ FifoInv due :=
  ⟨inv_playing.fifo, fifoInv_full, fifoInv_due⟩

/-- `k = 0` and `k = CAP - 1`, the ends of its range. -/
theorem witness_OverflowKeepsTheNewest :
    (playing.cfg.legal = true ∧ FifoInv playing ∧ playing.wr = 0 ∧ playing.rd = 0) ∧
    (((List.range 4).map sampleEvent).length = 2 ^ playing.cfg.log2cap + 0 ∧ 0 < 2 ^ playing.cfg.log2cap) ∧
    (((List.range 7).map sampleEvent).length = 2 ^ playing.cfg.log2cap + 3 ∧ 3 < 2 ^ playing.cfg.log2cap) ∧
    { playing with agenda := ((List.range 7).map sampleEvent).map fun ev => .fifoWrite true (packEvent ev) }.agenda
      = ((List.range 7).map sampleEvent).map (fun ev => Turn.fifoWrite true (packEvent ev)) ++ [] :=
  ⟨⟨by decide, inv_playing.fifo, rfl, rfl⟩, by decide, by decide, by simp⟩

/-- A turn lined up changes nothing of the invariant. -/
theorem inv_agenda {s : State} (l : List Turn) (h : Inv s) : Inv { s with agenda := l } :=
  ⟨h.cfg_legal, ⟨h.fifo.wr_lt, h.fifo.rd_lt, h.fifo.occ_le, h.fifo.slots_wf, h.fifo.queued_written⟩, h.tgreg_wf,
    h.carry_lt, h.inc_le, h.left_ge, h.right_ge, h.drive, h.lockstep, h.control, h.clock⟩

/-- Steps that answer, from a state of the invariant: CONS's turn in DRAIN_APPLY with a due event, a request at the read
port, a WRITE into a full FIFO, a request at the write port. -/
theorem witness_EventsLeaveInOrder :
    (∃ t, Inv { due with agenda := [.agent (.consumer quiet)] } ∧
      step { due with agenda := [.agent (.consumer quiet)] } = .next t ∧ queueOf t = []) ∧
    (∃ t, Inv { due with agenda := [.fifoRead 0x10000000000000064] } ∧
      step { due with agenda := [.fifoRead 0x10000000000000064] } = .next t ∧ queueOf t = []) ∧
    (∃ t, Inv { full with agenda := [.agent (.producer 0x23F45)] } ∧
      step { full with agenda := [.agent (.producer 0x23F45)] } = .next t ∧ t.rd = 1) ∧
    (∃ t, Inv { playing with agenda := [.fifoWrite true 0x643F45] } ∧
      step { playing with agenda := [.fifoWrite true 0x643F45] } = .next t ∧ t.wr = 1) :=
  ⟨⟨_, inv_agenda _ inv_due, rfl, by decide⟩, ⟨_, inv_agenda _ inv_due, rfl, by decide⟩,
    ⟨_, inv_agenda _ inv_full, rfl, by decide⟩, ⟨_, inv_agenda _ inv_playing, rfl, by decide⟩⟩

/-- A WRITE that comes while `e0 .. e3` are queued. -/
theorem witness_StampsKeepRising :
    ∃ t, Inv { full with agenda := [.agent (.producer 0x23F45)] } ∧
      stampsRise { full with agenda := [.agent (.producer 0x23F45)] } ∧
      { full with agenda := [.agent (.producer 0x23F45)] }.hcc.toNat < 2 ^ 64 - 1 ∧
      (∀ ev, (nextTurn { full with agenda := [.agent (.producer 0x23F45)] }).1 ≠ .fifoWrite true ev) ∧
      step { full with agenda := [.agent (.producer 0x23F45)] } = .next t :=
  ⟨_, inv_agenda _ inv_full, by unfold stampsRise; decide, by decide, (fun _ h => by cases h), rfl⟩

/-- The largest increment with the largest carry. -/
theorem witness_AccStepSplitsTheSum :
    playing.consRuns = true ∧ { playing with inc := 0xFFFF0000 }.inc.toNat ≤ 2 ^ 32 - 2 ^ 16 ∧
    { playing with carry := 0xFFFF }.carry.toNat < 2 ^ 16 := by decide

theorem witness_PeriodCountsDoNotDrift :
    { playing with inc := 0xFFFF0000, carry := 0xFFFF }.consRuns = true ∧
    { playing with inc := 0xFFFF0000, carry := 0xFFFF }.inc.toNat ≤ 2 ^ 32 - 2 ^ 16 ∧
    { playing with inc := 0xFFFF0000, carry := 0xFFFF }.carry.toNat < 2 ^ 16 := by decide

/-- CONS's turn in ACC_STEP. -/
theorem witness_CarryStaysAFraction :
    ∃ t, { playing with phase := 1, agenda := [.agent (.consumer quiet)] }.carry.toNat < 2 ^ 16 ∧
      step { playing with phase := 1, agenda := [.agent (.consumer quiet)] } = .next t :=
  ⟨_, by decide, rfl⟩

/-- The liveness wait in its three cases, each at its boundary: the last waiting count, the last waiting microsecond. -/
theorem witness_CalibrateStepByStep_live :
    (start.cfg.legal = true ∧ start.consRuns = true ∧ start.mode = .init) ∧
    (waiting.consRuns = true ∧ waiting.mode ≠ .init ∧ waiting.calState = .live) ∧
    waiting.cfg.minLiveCycles ≤ { waiting with hcc := 100 }.hcc.toNat ∧
    { waiting with hcc := 99 }.hcc.toNat < waiting.cfg.minLiveCycles ∧
    waiting.tstart.toNat + waiting.cfg.livenessTimeoutUs < (answers false 5000001 [] []).wallClock.toNat ∧
    (answers false 5000000 [] []).wallClock.toNat ≤ waiting.tstart.toNat + waiting.cfg.livenessTimeoutUs := by decide

/-- The window open and over, with `f` at both ends of its range and outside it (95_test_vectors.md 2.5 rows 6 to 12),
and the finished calibrator. -/
theorem witness_CalibrateStepByStep_window :
    ({ waiting with calState := .window }.mode ≠ .init ∧ { waiting with calState := .window }.calState = .window) ∧
    (answers false 999999 [] []).wallClock.toNat < waiting.t0.toNat + waiting.cfg.calWindowUs ∧
    waiting.t0.toNat + waiting.cfg.calWindowUs ≤ (answers false 1000000 [] []).wallClock.toNat ∧
    (0 < 1 ∧ 2 ^ 32 ≤ 5000000000 ∧ 2 ^ 32 - 2 ^ 16 < 2 ^ 16 * 2890093501 / waiting.cfg.sampleRate) ∧
    (1 < 2 ^ 32 ∧ 2890093500 < 2 ^ 32 ∧ 2 ^ 16 * 2890093500 / waiting.cfg.sampleRate ≤ 2 ^ 32 - 2 ^ 16) ∧
    (({ waiting with hcc := 2890093500 }.hcc - waiting.c0).toNat * 1000000 / 1000000 = 2890093500) ∧
    (playing.mode ≠ .init ∧ playing.calState = .done) := by decide

theorem witness_IncrementIsTight :
    ∃ t, smallCfg.legal = true ∧
      exec .calibrate { waiting with calState := .window, hcc := 2890093500, env := answers false 1000000 [] [] } = .next t ∧
      { waiting with calState := .window }.calState ≠ .done ∧ t.calState = .done :=
  ⟨_, by decide, rfl, by decide, by decide⟩

theorem witness_CalibrationHappensOnce :
    ∃ t, { playing with phase := 6, agenda := [.agent (.consumer quiet)] }.phase ≠ 0b111#3 ∧
      step { playing with phase := 6, agenda := [.agent (.consumer quiet)] } = .next t :=
  ⟨_, by decide, rfl⟩

theorem witness_MixOutSumsHalvesAndClips :
    playing.consRuns = true ∧ ∀ c : Fin 8, (fun _ : Fin 8 => (0 : Int)) c = (playing.env.tgOutput[c.val]).toInt := by
  decide

/-- All 32767, and all -32768. -/
theorem witness_MixerClipsHard :
    playing.consRuns = true ∧
    (∀ c : Fin 8, ((answers false 0 [] (List.replicate 8 32767)).tgOutput[c.val]).toInt = 32767) ∧
    (∀ c : Fin 8, ((answers false 0 [] (List.replicate 8 (-32768))).tgOutput[c.val]).toInt = -32768) ∧
    (-32767 ≤ asr (sumLeft playing) 1 ∧ asr (sumLeft playing) 1 ≤ 32767) ∧
    (-32767 ≤ asr (sumRight playing) 1 ∧ asr (sumRight playing) 1 ≤ 32767) := by decide

/-- Two sets of outputs that agree on the odd chips alone, and two that agree on the even chips alone. -/
theorem witness_ChannelsAreIndependent :
    ∃ t t', playing.consRuns = true ∧ exec .mixOut { playing with env := answers false 0 [] [1, 2, 3, 4] } = .next t ∧
      exec .mixOut { playing with env := answers false 0 [] [7, 2, 7, 4] } = .next t' ∧
      (∀ c : Fin 8, c.val % 2 = 1 →
        (answers false 0 [] [1, 2, 3, 4]).tgOutput[c.val] = (answers false 0 [] [7, 2, 7, 4]).tgOutput[c.val]) ∧
      (∀ c : Fin 8, c.val % 2 = 0 →
        (answers false 0 [] [1, 2, 3, 4]).tgOutput[c.val] = (answers false 0 [] [1, 7, 3, 7]).tgOutput[c.val]) :=
  ⟨_, _, by decide, rfl, rfl, by decide, by decide⟩

/-- Shutdown; the reset one count past the threshold; one count short of it, both behind and caught up. -/
theorem witness_FetchTargetInOrder :
    (playing.consRuns = true ∧ { playing with env := answers true 0 [] [] }.env.shutdownReq = true) ∧
    (playing.env.shutdownReq = false ∧ playing.cfg.resetThreshold < { playing with rc := 4, released := true }.rc.toNat ∧
      { playing with rc := 4, released := true }.released = true) ∧
    ¬ (playing.cfg.resetThreshold < { playing with rc := 3, released := true }.rc.toNat ∧
      { playing with rc := 3, released := true }.released = true) ∧
    { playing with hcc := 1 }.ce.toNat < { playing with hcc := 1 }.hcc.toNat ∧ playing.hcc.toNat ≤ playing.ce.toNat := by
  decide

theorem witness_TgAdvanceMovesAllEight : playing.consRuns = true := by decide

theorem witness_CacheRefreshCopiesChipZero : playing.consRuns = true := by decide

/-- Empty; a head one cycle early; a head due at its stamp. -/
theorem witness_DrainApplyAppliesOneDueEvent :
    (playing.consRuns = true ∧ playing.rd = playing.wr) ∧
    (slotRead oneEvent.slots (slotOf oneEvent.cfg oneEvent.rd) = some 0x00000000000000643F45#80 ∧
      { oneEvent with ce := 99 }.ce.toNat < ((0x00000000000000643F45#80).extractLsb' 16 64).toNat) ∧
    (due.consRuns = true ∧ due.rd ≠ due.wr ∧
      slotRead due.slots (slotOf due.cfg due.rd) = some 0x00000000000000643F45#80 ∧
      ((0x00000000000000643F45#80).extractLsb' 16 64).toNat ≤ due.ce.toNat) := by decide

theorem witness_ResetClearZeroesTheRegisters : resetDue.consRuns = true := by decide

theorem witness_DueResetClearsInTwoTurns :
    Inv { resetDue with agenda := [.agent (.consumer quiet), .agent (.consumer quiet)] } ∧
    (resetDue.mode = .catchup ∨ resetDue.mode = .playing) ∧ resetDue.phase = 0b000#3 ∧ resetDue.resetDue = true ∧
    quiet.shutdownReq = false ∧
    { resetDue with agenda := [.agent (.consumer quiet), .agent (.consumer quiet)] }.agenda
      = [.agent (.consumer quiet), .agent (.consumer quiet)] ++ [] :=
  ⟨inv_agenda _ inv_resetDue, .inr rfl, rfl, by decide, rfl, rfl⟩

/-- A phase that writes RD, and one that writes ARMED. -/
theorem witness_PhasesWriteOnlyConsumerState :
    (∃ t, isPhase .drainApply = true ∧ exec .drainApply due = .next t ∧ t.rd ≠ due.rd) ∧
    (∃ t, isPhase .calibrate = true ∧ exec .calibrate start = .next t ∧ t.armed ≠ start.armed) :=
  ⟨⟨_, rfl, rfl, by decide⟩, ⟨_, rfl, rfl, by decide⟩⟩

/-- Each phase in a mode that has it: the loop, the clear and the calibrator. -/
theorem witness_PhasesFollowTheTable :
    (Inv playing ∧ playing.consRuns = true ∧ ∃ t, exec (decodePhase playing.phase) playing = .next t) ∧
    (Inv due ∧ due.consRuns = true ∧ ∃ t, exec (decodePhase due.phase) due = .next t) ∧
    (Inv start ∧ start.consRuns = true ∧ ∃ t, exec (decodePhase start.phase) start = .next t) :=
  ⟨⟨inv_playing, by decide, _, rfl⟩, ⟨inv_due, by decide, _, rfl⟩,
    ⟨inv_of_empty ⟨rfl, rfl, rfl⟩, by decide, _, rfl⟩⟩

/-- Rows of R125's table: INIT to CALIBRATING, CALIBRATING to HALTED, CATCHUP to PLAYING, PLAYING to RESETTING, and
PLAYING to STOPPED. -/
theorem witness_ModesFollowTheTable :
    (∃ t, Inv { start with agenda := [.agent (.consumer quiet)] } ∧
      step { start with agenda := [.agent (.consumer quiet)] } = .next t ∧ t.mode = .calibrating) ∧
    (∃ t, Inv { waiting with agenda := [.agent (.consumer (answers false 5000001 [] []))] } ∧
      step { waiting with agenda := [.agent (.consumer (answers false 5000001 [] []))] } = .next t ∧ t.mode = .halted) ∧
    (∃ t, Inv { playing with mode := .catchup, agenda := [.agent (.consumer quiet)] } ∧
      step { playing with mode := .catchup, agenda := [.agent (.consumer quiet)] } = .next t ∧ t.mode = .playing) ∧
    (∃ t, Inv { resetDue with agenda := [.agent (.consumer quiet)] } ∧
      step { resetDue with agenda := [.agent (.consumer quiet)] } = .next t ∧ t.mode = .resetting) ∧
    (∃ t, Inv { playing with agenda := [.agent (.consumer (answers true 0 [] []))] } ∧
      step { playing with agenda := [.agent (.consumer (answers true 0 [] []))] } = .next t ∧ t.mode = .stopped) :=
  ⟨⟨_, inv_of_empty ⟨rfl, rfl, rfl⟩, rfl, by decide⟩,
    ⟨_, inv_of_empty ⟨rfl, rfl, by decide⟩, rfl,
      by decide⟩,
    ⟨_, inv_of_empty ⟨by decide, rfl, rfl⟩, rfl,
      by decide⟩,
    ⟨_, inv_agenda _ inv_resetDue, rfl, by decide⟩, ⟨_, inv_agenda _ inv_playing, rfl, by decide⟩⟩

/-- The other two rows: CALIBRATING to CATCHUP and RESETTING to PLAYING. -/
theorem witness_ModesFollowTheTable_returns :
    (∃ t, Inv { waiting with calState := .window, hcc := 985248,
                             agenda := [.agent (.consumer (answers false 1000000 [] []))] } ∧
      step { waiting with calState := .window, hcc := 985248,
                          agenda := [.agent (.consumer (answers false 1000000 [] []))] } = .next t ∧ t.mode = .catchup) ∧
    (∃ t, Inv { playing with mode := .resetting, phase := 6, agenda := [.agent (.consumer quiet)] } ∧
      step { playing with mode := .resetting, phase := 6, agenda := [.agent (.consumer quiet)] } = .next t ∧
      t.mode = .playing) :=
  ⟨⟨_, inv_of_empty ⟨rfl, rfl, by decide⟩, rfl,
      by decide⟩,
    ⟨_, inv_of_empty ⟨rfl, rfl, rfl⟩, rfl, rfl⟩⟩

theorem witness_NoPhaseWhileHaltedOrStopped :
    isPhase .resetClear = true ∧ { playing with mode := .stopped }.mode = .stopped ∧
    { playing with mode := .halted }.mode = .halted := by decide

/-- A bus cycle after the calibrator gave up, and a consumer turn after the shutdown. -/
theorem witness_HaltedAndStoppedAreFinal :
    (∃ t, Inv { start with mode := .halted, agenda := [.agent (.producer 0x23F45)] } ∧
      (∃ a, (nextTurn { start with mode := .halted, agenda := [.agent (.producer 0x23F45)] }).1 = .agent a) ∧
      step { start with mode := .halted, agenda := [.agent (.producer 0x23F45)] } = .next t) ∧
    (∃ t, Inv { playing with mode := .stopped, armed := false, agenda := [.agent (.consumer quiet)] } ∧
      (∃ a, (nextTurn { playing with mode := .stopped, armed := false, agenda := [.agent (.consumer quiet)] }).1 = .agent a) ∧
      step { playing with mode := .stopped, armed := false, agenda := [.agent (.consumer quiet)] } = .next t) :=
  ⟨⟨_, inv_of_empty rfl, ⟨_, rfl⟩, rfl⟩,
    ⟨_, inv_of_empty rfl, ⟨_, rfl⟩, rfl⟩⟩

theorem witness_OnlyCacheRefreshWritesTheCache :
    ∃ t, step { playing with phase := 3, agenda := [.agent (.consumer (answers false 0 [(27, 0xA5)] []))] } = .next t ∧
      t.cache ≠ playing.cache :=
  ⟨_, rfl, by decide⟩

theorem witness_NoOperationReadsNout : ∃ t, exec .accStep playing = .next t ∧ t.nout ≠ playing.nout :=
  ⟨_, rfl, by decide⟩

theorem witness_TargetFollowsTheCount :
    ∃ t, { playing with hcc := 250, agenda := [.agent (.consumer quiet)] }.target.toNat
        ≤ { playing with hcc := 250, agenda := [.agent (.consumer quiet)] }.hcc.toNat ∧
      { playing with hcc := 250 }.hcc.toNat < 2 ^ 64 - 1 ∧
      step { playing with hcc := 250, agenda := [.agent (.consumer quiet)] } = .next t ∧ t.target = 250 :=
  ⟨_, by decide, by decide, rfl, by decide⟩

/-- One turn of each kind, an empty agenda, and both idle ports. -/
theorem witness_StepRunsTheDecodedOperation :
    playing.cfg.legal = true ∧
    ({ playing with agenda := [.agent (.producer 0x23F45)] }.agenda = .agent (.producer 0x23F45) :: [] ∧
      decode (.bus 0x23F45#19) = .ok (.write false 0x3F 2 5)) ∧
    ({ playing with agenda := [.agent (.consumer quiet)] }.agenda = .agent (.consumer quiet) :: [] ∧
      decode (.phase playing.phase) = .ok .fetchTarget) ∧
    (waiting.mode = .calibrating ∧ waiting.env.wallClock.toNat ≤ quiet.wallClock.toNat) ∧
    ({ playing with agenda := [.fifoWrite true 0] }.agenda = .fifoWrite true 0 :: [] ∧
      decode (.fifoWrite true 0) = .ok (.enqueue (unpackEvent 0))) ∧
    ({ playing with agenda := [.fifoRead 0x10000000000000064] }.agenda = .fifoRead 0x10000000000000064 :: [] ∧
      decode (.fifoRead 0x10000000000000064) = .ok (.tryDequeueDueBy 100)) ∧
    playing.agenda = [] ∧ (0x00000000000000064#65).getLsbD 64 = false := by decide

theorem witness_IllegalConfigurationIsRefused :
    { start with cfg := { smallCfg with log2cap := 0 } }.cfg.legal = false := by decide

/-- One microsecond back; and readings in order, at the start and in the window. -/
theorem witness_WallClockNeverRunsBack :
    ((timed 1000 999).cfg.legal = true ∧ (nextTurn (timed 1000 999)).1 = .agent (.consumer (answers false 999 [] [])) ∧
      (timed 1000 999).mode = .calibrating ∧
      (answers false 999 [] []).wallClock.toNat < (timed 1000 999).env.wallClock.toNat) ∧
    (∃ t, clockOk (timed 1000 1000) ∧ step (timed 1000 1000) = .next t ∧ t.mode = .calibrating) ∧
    (∃ t, clockOk { timed 0 9 with hcc := 100 } ∧ step { timed 0 9 with hcc := 100 } = .next t ∧
      t.mode = .calibrating ∧ t.calState = .window) :=
  ⟨⟨by decide, rfl, rfl, by decide⟩, ⟨_, by decide, rfl, rfl⟩, ⟨_, by decide, rfl, rfl, rfl⟩⟩

/-- The default parameters are a legal configuration, and so are the small ones of the tests. -/
theorem witness_ResetMeetsTheInvariant : Params.default.legal = true ∧ smallCfg.legal = true := by decide

theorem witness_ParametersAreConstant : ∃ t, step { playing with agenda := [.agent (.producer 0)] } = .next t :=
  ⟨_, rfl⟩

/-- A WRITE into a full FIFO. -/
theorem witness_StepKeepsTheInvariant :
    ∃ t, Inv { full with agenda := [.agent (.producer 0x23F45)] } ∧
      step { full with agenda := [.agent (.producer 0x23F45)] } = .next t ∧ t.rd = 1 :=
  ⟨_, inv_agenda _ inv_full, rfl, by decide⟩

/-- Three states that read no clock, and the calibrator with the same microsecond answered again. -/
theorem witness_NoStepStops :
    (Inv playing ∧ Inv full ∧ Inv due ∧ playing.mode ≠ .calibrating) ∧
    Inv { waiting with agenda := [.agent (.consumer quiet)] } ∧
    (nextTurn { waiting with agenda := [.agent (.consumer quiet)] }).1 = .agent (.consumer quiet) ∧
    waiting.mode = .calibrating ∧ waiting.env.wallClock.toNat ≤ quiet.wallClock.toNat :=
  ⟨⟨inv_playing, inv_full, inv_due, by decide⟩,
    inv_of_empty ⟨rfl, rfl, by decide⟩,
    rfl, rfl, by decide⟩

end Sys2Proof.Tests
end

/-! SUPPORT, then the proofs of the statements that 00_scope.md gives rise to: what a step runs, what it refuses, what it
never touches, and that it does not stop (R9, R11, R81; 93_implementation_defined.md U16, U24). -/

namespace Sys2Proof.Machine

open Sys2Proof

/-! ## The next turn and what a fetch leaves alone -/

/-- A turn that is lined up is the next one (entry 3). -/
theorem nextTurn_cons {s : State} {t : Turn} {rest : List Turn} (h : s.agenda = t :: rest) :
    nextTurn s = (t, { s with agenda := rest }) := by
  unfold nextTurn
  rw [h]

/-- With nothing lined up the environment chooses (entry 3). -/
theorem nextTurn_nil {s : State} (h : s.agenda = []) :
    nextTurn s = (.agent (Config.environment s.turnNo), { s with turnNo := s.turnNo + 1 }) := by
  unfold nextTurn
  rw [h]

/-- Drawing a turn is the same as having it lined up. -/
theorem nextTurn_environment {s : State} (h : s.agenda = []) :
    nextTurn { s with agenda := [.agent (Config.environment s.turnNo)], turnNo := s.turnNo + 1 } = nextTurn s := by
  rw [nextTurn_nil h, nextTurn_cons rfl, ← h]

@[simp] theorem fetch_cfg (s : State) : (fetch s).2.cfg = s.cfg := by rw [fetch_eq]
@[simp] theorem fetch_wr (s : State) : (fetch s).2.wr = s.wr := by rw [fetch_eq]
@[simp] theorem fetch_rd (s : State) : (fetch s).2.rd = s.rd := by rw [fetch_eq]
@[simp] theorem fetch_slots (s : State) : (fetch s).2.slots = s.slots := by rw [fetch_eq]
@[simp] theorem fetch_mode (s : State) : (fetch s).2.mode = s.mode := by rw [fetch_eq]
@[simp] theorem fetch_calState (s : State) : (fetch s).2.calState = s.calState := by rw [fetch_eq]
@[simp] theorem fetch_tstart (s : State) : (fetch s).2.tstart = s.tstart := by rw [fetch_eq]
@[simp] theorem fetch_t0 (s : State) : (fetch s).2.t0 = s.t0 := by rw [fetch_eq]

/-- The head slot does not depend on whose turn it is. -/
@[simp] theorem fetch_headSlot (s : State) : headSlot (fetch s).2 = headSlot s := by
  simp [headSlot]

/-- The inputs a fetch leaves presented: a consumer turn's own, or the last ones (R41). -/
theorem fetch_env_cases (s : State) :
    (∃ e, (nextTurn s).1 = .agent (.consumer e) ∧ (fetch s).2.env = e) ∨ (fetch s).2.env = s.env := by
  have hkeep : (nextTurn s).2.env = s.env := by rw [nextTurn_eq]
  unfold fetch latchInputs
  match (nextTurn s).1 with
  | .agent (.consumer e) => exact .inl ⟨e, rfl, rfl⟩
  | .agent (.producer _) => exact .inr hkeep
  | .fifoWrite _ _ => exact .inr hkeep
  | .fifoRead _ => exact .inr hkeep

/-- A turn that passes the clock's check does not lower the reading while the calibrator reads it (U24). -/
theorem fetch_wallClock_le {s : State} (hclock : clockRunsBack (nextTurn s).1 s = false) (hm : s.mode = .calibrating) :
    s.env.wallClock.toNat ≤ (fetch s).2.env.wallClock.toNat := by
  rcases fetch_env_cases s with ⟨e, hturn, henv⟩ | henv
  · rw [henv]
    by_contra hlt
    have hback := (clockRunsBack_iff _ _).mpr ⟨e, hturn, hm, not_le.mp hlt⟩
    simp [hback] at hclock
  · rw [henv]

/-! ## What a step answers, from what its turn decodes to -/

/-- U16: a step with an illegal configuration. -/
theorem step_illegal {s : State} (h : s.cfg.legal = false) : step s = .refused .illegalConfiguration := by
  simp [step, h]

/-- U24: a step whose turn runs the clock back. -/
theorem step_clockRunsBack {s : State} (hl : s.cfg.legal = true) (hclock : clockRunsBack (nextTurn s).1 s = true) :
    step s = .refused .wallClockRanBack := by
  simp [step, hl, hclock]

/-- A turn whose word is an operation runs it. -/
theorem step_of_decode_ok {s : State} {i : Instr} (hl : s.cfg.legal = true)
    (hclock : clockRunsBack (nextTurn s).1 s = false)
    (hd : decode (turnWord (nextTurn s).1 (nextTurn s).2) = .ok i) : step s = exec i (fetch s).2 := by
  have hf : fetch s = (.ok i, (fetch s).2) := Prod.ext hd rfl
  unfold step
  rw [if_pos hl, if_neg (by simp [hclock]), hf]

/-- A turn whose word is an idle port runs nothing (R73). -/
theorem step_of_decode_error {s : State} {e : DecodeReject} (hl : s.cfg.legal = true)
    (hclock : clockRunsBack (nextTurn s).1 s = false)
    (hd : decode (turnWord (nextTurn s).1 (nextTurn s).2) = .error e) : step s = .next (fetch s).2 := by
  have hf : fetch s = (.error e, (fetch s).2) := Prod.ext hd rfl
  unfold step
  rw [if_pos hl, if_neg (by simp [hclock]), hf]

section LinedUp

variable {s : State} {t : Turn} {rest : List Turn}

/-- A fetch of a turn that is lined up. -/
theorem fetch_cons (ha : s.agenda = t :: rest) :
    fetch s = (decode (turnWord t { s with agenda := rest }), latchInputs t { s with agenda := rest }) := by
  unfold fetch
  rw [nextTurn_cons ha]

/-- A lined up turn whose word is an operation runs it, with the turn taken and its inputs presented. -/
theorem step_cons_ok {i : Instr} (hl : s.cfg.legal = true) (ha : s.agenda = t :: rest)
    (hclock : clockRunsBack t s = false) (hd : decode (turnWord t { s with agenda := rest }) = .ok i) :
    step s = exec i (latchInputs t { s with agenda := rest }) := by
  have hnext := nextTurn_cons ha
  rw [step_of_decode_ok hl (by rwa [hnext]) (by rwa [hnext]), fetch_cons ha]

/-- A lined up turn whose word is an idle port is taken, and nothing runs. -/
theorem step_cons_error {e : DecodeReject} (hl : s.cfg.legal = true) (ha : s.agenda = t :: rest)
    (hclock : clockRunsBack t s = false) (hd : decode (turnWord t { s with agenda := rest }) = .error e) :
    step s = .next (latchInputs t { s with agenda := rest }) := by
  have hnext := nextTurn_cons ha
  rw [step_of_decode_error hl (by rwa [hnext]) (by rwa [hnext]), fetch_cons ha]

end LinedUp

/-- Two states with one next turn step alike, when the gates that the step tests before it agree. -/
theorem step_congr {s s' : State} (hturn : nextTurn s' = nextTurn s) (hcfg : s'.cfg = s.cfg) (hmode : s'.mode = s.mode)
    (henv : s'.env = s.env) : step s' = step s := by
  have hclock : clockRunsBack (nextTurn s).1 s' = clockRunsBack (nextTurn s).1 s := by
    rw [Bool.eq_iff_iff, clockRunsBack_iff, clockRunsBack_iff, hmode, henv]
  unfold step fetch
  rw [hturn, hcfg, hclock]

/-! ## What the operations leave of the parameters, the inputs and the calibrator

CALIBRATE alone writes the calibrator's readings and enters CALIBRATING (R109), and no operation writes the parameters
(R11) or the presented inputs (R41). -/

/-- What every operation but CALIBRATE leaves alone: the parameters, the presented inputs, the calibrator's state and kept
readings; and it does not enter CALIBRATING. -/
structure CalibratorFrame (s t : State) : Prop where
  cfg_eq : t.cfg = s.cfg
  env_eq : t.env = s.env
  calState_eq : t.calState = s.calState
  tstart_eq : t.tstart = s.tstart
  t0_eq : t.t0 = s.t0
  was_calibrating : t.mode = .calibrating → s.mode = .calibrating

namespace CalibratorFrame

theorem refl (s : State) : CalibratorFrame s s := ⟨rfl, rfl, rfl, rfl, rfl, id⟩

theorem trans {s t u : State} (h : CalibratorFrame s t) (h' : CalibratorFrame t u) : CalibratorFrame s u where
  cfg_eq := h'.cfg_eq.trans h.cfg_eq
  env_eq := h'.env_eq.trans h.env_eq
  calState_eq := h'.calState_eq.trans h.calState_eq
  tstart_eq := h'.tstart_eq.trans h.tstart_eq
  t0_eq := h'.t0_eq.trans h.t0_eq
  was_calibrating := h.was_calibrating ∘ h'.was_calibrating

/-- The readings stay in order where the frame holds. -/
theorem clockOk {s t : State} (h : CalibratorFrame s t) (hs : clockOk s) : clockOk t := by
  intro hm
  rw [h.env_eq, h.calState_eq, h.tstart_eq, h.t0_eq]
  exact hs (h.was_calibrating hm)

theorem whileConsRuns {f : State → State} {s : State} (h : CalibratorFrame s (f s)) :
    CalibratorFrame s (whileConsRuns f s) := by
  unfold Machine.whileConsRuns
  split
  · exact h
  · exact refl s

theorem enqueue (ev : BusEvent) (s : State) : CalibratorFrame s (enqueue ev s) := by
  constructor <;> simp

theorem debounce (rst : Bool) (s : State) : CalibratorFrame s (debounce rst s) := by
  constructor <;> simp

theorem driveData (v : Byte) (s : State) : CalibratorFrame s (driveData v s) := ⟨rfl, rfl, rfl, rfl, rfl, id⟩

theorem decoderStep (rst : Bool) {kind : State → State} (hkind : ∀ s, CalibratorFrame s (kind s)) (s : State) :
    CalibratorFrame s (decoderStep rst kind s) := by
  have release (u : State) : CalibratorFrame u (releaseData u) := ⟨rfl, rfl, rfl, rfl, rfl, id⟩
  cases ha : s.armed with
  | false =>
    rw [decoderStep_disarmed rst kind ha]
    exact release s
  | true =>
    rw [decoderStep_eq rst kind ha]
    have count (u : State) : CalibratorFrame u (countCycle u) := ⟨rfl, rfl, rfl, rfl, rfl, id⟩
    exact (((debounce rst s).trans (release _)).trans (hkind _)).trans (count _)

theorem tryDequeueDueBy {y : Word64} {s t : State} {m : Option BusEvent}
    (h : tryDequeueDueBy y s = .ok (m, t)) : CalibratorFrame s t := by
  rcases tryDequeueDueBy_cases h with ⟨-, rfl, -⟩ | ⟨w, -, -, -, -, rfl⟩ <;> exact ⟨rfl, rfl, rfl, rfl, rfl, id⟩

theorem loopTest (s : State) : CalibratorFrame s (loopTest s) := by
  rw [loopTest_eq]
  refine ⟨rfl, rfl, rfl, rfl, rfl, fun hm => ?_⟩
  dsimp only at hm
  split at hm
  · cases hm
  · exact hm

theorem applyAnswer (m : Option BusEvent) (s : State) : CalibratorFrame s (applyAnswer m s) := by
  cases m with
  | none => exact loopTest s
  | some ev =>
    have write : CalibratorFrame s (tgWrite ev.chipIndex ev.register ev.value s) := ⟨rfl, rfl, rfl, rfl, rfl, id⟩
    exact write.trans (loopTest _)

theorem fetchTarget (s : State) : CalibratorFrame s (fetchTarget s) := by
  rcases fetchTarget_cases s with ⟨-, h⟩ | ⟨-, -, h⟩ | ⟨-, -, h⟩ <;> rw [h]
  · exact ⟨rfl, rfl, rfl, rfl, rfl, nofun⟩
  · exact ⟨rfl, rfl, rfl, rfl, rfl, nofun⟩
  · have readTarget : CalibratorFrame s { s with target := s.hcc } := ⟨rfl, rfl, rfl, rfl, rfl, id⟩
    exact readTarget.trans (loopTest _)

theorem resetClear (s : State) : CalibratorFrame s (resetClear s) := by
  rw [resetClear_eq]
  exact ⟨rfl, rfl, rfl, rfl, rfl, nofun⟩

theorem mixOut (s : State) : CalibratorFrame s (goTo phFetchTarget (mix s)) := by
  constructor <;> simp [mix]

theorem cacheRefresh (s : State) : CalibratorFrame s (cacheRefresh s) := by
  rw [cacheRefresh_eq]
  exact ⟨rfl, rfl, rfl, rfl, rfl, id⟩

end CalibratorFrame

/-- Every operation but CALIBRATE keeps the calibrator's part of the state. -/
theorem exec_calibratorFrame {i : Instr} {s t : State} (hi : i ≠ .calibrate) (h : exec i s = .next t) :
    CalibratorFrame s t := by
  cases i with
  | idle rst =>
    cases h
    exact .decoderStep rst .refl s
  | read rst reg =>
    cases h
    exact .decoderStep rst (fun u => .driveData (cacheAt u reg) u) s
  | write rst d ci reg =>
    cases h
    exact .decoderStep rst (fun _ => .enqueue _ _) s
  | fetchTarget =>
    cases h
    exact .whileConsRuns (.fetchTarget s)
  | accStep =>
    cases h
    exact .whileConsRuns ⟨rfl, rfl, rfl, rfl, rfl, id⟩
  | tgAdvance =>
    cases h
    exact .whileConsRuns ⟨rfl, rfl, rfl, rfl, rfl, id⟩
  | cacheRefresh =>
    cases h
    exact .whileConsRuns (.cacheRefresh s)
  | drainApply =>
    change execDrainApply s = _ at h
    unfold execDrainApply at h
    split at h
    · split at h
      · rename_i m u hd
        cases h
        exact (CalibratorFrame.tryDequeueDueBy hd).trans (.applyAnswer m u)
      · cases h
    · cases h
      exact .refl s
  | mixOut =>
    cases h
    exact .whileConsRuns (.mixOut s)
  | resetClear =>
    cases h
    exact .whileConsRuns (.resetClear s)
  | calibrate => exact absurd rfl hi
  | enqueue ev =>
    cases h
    exact .enqueue ev s
  | tryDequeueDueBy cycle =>
    change execTryDequeueDueBy cycle s = _ at h
    unfold execTryDequeueDueBy at h
    split at h
    · rename_i m u hd
      cases h
      exact .tryDequeueDueBy hd
    · cases h

/-- CALIBRATE writes neither the parameters nor the presented inputs (R109). -/
theorem calibrateStep_inputs (s : State) : (calibrateStep s).cfg = s.cfg ∧ (calibrateStep s).env = s.env := by
  rcases calibrateStep_cases s with ⟨-, h⟩ | ⟨-, -, -, h⟩ | ⟨-, -, h⟩ | ⟨-, h⟩ | ⟨-, -, f, -, -, -, -, h⟩ <;>
    rw [h] <;> exact ⟨rfl, rfl⟩

/-- CALIBRATE keeps its readings in order: each one it takes is the last one presented (R109). -/
theorem calibrateStep_clockOk {s : State} (hs : clockOk s) : clockOk (calibrateStep s) := by
  rcases calibrateStep_cases s with ⟨-, h⟩ | ⟨-, -, -, h⟩ | ⟨-, -, h⟩ | ⟨-, h⟩ | ⟨-, -, f, -, -, -, -, h⟩ <;> rw [h]
  case inl => exact fun _ => ⟨le_rfl, nofun⟩
  case inr.inl =>
    intro hm
    obtain ⟨hstart, -⟩ := hs hm
    exact ⟨hstart, fun _ => ⟨hstart, le_rfl⟩⟩
  case inr.inr.inl => exact nofun
  case inr.inr.inr.inl => exact hs
  case inr.inr.inr.inr => exact nofun

/-- No operation writes the parameters (R11) or the presented inputs (R41). -/
theorem exec_inputs {i : Instr} {s t : State} (h : exec i s = .next t) : t.cfg = s.cfg ∧ t.env = s.env := by
  by_cases hi : i = .calibrate
  · subst hi
    cases h
    unfold whileConsRuns
    split
    · exact calibrateStep_inputs s
    · exact ⟨rfl, rfl⟩
  · have hframe := exec_calibratorFrame hi h
    exact ⟨hframe.cfg_eq, hframe.env_eq⟩

/-- Every operation keeps the calibrator's readings in order. -/
theorem exec_clockOk {i : Instr} {s t : State} (h : exec i s = .next t) (hs : clockOk s) : clockOk t := by
  by_cases hi : i = .calibrate
  · subst hi
    cases h
    unfold whileConsRuns
    split
    · exact calibrateStep_clockOk hs
    · exact hs
  · exact (exec_calibratorFrame hi h).clockOk hs

/-! ## What a step leaves of them -/

/-- A step leaves the parameters and the inputs of its turn. -/
theorem step_inputs {s t : State} (h : step s = .next t) : t.cfg = s.cfg ∧ t.env = (fetch s).2.env := by
  obtain ⟨-, -, ⟨i, -, hexec⟩ | ⟨e, -, rfl⟩⟩ := step_cases h
  · obtain ⟨hcfg, henv⟩ := exec_inputs hexec
    exact ⟨hcfg.trans (fetch_cfg s), henv⟩
  · exact ⟨fetch_cfg s, rfl⟩

/-- A turn that passes the clock's check presents a reading at or past those the calibrator keeps. -/
theorem fetch_clockOk {s : State} (hclock : clockRunsBack (nextTurn s).1 s = false) (hs : clockOk s) :
    clockOk (fetch s).2 := by
  intro hm
  rw [fetch_mode] at hm
  have hle := fetch_wallClock_le hclock hm
  obtain ⟨hstart, hwindow⟩ := hs hm
  simp only [fetch_tstart, fetch_calState, fetch_t0]
  refine ⟨hstart.trans hle, fun hc => ?_⟩
  obtain ⟨hstart0, h0⟩ := hwindow hc
  exact ⟨hstart0, h0.trans hle⟩

/-- Every step keeps the calibrator's readings in order (U24). -/
theorem step_clockOk {s t : State} (hs : clockOk s) (h : step s = .next t) : clockOk t := by
  obtain ⟨-, hclock, ⟨i, -, hexec⟩ | ⟨e, -, rfl⟩⟩ := step_cases h
  · exact exec_clockOk hexec (fetch_clockOk hclock hs)
  · exact fetch_clockOk hclock hs

/-- Readings in order have no negative difference (R15, R109). -/
theorem elapsedUs_nonneg {now since : Word64} (h : since.toNat ≤ now.toNat) : 0 ≤ elapsedUs now since := by
  unfold elapsedUs
  omega

/-! ## Progress -/

/-- A FIFO that is not empty has a written head slot (R31, R92). -/
theorem FifoInv.headSlot_written {s : State} (h : FifoInv s) (hne : s.wr ≠ s.rd) : headSlot s ≠ none := by
  have hocc : 0 < s.occ := by
    have hwr := h.wr_lt
    have hrd := h.rd_lt
    unfold State.occ
    rw [indexDiff_eq hwr hrd]
    split <;> omega
  exact Option.isSome_iff_ne_none.mp (h.queued_written 0 hocc)

/-- A dequeue answers when a queued head slot is written (R95). -/
theorem tryDequeueDueBy_answers {s : State} (y : Word64) (hw : s.wr ≠ s.rd → headSlot s ≠ none) :
    ∃ m t, tryDequeueDueBy y s = .ok (m, t) := by
  cases hd : tryDequeueDueBy y s with
  | ok a => exact ⟨a.1, a.2, rfl⟩
  | error f =>
    obtain ⟨hne, hnone, -⟩ := tryDequeueDueBy_error.mp hd
    exact absurd hnone (hw hne)

/-- Every operation answers a next state: only a dequeue could fault, at an unwritten head slot (R81, R132). -/
theorem exec_answers (i : Instr) {s : State} (hw : s.wr ≠ s.rd → headSlot s ≠ none) : ∃ t, exec i s = .next t := by
  cases i with
  | idle _ | read _ _ | write _ _ _ _ | fetchTarget | accStep | tgAdvance | cacheRefresh | mixOut | resetClear
  | calibrate | enqueue _ => exact ⟨_, rfl⟩
  | drainApply =>
    obtain ⟨m, t, hd⟩ := tryDequeueDueBy_answers s.ce hw
    cases hr : s.consRuns with
    | true => exact ⟨applyAnswer m t, by simp [exec, execDrainApply, hr, hd]⟩
    | false => exact ⟨s, by simp [exec, execDrainApply, hr]⟩
  | tryDequeueDueBy cycle =>
    obtain ⟨m, t, hd⟩ := tryDequeueDueBy_answers cycle hw
    exact ⟨t, by simp [exec, execTryDequeueDueBy, hd]⟩

/-! ## The statements -/

/-- Settles O50: the refusal is the step's own check; an accepted turn of CALIBRATING presents no lower reading, no
operation writes the inputs, and CALIBRATE keeps only readings that were presented. -/
theorem wallClockNeverRunsBack : Obligations.WallClockNeverRunsBack := by
  refine ⟨fun e s hl hturn hm hlt => ?_, fun s t hm h => ?_, fun s t hs h => ?_⟩
  · exact step_clockRunsBack hl ((clockRunsBack_iff _ _).mpr ⟨e, hturn, hm, hlt⟩)
  · obtain ⟨-, hclock, -⟩ := step_cases h
    obtain ⟨-, henv⟩ := step_inputs h
    rw [henv]
    exact fetch_wallClock_le hclock hm
  · have ht := step_clockOk hs h
    refine ⟨ht, fun hm => ?_, fun hm hc => ?_⟩
    · obtain ⟨hstart, -⟩ := ht hm
      exact elapsedUs_nonneg hstart
    · obtain ⟨-, hwindow⟩ := ht hm
      obtain ⟨-, h0⟩ := hwindow hc
      exact elapsedUs_nonneg h0

/-- Settles O51: no operation writes the parameters. -/
theorem parametersAreConstant : Obligations.ParametersAreConstant := by
  intro s t h
  obtain ⟨hcfg, -⟩ := step_inputs h
  exact hcfg

/-- Settles O55: the configuration is legal, the clock does not run back, and every operation answers because the
invariant has each queued slot written. -/
theorem noStepStops : Obligations.NoStepStops := by
  intro s hinv hmono
  have hclock : clockRunsBack (nextTurn s).1 s = false := by
    rw [Bool.eq_false_iff, ne_eq, clockRunsBack_iff]
    rintro ⟨e, hturn, hm, hlt⟩
    exact absurd (hmono e hturn hm) (not_le.mpr hlt)
  unfold SafeStep
  cases hd : decode (turnWord (nextTurn s).1 (nextTurn s).2) with
  | error e => exact ⟨_, step_of_decode_error hinv.cfg_legal hclock hd⟩
  | ok i =>
    rw [step_of_decode_ok hinv.cfg_legal hclock hd]
    exact exec_answers i (by simpa using hinv.fifo.headSlot_written)

/-- Settles O48, kind of turn by kind of turn. -/
theorem stepRunsTheDecodedOperation : Obligations.StepRunsTheDecodedOperation := by
  intro s rest hl
  refine ⟨fun bs i ha hd => ?producer, fun e i ha hd hmono => ?consumer, fun we ev i ha hd => ?writePort,
    fun dq i ha hd => ?readPort, fun ha => ?environment, fun ev ha => ?idleWritePort, fun dq ha hre => ?idleReadPort⟩
  case producer => exact step_cons_ok hl ha rfl hd
  case consumer =>
    have hclock : clockRunsBack (.agent (.consumer e)) s = false :=
      decide_eq_false fun ⟨hm, hlt⟩ => absurd (hmono hm) (not_le.mpr hlt)
    exact step_cons_ok hl ha hclock hd
  case writePort => exact step_cons_ok hl ha rfl hd
  case readPort => exact step_cons_ok hl ha rfl hd
  case environment => exact (step_congr (nextTurn_environment ha) rfl rfl rfl).symm
  case idleWritePort => exact step_cons_error hl ha rfl rfl
  case idleReadPort =>
    have hidle : decode (.fifoRead dq) = .error .readPortIdle := if_neg (ne_true_of_eq_false hre)
    exact step_cons_error hl ha rfl hidle

/-- Settles O49: the step tests the configuration before anything else. -/
theorem illegalConfigurationIsRefused : Obligations.IllegalConfigurationIsRefused := fun _ => step_illegal

end Sys2Proof.Machine

/-! SUPPORT, then the proofs of the statements that 10_state.md gives rise to: the FIFO's derived flags (R43, R92), the
slot nothing has written (R31), and which registers each phase of CONS writes (R22, R30, R45). -/

namespace Sys2Proof.Machine

open Sys2Proof

/-! ## EMPTY and FULL, read from the indices (R43, R92) -/

/-- An index of LOG2CAP + 1 bits is its top bit and its slot (R91). -/
theorem index_split {cap i : Nat} (h : i < 2 * cap) :
    (i / cap = 0 ∧ i % cap = i ∧ i < cap) ∨ (i / cap = 1 ∧ i = cap + i % cap) := by
  have hdiv : i / cap < 2 := Nat.div_lt_of_lt_mul (by rwa [Nat.mul_comm])
  have hsum := Nat.div_add_mod i cap
  have hmod : i % cap < cap := Nat.mod_lt _ (by omega)
  interval_cases i / cap
  · exact .inl ⟨rfl, by omega, by omega⟩
  · exact .inr ⟨rfl, by omega⟩

section Indices

variable {p : Params} {a b : Nat}

/-- Indices differ by nothing just when they are equal (R92). -/
theorem indexDiff_eq_zero_iff (ha : a < 2 ^ (p.log2cap + 1)) (hb : b < 2 ^ (p.log2cap + 1)) :
    indexDiff p a b = 0 ↔ a = b := by
  rw [indexDiff_eq ha hb]
  split <;> omega

/-- Indices differ by CAP just when they address one slot and their top bits differ (R92). -/
theorem indexDiff_eq_capacity_iff (ha : a < 2 ^ (p.log2cap + 1)) (hb : b < 2 ^ (p.log2cap + 1)) :
    indexDiff p a b = 2 ^ p.log2cap ↔
      a % 2 ^ p.log2cap = b % 2 ^ p.log2cap ∧ a / 2 ^ p.log2cap ≠ b / 2 ^ p.log2cap := by
  rw [indexDiff_eq ha hb]
  rw [Nat.pow_succ'] at ha hb ⊢
  -- Each index lies in the lower or the upper half, and either may be the greater.
  obtain ⟨hda, hsa, _⟩ | ⟨hda, hsa⟩ := index_split ha <;>
    obtain ⟨hdb, hsb, _⟩ | ⟨hdb, hsb⟩ := index_split hb
  all_goals
    rw [hda, hdb]
    split <;> omega

end Indices

/-- Settles O17: both flags are the index difference R92 takes, at 0 and at CAP. -/
theorem emptyAndFullFromTheIndices : Obligations.EmptyAndFullFromTheIndices := by
  intro s hwr hrd
  constructor
  · rw [fifoEmpty_iff]
    exact (indexDiff_eq_zero_iff hwr hrd).symm
  · rw [fifoFull_iff]
    exact indexDiff_eq_capacity_iff hwr hrd

/-! ## A dequeue of an unwritten slot (R31) -/

/-- Settles O20: both operations examine the head slot through `tryDequeueDueBy`, whatever cycle they ask for. -/
theorem unwrittenHeadSlotFaults : Obligations.UnwrittenHeadSlotFaults := by
  intro y s hne hslot
  have hfault (c : Word64) : tryDequeueDueBy c s = .error .slotNeverWritten :=
    tryDequeueDueBy_error.mpr ⟨hne.symm, hslot, rfl⟩
  refine ⟨?_, fun hruns => ?_⟩
  · simp [exec, execTryDequeueDueBy, hfault]
  · simp [exec, execDrainApply, hruns, hfault]

/-! ## What each phase of CONS writes (R45)

Per phase, the next state as an update of the registers that the phase may write: every other register is the old one. A
phase that CONS does not perform, in HALTED and STOPPED, is the case of the old values (R123). -/

/-- CONS performs its phase, or nothing changes (R123). -/
theorem whileConsRuns_cases (f : State → State) (s : State) :
    whileConsRuns f s = f s ∨ whileConsRuns f s = s := by
  unfold whileConsRuns
  split
  · exact .inl rfl
  · exact .inr rfl

section WriteSets

variable {s t : State}

/-- FETCH_TARGET writes TARGET, ARMED at a shutdown, and the control registers (R126, R156). -/
theorem exec_fetchTarget_writes (h : exec .fetchTarget s = .next t) :
    ∃ target armed mode phase, t = { s with target := target, armed := armed, mode := mode, phase := phase } := by
  cases h
  rcases whileConsRuns_cases fetchTarget s with h | h <;> rw [h]
  · rcases fetchTarget_cases s with ⟨-, h⟩ | ⟨-, -, h⟩ | ⟨-, -, h⟩ <;> rw [h]
    · exact ⟨_, _, _, _, rfl⟩
    · exact ⟨_, _, _, _, rfl⟩
    · rw [loopTest_eq]
      exact ⟨_, _, _, _, rfl⟩
  · exact ⟨_, _, _, _, rfl⟩

/-- ACC_STEP writes NOUT and CARRY (R104). -/
theorem exec_accStep_writes (h : exec .accStep s = .next t) :
    ∃ nout carry phase, t = { s with nout := nout, carry := carry, phase := phase } := by
  cases h
  rcases whileConsRuns_cases (fun t => goTo phTgAdvance (accumulate t)) s with h | h <;> rw [h] <;>
    exact ⟨_, _, _, rfl⟩

/-- TG_ADVANCE writes CE and calls the tone generators (R127). -/
theorem exec_tgAdvance_writes (h : exec .tgAdvance s = .next t) :
    ∃ ce tgCalls phase, t = { s with ce := ce, tgCalls := tgCalls, phase := phase } := by
  cases h
  rcases whileConsRuns_cases tgAdvance s with h | h <;> rw [h] <;> exact ⟨_, _, _, rfl⟩

/-- CACHE_REFRESH writes CACHE and calls the tone generators (R128). -/
theorem exec_cacheRefresh_writes (h : exec .cacheRefresh s = .next t) :
    ∃ cache tgCalls phase, t = { s with cache := cache, tgCalls := tgCalls, phase := phase } := by
  cases h
  rcases whileConsRuns_cases cacheRefresh s with h | h <;> rw [h]
  · rw [cacheRefresh_eq]
    exact ⟨_, _, _, rfl⟩
  · exact ⟨_, _, _, rfl⟩

/-- The read port's answer moves RD and is presented (R95, R73). -/
theorem tryDequeueDueBy_writes {y : Word64} {m : Option BusEvent} (h : tryDequeueDueBy y s = .ok (m, t)) :
    ∃ rd readPort, t = { s with rd := rd, readPort := readPort } := by
  rcases tryDequeueDueBy_cases h with ⟨-, rfl, -⟩ | ⟨w, -, -, -, -, rfl⟩ <;> exact ⟨_, _, rfl⟩

/-- TRY_DEQUEUE_DUE_BY writes what the read port's answer does (R95). -/
theorem exec_tryDequeueDueBy_writes {y : Word64} (h : exec (.tryDequeueDueBy y) s = .next t) :
    ∃ rd readPort, t = { s with rd := rd, readPort := readPort } := by
  change execTryDequeueDueBy y s = .next t at h
  unfold execTryDequeueDueBy at h
  split at h
  · rename_i m u hd
    cases h
    exact tryDequeueDueBy_writes hd
  · cases h

/-- Applying the read port's answer writes a register of a tone generator and the control registers (R129). -/
theorem applyAnswer_writes (m : Option BusEvent) (s : State) :
    ∃ tgreg tgCalls mode phase,
      applyAnswer m s = { s with tgreg := tgreg, tgCalls := tgCalls, mode := mode, phase := phase } := by
  cases m with
  | none => exact ⟨_, _, _, _, loopTest_eq s⟩
  | some ev => exact ⟨_, _, _, _, loopTest_eq (tgWrite ev.chipIndex ev.register ev.value s)⟩

/-- DRAIN_APPLY writes RD, the port's response, TGREG and the control registers (R129). -/
theorem exec_drainApply_writes (h : exec .drainApply s = .next t) :
    ∃ rd readPort tgreg tgCalls mode phase,
      t = { s with rd := rd, readPort := readPort, tgreg := tgreg, tgCalls := tgCalls, mode := mode, phase := phase } := by
  change execDrainApply s = .next t at h
  unfold execDrainApply at h
  split at h
  · split at h
    · rename_i m u hd
      cases h
      obtain ⟨rd, readPort, rfl⟩ := tryDequeueDueBy_writes hd
      obtain ⟨tgreg, tgCalls, mode, phase, happly⟩ := applyAnswer_writes m { s with rd := rd, readPort := readPort }
      exact ⟨_, _, _, _, _, _, happly⟩
    · cases h
  · cases h
    exact ⟨_, _, _, _, _, _, rfl⟩

/-- MIX_OUT writes LEFT, RIGHT and the sink, and calls the tone generators (R115, R121). -/
theorem exec_mixOut_writes (h : exec .mixOut s = .next t) :
    ∃ left right sink tgCalls phase,
      t = { s with left := left, right := right, sink := sink, tgCalls := tgCalls, phase := phase } := by
  cases h
  rcases whileConsRuns_cases (fun t => goTo phFetchTarget (mix t)) s with h | h <;> rw [h] <;>
    exact ⟨_, _, _, _, _, rfl⟩

/-- RESET_CLEAR writes TGREG, RC, RELEASED, CARRY and the control registers (R134). -/
theorem exec_resetClear_writes (h : exec .resetClear s = .next t) :
    ∃ tgreg tgCalls rc released carry mode phase,
      t = { s with tgreg := tgreg, tgCalls := tgCalls, rc := rc, released := released, carry := carry,
                   mode := mode, phase := phase } := by
  cases h
  rcases whileConsRuns_cases resetClear s with h | h <;> rw [h]
  · rw [resetClear_eq]
    exact ⟨_, _, _, _, _, _, _, rfl⟩
  · exact ⟨_, _, _, _, _, _, _, rfl⟩

/-- CALIBRATE writes the calibrator's registers, FREQ, INC, ARMED and the control registers (R109, R145). -/
theorem exec_calibrate_writes (h : exec .calibrate s = .next t) :
    ∃ freq inc calState tstart t0 c0 armed mode phase,
      t = { s with freq := freq, inc := inc, calState := calState, tstart := tstart, t0 := t0, c0 := c0,
                   armed := armed, mode := mode, phase := phase } := by
  cases h
  rcases whileConsRuns_cases calibrateStep s with h | h <;> rw [h]
  · rcases calibrateStep_cases s with ⟨-, h⟩ | ⟨-, -, -, h⟩ | ⟨-, -, h⟩ | ⟨-, h⟩ | ⟨-, -, f, -, -, -, -, h⟩ <;>
      rw [h] <;> exact ⟨_, _, _, _, _, _, _, _, _, rfl⟩
  · exact ⟨_, _, _, _, _, _, _, _, _, rfl⟩

end WriteSets

/-- Settles O40, phase by phase, from the phase's write set. -/
theorem phasesWriteOnlyConsumerState : Obligations.PhasesWriteOnlyConsumerState := by
  intro i s t hi h
  cases i with
  | idle _ | read _ _ | write _ _ _ _ | enqueue _ | tryDequeueDueBy _ => cases hi
  | fetchTarget =>
    obtain ⟨target, armed, mode, phase, rfl⟩ := exec_fetchTarget_writes h
    simp
  | accStep =>
    obtain ⟨nout, carry, phase, rfl⟩ := exec_accStep_writes h
    simp
  | tgAdvance =>
    obtain ⟨ce, tgCalls, phase, rfl⟩ := exec_tgAdvance_writes h
    simp
  | cacheRefresh =>
    obtain ⟨cache, tgCalls, phase, rfl⟩ := exec_cacheRefresh_writes h
    simp
  | drainApply =>
    obtain ⟨rd, readPort, tgreg, tgCalls, mode, phase, rfl⟩ := exec_drainApply_writes h
    simp
  | mixOut =>
    obtain ⟨left, right, sink, tgCalls, phase, rfl⟩ := exec_mixOut_writes h
    simp
  | resetClear =>
    obtain ⟨tgreg, tgCalls, rc, released, carry, mode, phase, rfl⟩ := exec_resetClear_writes h
    simp
  | calibrate =>
    obtain ⟨freq, inc, calState, tstart, t0, c0, armed, mode, phase, rfl⟩ := exec_calibrate_writes h
    simp

/-! ## Who writes the cache (R22, R64) -/

@[simp] theorem nextTurn_phase (s : State) : (nextTurn s).2.phase = s.phase := by rw [nextTurn_eq]
@[simp] theorem fetch_cache (s : State) : (fetch s).2.cache = s.cache := by rw [fetch_eq]

/-- A fetch does not decide whether CONS runs (R123). -/
@[simp] theorem fetch_consRuns (s : State) : (fetch s).2.consRuns = s.consRuns := by simp [State.consRuns]

/-- No part of a bus cycle writes the cache, if the transaction kind's own part does not (R79). -/
theorem decoderStep_cache (rst : Bool) {kind : State → State} (hkind : ∀ u, (kind u).cache = u.cache) (s : State) :
    (decoderStep rst kind s).cache = s.cache := by
  unfold decoderStep
  split <;> simp [hkind]

/-- An operation that changes the cache is CACHE_REFRESH, performed (R22). -/
theorem exec_cache_changed {i : Instr} {s t : State} (h : exec i s = .next t) (hne : t.cache ≠ s.cache) :
    i = .cacheRefresh ∧ s.consRuns = true := by
  have phase_keeps (hi : isPhase i = true) (hi' : i ≠ .cacheRefresh) : t.cache = s.cache := by
    obtain ⟨-, -, -, -, -, -, -, -, -, -, -, -, -, hcache, -⟩ := phasesWriteOnlyConsumerState i s t hi h
    exact hcache hi'
  cases i with
  | fetchTarget | accStep | tgAdvance | drainApply | mixOut | resetClear | calibrate =>
    exact absurd (phase_keeps rfl nofun) hne
  | cacheRefresh =>
    refine ⟨rfl, ?_⟩
    by_contra hstopped
    cases h
    exact hne (congrArg State.cache (whileConsRuns_stopped cacheRefresh (by simpa using hstopped)))
  | idle rst =>
    cases h
    exact absurd (decoderStep_cache rst (fun _ => rfl) s) hne
  | read rst reg =>
    cases h
    exact absurd (decoderStep_cache rst (fun u => driveData_cache _ u) s) hne
  | write rst d ci reg =>
    cases h
    exact absurd (decoderStep_cache rst (fun u => enqueue_cache _ u) s) hne
  | enqueue ev =>
    cases h
    exact absurd (enqueue_cache ev s) hne
  | tryDequeueDueBy cycle =>
    obtain ⟨rd, readPort, rfl⟩ := exec_tryDequeueDueBy_writes h
    exact absurd rfl hne

/-- The phase code of CACHE_REFRESH (R74). -/
theorem decodePhase_eq_cacheRefresh {p : PhaseCode} (h : decodePhase p = .cacheRefresh) : p = 0b011#3 := by
  revert p
  decide

/-- A turn that asks for CACHE_REFRESH is CONS's, with that phase (R65, R74). -/
theorem decode_turnWord_cacheRefresh {tn : Turn} {s : State} (h : decode (turnWord tn s) = .ok .cacheRefresh) :
    s.phase = 0b011#3 ∧ ∃ e, tn = .agent (.consumer e) := by
  match tn with
  | .agent (.consumer e) => exact ⟨decodePhase_eq_cacheRefresh (Except.ok.inj h), e, rfl⟩
  | .agent (.producer bs) =>
    have hbus : decodeBus bs = .cacheRefresh := Except.ok.inj h
    unfold decodeBus at hbus
    split at hbus <;> [skip; split at hbus] <;> cases hbus
  | .fifoWrite we ev => cases we <;> cases h
  | .fifoRead dq =>
    change decodeRequest dq = _ at h
    unfold decodeRequest at h
    split at h <;> cases h

/-- Settles O45: a step changes the cache by the operation it runs, and only CACHE_REFRESH changes it. -/
theorem onlyCacheRefreshWritesTheCache : Obligations.OnlyCacheRefreshWritesTheCache := by
  intro s t h hne
  obtain ⟨-, -, ⟨i, hd, hexec⟩ | ⟨e, -, rfl⟩⟩ := step_cases h
  · obtain ⟨rfl, hruns⟩ := exec_cache_changed hexec (by rwa [fetch_cache])
    obtain ⟨hphase, hturn⟩ := decode_turnWord_cacheRefresh hd
    exact ⟨nextTurn_phase s ▸ hphase, fetch_consRuns s ▸ hruns, hturn⟩
  · exact absurd (fetch_cache s) hne

end Sys2Proof.Machine

/-! SUPPORT, then the proofs of the statements that 20_memory.md gives rise to: what a host read and a host write of a
raw address do (R50, R51), and that TARGET follows HCC (R57, R59). -/

namespace Sys2Proof.Machine

open Sys2Proof

/-! ## The samples of R76 and the fields of a sample (R66) -/

/-- `RDA ra` as a number (R76). -/
theorem readSample_toNat (ra : RawAddr) : (readSample ra).toNat = 0x30000 + ra.toNat := by
  have := ra.isLt
  simp only [readSample, BitVec.toNat_add, BitVec.toNat_setWidth, BitVec.toNat_ofNat]
  omega

/-- `WRA ra,#v` as a number (R76). -/
theorem writeSample_toNat (ra : RawAddr) (v : Byte) :
    (writeSample ra v).toNat = 0x20000 + 256 * v.toNat + ra.toNat := by
  have := ra.isLt
  have := v.isLt
  simp only [writeSample, BitVec.toNat_add, BitVec.toNat_mul, BitVec.toNat_setWidth, BitVec.toNat_ofNat]
  omega

section Fields

variable {bs : BusWord} {k : Nat} {v : Byte} {ra : RawAddr} (h : bs.toNat = 65536 * k + 256 * v.toNat + ra.toNat)

include h

/-- The low byte is RA (R66). -/
theorem sample_ra : bs.ra = ra := by
  have := ra.isLt
  apply BitVec.eq_of_toNat_eq
  rw [BusWord.ra, BitVec.extractLsb'_toNat, Nat.shiftRight_zero]
  omega

/-- The second byte is D (R66). -/
theorem sample_d : bs.d = v := by
  have := ra.isLt
  have := v.isLt
  apply BitVec.eq_of_toNat_eq
  rw [BusWord.d, BitVec.extractLsb'_toNat, Nat.shiftRight_eq_div_pow]
  omega

/-- The bits above them are RW, SEL and RST (R66). -/
theorem sample_getLsbD (j : Nat) : bs.getLsbD (16 + j) = k.testBit j := by
  have := ra.isLt
  have := v.isLt
  have hk : bs.toNat >>> 16 = k := by
    rw [Nat.shiftRight_eq_div_pow]
    omega
  rw [BitVec.getLsbD, ← Nat.testBit_shiftRight, hk]

end Fields

/-- The canonical READ sample of a raw address decodes to a READ of its low five bits (R67, R68). -/
theorem decode_readSample (ra : RawAddr) :
    decode (.bus (readSample ra)) = .ok (.read false (ra.extractLsb' 0 5)) := by
  have h : (readSample ra).toNat = 65536 * 3 + 256 * (0 : Byte).toNat + ra.toNat := readSample_toNat ra
  have hrw : (readSample ra).rw = true := sample_getLsbD h 0
  have hsel : (readSample ra).sel = true := sample_getLsbD h 1
  have hrst : (readSample ra).rst = false := sample_getLsbD h 2
  simp [decode, decodeBus, hrw, hsel, hrst, sample_ra h, RawAddr.register]

/-- The canonical WRITE sample of a raw address and a byte decodes to a WRITE of them (R67, R68). -/
theorem decode_writeSample (ra : RawAddr) (v : Byte) :
    decode (.bus (writeSample ra v)) = .ok (.write false v (ra.extractLsb' 5 3) (ra.extractLsb' 0 5)) := by
  have h : (writeSample ra v).toNat = 65536 * 2 + 256 * v.toNat + ra.toNat := writeSample_toNat ra v
  have hrw : (writeSample ra v).rw = false := sample_getLsbD h 0
  have hsel : (writeSample ra v).sel = true := sample_getLsbD h 1
  have hrst : (writeSample ra v).rst = false := sample_getLsbD h 2
  simp [decode, decodeBus, hrw, hsel, hrst, sample_ra h, sample_d h, RawAddr.chipIndex, RawAddr.register]

/-! ## READ and WRITE as one record update, while armed (R79, R85, R87) -/

/-- READ while armed (R85). -/
theorem exec_read_armed (rst : Bool) (reg : RegNum) {s : State} (h : s.armed = true) :
    exec (.read rst reg) s = .next { s with
      hcc := s.hcc + 1
      rc := if rst then s.rc + 1 else s.rc
      pressed := rst
      released := s.released || (!rst && s.pressed)
      dOE := true
      dOut := some (cacheAt s reg) } := by
  change Host.Outcome.next (decoderStep rst _ s) = _
  rw [decoderStep_eq rst _ h, debounce_eq]
  rfl

/-- WRITE while armed: the enqueue of the event stamped HCC, and what every decoder step does (R87). -/
theorem exec_write_armed (rst : Bool) (d : Byte) (ci : ChipIndex) (reg : RegNum) {s : State} (h : s.armed = true) :
    exec (.write rst d ci reg) s = .next
      { enqueue { chipIndex := ci, register := reg, value := d, atCycle := s.hcc } s with
        hcc := s.hcc + 1
        rc := if rst then s.rc + 1 else s.rc
        pressed := rst
        released := s.released || (!rst && s.pressed)
        dOE := false
        dOut := none } := by
  change Host.Outcome.next (decoderStep rst _ s) = _
  rw [decoderStep_eq rst _ h, debounce_eq]
  simp only [enqueue_eq]
  rfl

/-- Settles O14: the sample's READ as one record update, twice; the second one finds PRESSED = 0 and the byte already
driven. -/
theorem hostReadIgnoresTheChip : Obligations.HostReadIgnoresTheChip := by
  intro ra s harmed
  refine ⟨_, _, decode_readSample ra, exec_read_armed false _ harmed, ?_, rfl, ?_⟩
  · simp
  · rw [exec_read_armed false _ (by exact harmed)]
    simp [cacheAt]

/-! ## The fields of a packed event (R72) -/

section PackedEvent

variable (ev : BusEvent)

/-- The slot word as a number, field by field (R72). -/
theorem packEvent_toNat :
    (packEvent ev).toNat
      = ((ev.atCycle.toNat * 2 ^ 8 + ev.value.toNat) * 2 ^ 3 + ev.chipIndex.toNat) * 2 ^ 5 + ev.register.toNat := by
  change (ev.atCycle ++ ev.value ++ ev.chipIndex ++ ev.register : BitVec (64 + 8 + 3 + 5)).toNat = _
  rw [BitVec.toNat_append, BitVec.toNat_append, BitVec.toNat_append,
    ← Nat.shiftLeft_add_eq_or_of_lt ev.register.isLt, ← Nat.shiftLeft_add_eq_or_of_lt ev.chipIndex.isLt,
    ← Nat.shiftLeft_add_eq_or_of_lt ev.value.isLt]
  simp only [Nat.shiftLeft_eq]

/-- Each field stands at the bits R72 gives it. -/
theorem packEvent_fields :
    (packEvent ev).extractLsb' 16 64 = ev.atCycle ∧ (packEvent ev).extractLsb' 8 8 = ev.value ∧
      (packEvent ev).extractLsb' 5 3 = ev.chipIndex ∧ (packEvent ev).extractLsb' 0 5 = ev.register := by
  have := ev.atCycle.isLt
  have := ev.value.isLt
  have := ev.chipIndex.isLt
  have := ev.register.isLt
  refine ⟨?_, ?_, ?_, ?_⟩ <;> apply BitVec.eq_of_toNat_eq <;>
    rw [BitVec.extractLsb'_toNat, packEvent_toNat, Nat.shiftRight_eq_div_pow] <;> omega

/-- A slot gives back the event put into it (R72). -/
@[simp] theorem unpackEvent_packEvent : unpackEvent (packEvent ev) = ev := by
  obtain ⟨hcycle, hvalue, hchip, hreg⟩ := packEvent_fields ev
  unfold unpackEvent
  rw [hcycle, hvalue, hchip, hreg]

end PackedEvent

/-! ## The queue as the indices move (R92, R93) -/

/-- The slot under WR is the one past the queued events (R91, R92). -/
theorem slotOf_rd_add_occ {s : State} (hwr : s.wr < 2 ^ (s.cfg.log2cap + 1)) (hrd : s.rd < 2 ^ (s.cfg.log2cap + 1)) :
    slotOf s.cfg (s.rd + s.occ) = slotOf s.cfg s.wr := by
  have hindex : indexTrunc s.cfg (s.rd + s.occ) = s.wr := by
    unfold indexTrunc State.occ
    rw [indexDiff_eq hwr hrd]
    split
    · rw [Nat.add_sub_cancel' ‹_›, Nat.mod_eq_of_lt hwr]
    · rw [Nat.add_sub_cancel' (by omega), Nat.add_mod_right, Nat.mod_eq_of_lt hwr]
  rw [← hindex, slotOf_indexTrunc]

/-- Offsets from the next index are one more than from the index (R91). -/
theorem slotOf_indexNext_add (p : Params) (i k : Nat) : slotOf p (indexNext p i + k) = slotOf p (i + (k + 1)) := by
  have hnext : slotOf p (indexNext p i) = slotOf p (i + 1) := slotOf_indexTrunc p (i + 1)
  rw [Nat.add_comm k 1, ← Nat.add_assoc]
  exact Nat.ModEq.add_right k hnext

/-- RD moved past the oldest event, as an eviction and a dequeue do (R94, R95). -/
def advanceRd (s : State) : State := { s with rd := indexNext s.cfg s.rd }

/-- An event put into the slot at WR and published, without an eviction: E1 and E3 of R94. -/
def publish (ev : BusEvent) (s : State) : State :=
  { s with slots := slotWrite s.slots (slotOf s.cfg s.wr) (packEvent ev), wr := indexNext s.cfg s.wr }

/-- An enqueue publishes its event, after an eviction when the FIFO is full (R94). -/
theorem enqueue_eq_publish (ev : BusEvent) (s : State) :
    enqueue ev s = publish ev (if s.isFull then advanceRd s else s) := by
  rw [enqueue_eq]
  split <;> rfl

/-- The queue lists as many events as OCC says when every queued slot is written (R92, R31). -/
theorem queueOf_length {s : State} (hwritten : ∀ k, k < s.occ → (queuedWord s k).isSome = true) :
    (queueOf s).length = s.occ := by
  unfold queueOf
  rw [List.filterMap_length_eq_length.mpr, List.length_range]
  intro k hk
  rw [Option.isSome_map]
  exact hwritten k (List.mem_range.mp hk)

section Indices

variable {s : State} (hwr : s.wr < 2 ^ (s.cfg.log2cap + 1)) (hrd : s.rd < 2 ^ (s.cfg.log2cap + 1))

include hwr hrd

/-- RD moved on leaves one event less (R92). -/
theorem advanceRd_occ (hne : s.wr ≠ s.rd) : s.occ = (advanceRd s).occ + 1 := by
  unfold State.occ advanceRd
  dsimp only
  rw [indexDiff_eq hwr hrd, indexDiff_eq hwr (indexNext_lt _ _), indexNext_eq hrd]
  split <;> split <;> split <;> omega

/-- RD moved on drops the oldest event of the queue (R93). -/
theorem queueOf_advanceRd (hne : s.wr ≠ s.rd) (hhead : (queuedWord s 0).isSome = true) :
    queueOf (advanceRd s) = (queueOf s).tail := by
  have hword (k : Nat) : queuedWord (advanceRd s) k = queuedWord s (k + 1) :=
    congrArg (slotRead s.slots) (slotOf_indexNext_add s.cfg s.rd k)
  obtain ⟨w, hw⟩ := Option.isSome_iff_exists.mp hhead
  unfold queueOf
  rw [advanceRd_occ hwr hrd hne, List.range_succ_eq_map, List.filterMap_cons, hw, List.filterMap_map]
  simp [hword]

/-- A published event is one more, while there is room (R92). -/
theorem publish_occ (ev : BusEvent) (hroom : s.occ < 2 ^ s.cfg.log2cap) : (publish ev s).occ = s.occ + 1 := by
  unfold State.occ publish at *
  dsimp only
  rw [indexDiff_eq hwr hrd] at *
  rw [indexDiff_eq (indexNext_lt _ _) hrd, indexNext_eq hwr]
  rw [Nat.pow_succ'] at *
  split at hroom <;> split <;> split <;> omega

/-- A published event joins the queue at its end, while there is room (R93). -/
theorem queueOf_publish (ev : BusEvent) (hroom : s.occ < 2 ^ s.cfg.log2cap) :
    queueOf (publish ev s) = queueOf s ++ [ev] := by
  have hslot := slotOf_rd_add_occ hwr hrd
  have hword (k : Nat) : queuedWord (publish ev s) k
      = if slotOf s.cfg (s.rd + k) = slotOf s.cfg s.wr then some (packEvent ev) else queuedWord s k :=
    slotRead_slotWrite ..
  have hnew : queuedWord (publish ev s) s.occ = some (packEvent ev) := by
    rw [hword, if_pos hslot]
  have hold : ∀ k ∈ List.range s.occ, queuedWord (publish ev s) k = queuedWord s k := by
    intro k hk
    have hlt : k < s.occ := List.mem_range.mp hk
    rw [hword, if_neg]
    intro hsame
    exact absurd (slotOf_add_inj (hlt.trans hroom) hroom (hsame.trans hslot.symm)) hlt.ne
  unfold queueOf
  rw [publish_occ hwr hrd ev hroom, List.range_succ, List.filterMap_append]
  congr 1
  · exact List.filterMap_congr fun k hk => by rw [hold k hk]
  · simp [hnew]

end Indices

/-- An enqueue does to the queue what the list's Enqueue does (R93, R94). -/
theorem queueOf_enqueue (ev : BusEvent) {s : State} (h : FifoInv s) :
    queueOf (enqueue ev s) = listEnqueue (2 ^ s.cfg.log2cap) ev (queueOf s) := by
  have hcap : 0 < 2 ^ s.cfg.log2cap := Nat.two_pow_pos _
  have hle : s.occ ≤ 2 ^ s.cfg.log2cap := h.occ_le
  rw [enqueue_eq_publish]
  unfold listEnqueue
  rw [queueOf_length h.queued_written]
  by_cases hfull : s.occ = 2 ^ s.cfg.log2cap
  · rw [if_pos ((fifoFull_iff s).mpr hfull), if_pos hfull]
    have hne : s.wr ≠ s.rd := by
      intro heq
      have hzero : s.occ = 0 := (indexDiff_eq_zero_iff h.wr_lt h.rd_lt).mpr heq
      omega
    have hroom : (advanceRd s).occ < 2 ^ s.cfg.log2cap := by
      have := advanceRd_occ h.wr_lt h.rd_lt hne
      omega
    rw [queueOf_publish (s := advanceRd s) h.wr_lt (indexNext_lt _ _) ev hroom,
      queueOf_advanceRd h.wr_lt h.rd_lt hne (h.queued_written 0 (by omega))]
  · rw [if_neg (mt (fifoFull_iff s).mp hfull), if_neg hfull]
    exact queueOf_publish h.wr_lt h.rd_lt ev (by omega)

/-- Settles O15: the sample's WRITE as one record update, and the queue after its enqueue. -/
theorem hostWriteMakesOneEvent : Obligations.HostWriteMakesOneEvent := by
  intro ra v s harmed hfifo
  refine ⟨_, _, decode_writeSample ra v, exec_write_armed false v _ _ harmed, queueOf_enqueue _ hfifo, ?_⟩
  rw [enqueue_eq]
  simp

/-! ## Who moves HCC and TARGET (R25, R36, R57, R59) -/

/-- What one operation can do to HCC and TARGET: count a bus cycle, or copy HCC to TARGET, or neither. -/
def CountOrCopy (s t : State) : Prop :=
  (t.hcc = s.hcc + 1 ∧ t.target = s.target) ∨ (t.hcc = s.hcc ∧ t.target = s.hcc) ∨
    (t.hcc = s.hcc ∧ t.target = s.target)

/-- A bus cycle only counts, if the transaction kind's own part leaves HCC and TARGET alone (R79, R88). -/
theorem decoderStep_countOrCopy (rst : Bool) {kind : State → State} (hhcc : ∀ u, (kind u).hcc = u.hcc)
    (htarget : ∀ u, (kind u).target = u.target) (s : State) : CountOrCopy s (decoderStep rst kind s) := by
  cases ha : s.armed with
  | true =>
    rw [decoderStep_eq rst kind ha]
    exact .inl (by simp [hhcc, htarget])
  | false =>
    rw [decoderStep_disarmed rst kind ha]
    exact .inr (.inr ⟨rfl, rfl⟩)

/-- TARGET after FETCH_TARGET is HCC, or the old one when a shutdown or a reset comes first (R126). -/
theorem fetchTarget_target (s : State) : (fetchTarget s).target = s.hcc ∨ (fetchTarget s).target = s.target := by
  rcases fetchTarget_cases s with ⟨-, h⟩ | ⟨-, -, h⟩ | ⟨-, -, h⟩ <;> rw [h]
  · exact .inr rfl
  · exact .inr rfl
  · exact .inl (by simp)

/-- Only PROD's bus cycles count, and only FETCH_TARGET copies (R25, R36). -/
theorem exec_countOrCopy {i : Instr} {s t : State} (h : exec i s = .next t) : CountOrCopy s t := by
  have phase_keeps (hi : isPhase i = true) : t.hcc = s.hcc ∧ (i ≠ .fetchTarget → t.target = s.target) := by
    obtain ⟨-, hhcc, -, -, -, -, -, -, -, -, -, -, -, -, -, htarget, -⟩ := phasesWriteOnlyConsumerState i s t hi h
    exact ⟨hhcc, htarget⟩
  cases i with
  | idle rst =>
    cases h
    exact decoderStep_countOrCopy rst (fun _ => rfl) (fun _ => rfl) s
  | read rst reg =>
    cases h
    exact decoderStep_countOrCopy rst (fun u => driveData_hcc (cacheAt u reg) u)
      (fun u => driveData_target (cacheAt u reg) u) s
  | write rst d ci reg =>
    cases h
    exact decoderStep_countOrCopy rst (fun _ => enqueue_hcc _ _) (fun _ => enqueue_target _ _) s
  | fetchTarget =>
    obtain ⟨hhcc, -⟩ := phase_keeps rfl
    cases h
    rcases whileConsRuns_cases fetchTarget s with hrun | hrun
    · rcases fetchTarget_target s with htarget | htarget
      · exact .inr (.inl ⟨hhcc, hrun ▸ htarget⟩)
      · exact .inr (.inr ⟨hhcc, hrun ▸ htarget⟩)
    · exact .inr (.inr ⟨hhcc, congrArg State.target hrun⟩)
  | accStep | tgAdvance | cacheRefresh | drainApply | mixOut | resetClear | calibrate =>
    obtain ⟨hhcc, htarget⟩ := phase_keeps rfl
    exact .inr (.inr ⟨hhcc, htarget nofun⟩)
  | enqueue ev =>
    cases h
    exact .inr (.inr ⟨enqueue_hcc ev s, enqueue_target ev s⟩)
  | tryDequeueDueBy y =>
    obtain ⟨rd, readPort, rfl⟩ := exec_tryDequeueDueBy_writes h
    exact .inr (.inr ⟨rfl, rfl⟩)

@[simp] theorem fetch_hcc (s : State) : (fetch s).2.hcc = s.hcc := by rw [fetch_eq]
@[simp] theorem fetch_target (s : State) : (fetch s).2.target = s.target := by rw [fetch_eq]

/-- A step counts, or copies, or does neither. -/
theorem step_countOrCopy {s t : State} (h : step s = .next t) : CountOrCopy s t := by
  obtain ⟨-, -, ⟨i, -, hexec⟩ | ⟨e, -, rfl⟩⟩ := step_cases h
  · have hmove := exec_countOrCopy hexec
    unfold CountOrCopy at hmove ⊢
    rwa [fetch_hcc, fetch_target] at hmove
  · exact .inr (.inr ⟨fetch_hcc s, fetch_target s⟩)

/-- Settles O47: a count short of the wrap only raises HCC, and a copy raises TARGET to HCC. -/
theorem targetFollowsTheCount : Obligations.TargetFollowsTheCount := by
  refine ⟨le_rfl, fun s t hle hwrap h => ?_⟩
  rcases step_countOrCopy h with ⟨hhcc, htarget⟩ | ⟨hhcc, htarget⟩ | ⟨hhcc, htarget⟩ <;> rw [hhcc, htarget]
  · have hcount : (s.hcc + 1).toNat = s.hcc.toNat + 1 := by
      rw [BitVec.toNat_add]
      exact Nat.mod_eq_of_lt (Nat.add_lt_of_lt_sub hwrap)
    omega
  · exact ⟨le_rfl, hle, le_rfl⟩
  · exact ⟨hle, le_rfl, le_rfl⟩

end Sys2Proof.Machine

/-! SUPPORT, then the proofs of the statements that 30_encoding.md gives rise to: decoding and encoding agree (R66, R67,
R72 to R74), the three kinds of a bus sample (R67), the raw address (R70), the slot word (R72), and the pseudo-operation
RESET n (R77). -/

namespace Sys2Proof.Machine

open Sys2Proof

/-! ## The raw address (R68, R70) -/

/-- The register is the low five bits of a joined address (R70). -/
@[simp] theorem register_rawAddr (c : ChipIndex) (r : RegNum) : RawAddr.register (rawAddr c r) = r :=
  BitVec.extractLsb'_append_eq_right

/-- The chip index is the top three bits of a joined address (R70). -/
@[simp] theorem chipIndex_rawAddr (c : ChipIndex) (r : RegNum) : RawAddr.chipIndex (rawAddr c r) = c :=
  BitVec.extractLsb'_append_eq_left

/-- A raw address is its chip index and its register (R70). -/
theorem rawAddr_split (ra : RawAddr) : rawAddr (RawAddr.chipIndex ra) (RawAddr.register ra) = ra :=
  (BitVec.extractLsb'_append_extractLsb'_eq_extractLsb' rfl).trans BitVec.extractLsb'_eq_self

/-- The joined address as a number (R70). -/
theorem rawAddr_toNat (c : ChipIndex) (r : RegNum) : (rawAddr c r).toNat = 32 * c.toNat + r.toNat := by
  unfold rawAddr
  rw [BitVec.toNat_append, ← Nat.shiftLeft_add_eq_or_of_lt r.isLt, Nat.shiftLeft_eq, Nat.mul_comm]

/-! ## The kinds of a bus sample, from SEL and RW (R67) -/

section Kinds

variable {bs : BusWord}

/-- SEL = 0 is IDLE (R67). -/
theorem decode_bus_idle (hsel : bs.sel = false) : decode (.bus bs) = .ok (.idle bs.rst) := by
  simp [decode, decodeBus, hsel]

/-- SEL = 1 and RW = 1 is READ (R67). -/
theorem decode_bus_read (hsel : bs.sel = true) (hrw : bs.rw = true) :
    decode (.bus bs) = .ok (.read bs.rst (RawAddr.register bs.ra)) := by
  simp [decode, decodeBus, hsel, hrw]

/-- SEL = 1 and RW = 0 is WRITE (R67). -/
theorem decode_bus_write (hsel : bs.sel = true) (hrw : bs.rw = false) :
    decode (.bus bs) = .ok (.write bs.rst bs.d (RawAddr.chipIndex bs.ra) (RawAddr.register bs.ra)) := by
  simp [decode, decodeBus, hsel, hrw]

/-- The chip index of a sample's address stands at bits 7:5 of the sample (R66, R68). -/
theorem chipIndex_ra (bs : BusWord) : RawAddr.chipIndex bs.ra = bs.extractLsb' 5 3 :=
  BitVec.extractLsb'_extractLsb'_of_le (by decide)

/-- The register of a sample's address stands at bits 4:0 of the sample (R66, R68). -/
theorem register_ra (bs : BusWord) : RawAddr.register bs.ra = bs.extractLsb' 0 5 :=
  BitVec.extractLsb'_extractLsb'_of_le (by decide)

/-- IDLE's mask reads SEL (R67). -/
theorem and_idleMask (bs : BusWord) : bs &&& 0x20000#19 = if bs.sel then 0x20000#19 else 0x00000#19 :=
  BitVec.and_twoPow bs 17

/-- READ's and WRITE's mask reads SEL and RW (R67). -/
theorem and_chipMask (bs : BusWord) :
    bs &&& 0x30000#19 = (if bs.sel then 0x20000#19 else 0x00000#19) ||| (if bs.rw then 0x10000#19 else 0x00000#19) := by
  have hmask : 0x30000#19 = 0x20000#19 ||| 0x10000#19 := by decide
  rw [hmask, BitVec.and_or_distrib_left, and_idleMask]
  exact congrArg _ (BitVec.and_twoPow bs 16)

/-- IDLE's test is SEL = 0 (R67). -/
theorem idleMask_iff (bs : BusWord) : bs &&& 0x20000#19 = 0x00000#19 ↔ bs.sel = false := by
  rw [and_idleMask]
  cases bs.sel <;> decide

/-- READ's test is SEL = 1 and RW = 1 (R67). -/
theorem readMask_iff (bs : BusWord) : bs &&& 0x30000#19 = 0x30000#19 ↔ bs.sel = true ∧ bs.rw = true := by
  rw [and_chipMask]
  cases bs.sel <;> cases bs.rw <;> decide

/-- WRITE's test is SEL = 1 and RW = 0 (R67). -/
theorem writeMask_iff (bs : BusWord) : bs &&& 0x30000#19 = 0x20000#19 ↔ bs.sel = true ∧ bs.rw = false := by
  rw [and_chipMask]
  cases bs.sel <;> cases bs.rw <;> decide

/-- A sample that passes IDLE's test decodes to IDLE (R67). -/
theorem decode_of_idleMask (h : bs &&& 0x20000#19 = 0x00000#19) : decode (.bus bs) = .ok (.idle (bs.getLsbD 18)) :=
  decode_bus_idle ((idleMask_iff bs).mp h)

/-- A sample that passes READ's test decodes to READ of its low five bits (R67). -/
theorem decode_of_readMask (h : bs &&& 0x30000#19 = 0x30000#19) :
    decode (.bus bs) = .ok (.read (bs.getLsbD 18) (bs.extractLsb' 0 5)) := by
  obtain ⟨hsel, hrw⟩ := (readMask_iff bs).mp h
  rw [decode_bus_read hsel hrw, register_ra]
  rfl

/-- A sample that passes WRITE's test decodes to WRITE of its fields (R67). -/
theorem decode_of_writeMask (h : bs &&& 0x30000#19 = 0x20000#19) :
    decode (.bus bs)
      = .ok (.write (bs.getLsbD 18) (bs.extractLsb' 8 8) (bs.extractLsb' 5 3) (bs.extractLsb' 0 5)) := by
  obtain ⟨hsel, hrw⟩ := (writeMask_iff bs).mp h
  rw [decode_bus_write hsel hrw, chipIndex_ra, register_ra]
  rfl

end Kinds

/-! ## The fields of the canonical words (R66, R73, R76) -/

section CanonicalSample

variable (rst sel rw : Bool) (d : Byte) (ci : ChipIndex) (reg : RegNum)

@[simp] theorem busWord_rst : (busWord rst sel rw d ci reg).rst = rst := by
  simp only [BusWord.rst, busWord, BitVec.getLsbD_append]
  simp

@[simp] theorem busWord_sel : (busWord rst sel rw d ci reg).sel = sel := by
  simp only [BusWord.sel, busWord, BitVec.getLsbD_append]
  simp

@[simp] theorem busWord_rw : (busWord rst sel rw d ci reg).rw = rw := by
  simp only [BusWord.rw, busWord, BitVec.getLsbD_append]
  simp

@[simp] theorem busWord_register : RawAddr.register (busWord rst sel rw d ci reg).ra = reg := by
  rw [register_ra]
  exact BitVec.extractLsb'_append_eq_right

@[simp] theorem busWord_chipIndex : RawAddr.chipIndex (busWord rst sel rw d ci reg).ra = ci := by
  rw [chipIndex_ra]
  exact (BitVec.extractLsb'_append_eq_of_le le_rfl).trans BitVec.extractLsb'_append_eq_right

@[simp] theorem busWord_d : (busWord rst sel rw d ci reg).d = d :=
  (BitVec.extractLsb'_append_eq_of_le (by decide)).trans <|
    (BitVec.extractLsb'_append_eq_of_le le_rfl).trans BitVec.extractLsb'_append_eq_right

end CanonicalSample

/-- The enable bit of a request (R73). -/
theorem requestWord_enable (re : Bool) (cycle : Word64) : (requestWord re cycle).getLsbD 64 = re := by
  simp only [requestWord, BitVec.getLsbD_append]
  simp

/-- The cycle argument of a request (R73). -/
theorem requestWord_cycle (re : Bool) (cycle : Word64) : (requestWord re cycle).extractLsb' 0 64 = cycle :=
  BitVec.extractLsb'_append_eq_right

/-- Settles O2: each format's canonical word has the operation's operands in the fields that decoding reads. -/
theorem decodeEncodeRoundTrip : Obligations.DecodeEncodeRoundTrip := by
  intro i _
  cases i with
  | idle rst =>
    change decode (.bus _) = _
    rw [decode_bus_idle (busWord_sel ..), busWord_rst]
  | read rst reg =>
    change decode (.bus _) = _
    rw [decode_bus_read (busWord_sel ..) (busWord_rw ..), busWord_rst, busWord_register]
  | write rst d ci reg =>
    change decode (.bus _) = _
    rw [decode_bus_write (busWord_sel ..) (busWord_rw ..), busWord_rst, busWord_d, busWord_chipIndex, busWord_register]
  | fetchTarget | accStep | tgAdvance | cacheRefresh | drainApply | mixOut | resetClear | calibrate => rfl
  | enqueue ev => exact congrArg (Except.ok ∘ Instr.enqueue) (unpackEvent_packEvent ev)
  | tryDequeueDueBy cycle =>
    change decodeRequest _ = _
    rw [decodeRequest, if_pos (requestWord_enable true cycle), requestWord_cycle]

/-- Settles O3: SEL, then RW, tell the kind, and each test reads just these two bits. -/
theorem everyBusSampleIsOneKind : Obligations.EveryBusSampleIsOneKind := by
  intro bs
  by_cases hidle : bs &&& 0x20000#19 = 0x00000#19
  · have hsel := (idleMask_iff bs).mp hidle
    refine .inl ⟨hidle, ?_, ?_, decode_of_idleMask hidle⟩
    · simp [readMask_iff, hsel]
    · simp [writeMask_iff, hsel]
  · have hsel : bs.sel = true := by simpa [idleMask_iff] using hidle
    cases hrw : bs.rw with
    | true =>
      have hread := (readMask_iff bs).mpr ⟨hsel, hrw⟩
      exact .inr (.inl ⟨hidle, hread, by simp [writeMask_iff, hrw], decode_of_readMask hread⟩)
    | false =>
      have hwrite := (writeMask_iff bs).mpr ⟨hsel, hrw⟩
      exact .inr (.inr ⟨hidle, by simp [readMask_iff, hrw], hwrite, decode_of_writeMask hwrite⟩)

/-! ## The rows of the opcode table (R67, R73, R74) -/

/-- A row's test of a sample, made on the words themselves (R67). -/
theorem bus_matchesRow {bs mask value : BusWord} {i : Instr} (hrow : i.row = (.busSample, mask.toNat, value.toNat))
    (h : bs &&& mask = value) : (PortWord.bus bs).matchesRow i = true := by
  apply PortWord.matchesRow_of
  · rw [hrow, PortWord.port]
  · rw [hrow, PortWord.bits, ← BitVec.toNat_and, h]

/-- A sample matches the row of the kind it decodes to (R67). -/
theorem decodeBus_matchesRow (bs : BusWord) : (PortWord.bus bs).matchesRow (decodeBus bs) = true := by
  unfold decodeBus
  split
  next hsel => exact bus_matchesRow rfl ((idleMask_iff bs).mpr hsel)
  next hsel =>
    split
    next hrw => exact bus_matchesRow rfl ((readMask_iff bs).mpr ⟨by simpa using hsel, hrw⟩)
    next hrw => exact bus_matchesRow rfl ((writeMask_iff bs).mpr ⟨by simpa using hsel, by simpa using hrw⟩)

/-- A phase code matches the row of its phase (R74). -/
theorem decodePhase_matchesRow : ∀ p : PhaseCode, (PortWord.phase p).matchesRow (decodePhase p) = true := by
  decide

/-- An enabled request matches the read port's row (R73). -/
theorem fifoRead_matchesRow {dq : RequestWord} (cycle : Word64) (h : dq.getLsbD 64 = true) :
    (PortWord.fifoRead dq).matchesRow (.tryDequeueDueBy cycle) = true := by
  have henable : dq &&& BitVec.twoPow 65 64 = BitVec.twoPow 65 64 := (BitVec.and_twoPow dq 64).trans (if_pos h)
  exact PortWord.matchesRow_of rfl ((BitVec.toNat_and ..).symm.trans (congrArg BitVec.toNat henable))

/-- Settles O4, port by port. -/
theorem decodedWordMatchesItsRow : Obligations.DecodedWordMatchesItsRow := by
  intro w i h
  cases w with
  | bus bs =>
    cases h
    exact decodeBus_matchesRow bs
  | phase p =>
    cases h
    exact decodePhase_matchesRow p
  | fifoWrite we ev =>
    cases we <;> cases h
    exact PortWord.matchesRow_of rfl (Nat.and_zero _)
  | fifoRead dq =>
    change decodeRequest dq = .ok i at h
    unfold decodeRequest at h
    split at h
    next henable =>
      cases h
      exact fifoRead_matchesRow _ henable
    next => cases h

/-! ## The slot word (R72) -/

/-- The low 16 bits of a word of any width, field by field: R72's value, chip index and register. -/
theorem extractLsb'_low_fields {w : Nat} (x : BitVec w) :
    x.extractLsb' 8 8 ++ x.extractLsb' 5 3 ++ x.extractLsb' 0 5 = x.extractLsb' 0 16 := by
  rw [BitVec.extractLsb'_append_extractLsb'_eq_extractLsb' (start₂ := 8) (start₁ := 5) (len₁ := 3) rfl]
  exact BitVec.extractLsb'_append_extractLsb'_eq_extractLsb' rfl

/-- A slot word is its four fields (R72). -/
@[simp] theorem packEvent_unpackEvent (w : EventWord) : packEvent (unpackEvent w) = w := by
  unfold packEvent unpackEvent
  dsimp only
  rw [BitVec.extractLsb'_append_extractLsb'_eq_extractLsb' (start₂ := 16) (start₁ := 8) (len₁ := 8) rfl,
    BitVec.extractLsb'_append_extractLsb'_eq_extractLsb' (start₂ := 8) (start₁ := 5) (len₁ := 3) rfl]
  exact (BitVec.extractLsb'_append_extractLsb'_eq_extractLsb' rfl).trans BitVec.extractLsb'_eq_self

/-- The low 16 bits of a packed event are its value, chip index and register (R72). -/
theorem packEvent_low (ev : BusEvent) : (packEvent ev).extractLsb' 0 16 = ev.value ++ ev.chipIndex ++ ev.register := by
  obtain ⟨-, hvalue, hchip, hreg⟩ := packEvent_fields ev
  rw [← extractLsb'_low_fields, hvalue, hchip, hreg]

/-- Settles O6: a WRITE sample has value, chip index and register at the bits where the slot word has them. -/
theorem eventWordIsFaithful : Obligations.EventWordIsFaithful := by
  refine ⟨packEvent_fields, packEvent_unpackEvent, unpackEvent_packEvent, fun bs t hwrite => ?_⟩
  refine ⟨_, _, _, _, decode_of_writeMask hwrite, ?_⟩
  rw [packEvent_low]
  exact extractLsb'_low_fields bs

/-! ## RESET n, cycle by cycle (R77, R82, R88) -/

/-- IDLE while armed: the debounce and the cycle count (R84). -/
theorem exec_idle_armed (rst : Bool) {s : State} (h : s.armed = true) :
    exec (.idle rst) s = .next { s with
      hcc := s.hcc + 1
      rc := if rst then s.rc + 1 else s.rc
      pressed := rst
      released := s.released || (!rst && s.pressed)
      dOE := false
      dOut := none } := by
  change Host.Outcome.next (decoderStep rst _ s) = _
  rw [decoderStep_eq rst _ h, debounce_eq]
  rfl

/-- A lined up IDLE sample is decoded and performed (R84, entry 3). -/
theorem step_idle_sample {s : State} {bs : BusWord} {rst : Bool} {rest : List Turn} (hl : s.cfg.legal = true)
    (ha : s.agenda = .agent (.producer bs) :: rest) (harmed : s.armed = true)
    (hd : decode (.bus bs) = .ok (.idle rst)) :
    step s = .next { s with
      agenda := rest
      hcc := s.hcc + 1
      rc := if rst then s.rc + 1 else s.rc
      pressed := rst
      released := s.released || (!rst && s.pressed)
      dOE := false
      dOut := none } :=
  (step_cons_ok hl ha rfl hd).trans (exec_idle_armed rst harmed)

/-- A counter that goes on from `n` to `n + 1`, modulo its width (R82, R88). -/
theorem add_ofNat_succ {w : Nat} (x : BitVec w) (n : Nat) :
    x + BitVec.ofNat w (n + 1) = x + BitVec.ofNat w n + 1 := by
  rw [BitVec.ofNat_add, BitVec.add_assoc]
  rfl

/-- `t` is `s` after `n` bus cycles with the reset line asserted, with `rest` lined up (R82). -/
structure Asserted (n : Nat) (rest : List Turn) (s t : State) : Prop where
  cfg_eq : t.cfg = s.cfg
  armed : t.armed = true
  agenda_eq : t.agenda = rest
  rc_eq : t.rc = s.rc + BitVec.ofNat 32 n
  hcc_eq : t.hcc = s.hcc + BitVec.ofNat 64 n
  pressed : 1 ≤ n → t.pressed = true

/-- A run of the asserted samples of a RESET (R77), by induction on their number, the last one taken off. -/
theorem run_asserted {s : State} (hl : s.cfg.legal = true) (harmed : s.armed = true) (n : Nat) (rest : List Turn)
    (ha : s.agenda = List.replicate n (.agent (.producer (withRst idleSample))) ++ rest) :
    ∃ t, Host.Core.run Sys2Proof.core n s = .next t ∧ Asserted n rest s t := by
  induction n generalizing rest with
  | zero => exact ⟨s, rfl, rfl, harmed, ha, by simp, by simp, nofun⟩
  | succ n ih =>
    rw [List.replicate_succ', List.append_assoc] at ha
    obtain ⟨t, hrun, ht⟩ := ih _ ha
    have hstep := step_idle_sample (rst := true) (ht.cfg_eq ▸ hl) ht.agenda_eq ht.armed rfl
    refine ⟨_, (run_add hrun).trans (run_succ_next hstep), ht.cfg_eq, ht.armed, rfl, ?_, ?_, fun _ => rfl⟩
    · exact (congrArg (· + 1) ht.rc_eq).trans (add_ofNat_succ s.rc n).symm
    · exact (congrArg (· + 1) ht.hcc_eq).trans (add_ofNat_succ s.hcc n).symm

/-- Settles O13: `n` asserted cycles count and leave the line pressed, and the released cycle after them ends it. -/
theorem resetPulseIsCounted : Obligations.ResetPulseIsCounted := by
  intro n rest s hl harmed hn ha
  rw [resetSamples, List.map_append, List.map_replicate, List.append_assoc] at ha
  obtain ⟨t, hrun, ht⟩ := run_asserted hl harmed n _ ha
  have hstep := step_idle_sample (rst := false) (ht.cfg_eq ▸ hl) ht.agenda_eq ht.armed rfl
  refine ⟨_, (run_add hrun).trans (run_succ_next hstep), ht.rc_eq, rfl, ?_, ?_⟩
  · simp [ht.pressed hn]
  · exact (congrArg (· + 1) ht.hcc_eq).trans (add_ofNat_succ s.hcc n).symm

/-! ## The statements about fixed words and raw addresses -/

/-- Settles O1: the bus samples by the test of their kind, the other words by their only format. -/
theorem wordsOfTheSpecDecode : Obligations.WordsOfTheSpecDecode :=
  ⟨decode_of_idleMask rfl, decode_of_idleMask rfl, decode_of_readMask rfl, decode_of_writeMask rfl, rfl, rfl, rfl⟩

/-- Settles O5: the joined address is the two fields side by side. -/
theorem rawAddressRoundTrip : Obligations.RawAddressRoundTrip :=
  ⟨rawAddr_split, fun c r => ⟨chipIndex_rawAddr c r, register_rawAddr c r, rawAddr_toNat c r⟩⟩

end Sys2Proof.Machine

/-! SUPPORT, then the proofs of the statements that 40_bus_decoder.md gives rise to: what each transaction kind does
while armed and while disarmed (R78, R84, R85, R87), the debounce (R82, R83), the write set of PROD (R80), and the
cycle count (R88). -/

namespace Sys2Proof.Machine

open Sys2Proof

/-! ## One bus cycle, whatever its transaction kind (R79, R81) -/

/-- The operation is a transaction kind whose bus sample has the reset line at `rst` (R66, R82). -/
def TransactionWith (rst : Bool) (i : Instr) : Prop :=
  i = .idle rst ∨ (∃ reg, i = .read rst reg) ∨ (∃ d ci reg, i = .write rst d ci reg)

/-- PROD's operations are the three kinds, each with one value of the reset line. -/
theorem isTransaction_iff {i : Instr} : isTransaction i = true ↔ ∃ rst, TransactionWith rst i := by
  constructor
  · intro h
    cases i with
    | idle rst => exact ⟨rst, .inl rfl⟩
    | read rst reg => exact ⟨rst, .inr (.inl ⟨reg, rfl⟩)⟩
    | write rst d ci reg => exact ⟨rst, .inr (.inr ⟨d, ci, reg, rfl⟩)⟩
    | fetchTarget | accStep | tgAdvance | cacheRefresh | drainApply | mixOut | resetClear | calibrate | enqueue _
    | tryDequeueDueBy _ => cases h
  · rintro ⟨rst, rfl | ⟨reg, rfl⟩ | ⟨d, ci, reg, rfl⟩⟩ <;> rfl

/-- Every bus sample is a transaction, with its own bit 18 as the reset line (R66, R67). -/
theorem decode_bus_transaction (bs : BusWord) : ∃ i, decode (.bus bs) = .ok i ∧ TransactionWith bs.rst i := by
  rcases everyBusSampleIsOneKind bs with ⟨-, -, -, hd⟩ | ⟨-, -, -, hd⟩ | ⟨-, -, -, hd⟩
  · exact ⟨_, hd, .inl rfl⟩
  · exact ⟨_, hd, .inr (.inl ⟨_, rfl⟩)⟩
  · exact ⟨_, hd, .inr (.inr ⟨_, _, _, rfl⟩)⟩

section BusCycle

variable {rst : Bool} {i : Instr} {s : State}

/-- What an armed bus cycle of any kind does: it counts and debounces, its kind may write the FIFO's registers and the
data lines, and RD only as a WRITE into a full FIFO (R79, R80). -/
theorem exec_transaction_armed (hi : TransactionWith rst i) (h : s.armed = true) :
    ∃ wr slots rd dOE dOut,
      exec i s = .next { s with
        hcc := s.hcc + 1
        rc := if rst then s.rc + 1 else s.rc
        pressed := rst
        released := s.released || (!rst && s.pressed)
        wr := wr, slots := slots, rd := rd, dOE := dOE, dOut := dOut } ∧
      (rd ≠ s.rd → s.isFull = true ∧ ∃ rst d ci reg, i = .write rst d ci reg) := by
  rcases hi with rfl | ⟨reg, rfl⟩ | ⟨d, ci, reg, rfl⟩
  · exact ⟨_, _, _, _, _, exec_idle_armed rst h, fun hrd => absurd rfl hrd⟩
  · exact ⟨_, _, _, _, _, exec_read_armed rst reg h, fun hrd => absurd rfl hrd⟩
  · have hexec := exec_write_armed rst d ci reg h
    rw [enqueue_eq] at hexec
    refine ⟨_, _, _, _, _, hexec, fun hrd => ⟨?_, rst, d, ci, reg, rfl⟩⟩
    by_contra hfull
    exact hrd (if_neg hfull)

/-- A bus cycle of any kind while disarmed: nothing but the end of a drive (R78, R30, R86; entry 11). -/
theorem exec_transaction_disarmed (hi : TransactionWith rst i) (h : s.armed = false) :
    exec i s = .next (releaseData s) := by
  rcases hi with rfl | ⟨reg, rfl⟩ | ⟨d, ci, reg, rfl⟩ <;>
    exact congrArg Host.Outcome.next (decoderStep_disarmed rst _ h)

end BusCycle

/-! ## The statements about one bus cycle -/

/-- Settles O9: the WRITE as one record update, with its enqueue written out. -/
theorem writeEnqueuesTheStampedEvent : Obligations.WriteEnqueuesTheStampedEvent := by
  refine ⟨fun bs => decode_of_writeMask, fun rst d ci reg s harmed => ?_⟩
  refine ⟨_, exec_write_armed rst d ci reg harmed, fun j => ?slots, ?frame⟩
  case slots =>
    rw [enqueue_eq]
    exact slotRead_slotWrite s.slots (slotOf s.cfg s.wr) _ j
  case frame =>
    rw [enqueue_eq]
    simp only [fifoFull_iff]
    rfl

/-- Settles O16: an armed cycle by what every kind does, a disarmed one by the release of the data lines. -/
theorem transactionsWriteOnlyProducerState : Obligations.TransactionsWriteOnlyProducerState := by
  intro i s t hi h
  obtain ⟨rst, hkind⟩ := isTransaction_iff.mp hi
  rcases Bool.eq_false_or_eq_true s.armed with harmed | harmed
  · obtain ⟨wr, slots, rd, dOE, dOut, hexec, hrd⟩ := exec_transaction_armed hkind harmed
    rw [hexec] at h
    cases h
    exact ⟨rfl, hrd⟩
  · rw [exec_transaction_disarmed hkind harmed] at h
    cases h
    exact ⟨rfl, fun hrd => absurd rfl hrd⟩

/-- Settles O7: the test of IDLE's mask, and IDLE as one record update. -/
theorem idleOnlyDebouncesAndCounts : Obligations.IdleOnlyDebouncesAndCounts :=
  ⟨fun _ => decode_of_idleMask, fun rst _ => exec_idle_armed rst⟩

/-- Settles O8: the test of READ's mask, and READ as one record update. -/
theorem readDrivesTheCachedByte : Obligations.ReadDrivesTheCachedByte :=
  ⟨fun _ => decode_of_readMask, fun rst reg _ => exec_read_armed rst reg⟩

/-- Settles O10: the gate of the decoder step, the same for all three kinds. -/
theorem noDecoderStepWhileDisarmed : Obligations.NoDecoderStepWhileDisarmed := by
  intro i s hi harmed
  obtain ⟨rst, hkind⟩ := isTransaction_iff.mp hi
  exact exec_transaction_disarmed hkind harmed

/-- Settles O11: the table of R83 read off the values every armed cycle gives PRESSED and RELEASED, and its last column
off RESET_CLEAR's. -/
theorem fourStateDebounce : Obligations.FourStateDebounce := by
  refine ⟨fun i rst s hkind harmed => ?cycle, fun s hruns => ?clear⟩
  case cycle =>
    obtain ⟨wr, slots, rd, dOE, dOut, hexec, -⟩ := exec_transaction_armed hkind harmed
    refine ⟨_, hexec, ?_, rfl⟩
    cases rst <;> cases s.pressed <;> cases s.released <;> rfl
  case clear =>
    refine ⟨_, congrArg Host.Outcome.next (whileConsRuns_eq resetClear hruns), ?_⟩
    rw [resetClear_eq]
    cases s.pressed <;> cases s.released <;> rfl

/-! ## The cycle count over a run (R88) -/

/-- A lined up bus sample, of any kind, is taken and counted while DEC is armed (R88, entry 3). -/
theorem step_sample_counts {s : State} {bs : BusWord} {rest : List Turn} (hl : s.cfg.legal = true)
    (ha : s.agenda = .agent (.producer bs) :: rest) (harmed : s.armed = true) :
    ∃ t, step s = .next t ∧ t.hcc = s.hcc + 1 ∧ t.agenda = rest ∧ t.armed = true ∧ t.cfg = s.cfg := by
  obtain ⟨i, hd, hkind⟩ := decode_bus_transaction bs
  obtain ⟨wr, slots, rd, dOE, dOut, hexec, -⟩ := exec_transaction_armed (s := { s with agenda := rest }) hkind harmed
  exact ⟨_, (step_cons_ok hl ha rfl hd).trans hexec, rfl, rfl, harmed, rfl⟩

/-- Settles O12, by induction on the samples, the first one taken off. -/
theorem busCyclesAreCounted : Obligations.BusCyclesAreCounted := by
  intro samples rest s hl harmed ha
  induction samples generalizing s with
  | nil => exact ⟨s, rfl, by simp, ha, harmed⟩
  | cons bs samples ih =>
    obtain ⟨u, hstep, hcount, hagenda, harmed', hcfg⟩ := step_sample_counts hl ha harmed
    obtain ⟨t, hrun, hhcc, hrest, hend⟩ := ih u (hcfg ▸ hl) harmed' hagenda
    refine ⟨t, (run_succ_next hstep).trans hrun, ?_, hrest, hend⟩
    calc t.hcc = s.hcc + 1 + BitVec.ofNat 64 samples.length := by rw [hhcc, hcount]
      _ = s.hcc + BitVec.ofNat 64 samples.length + 1 := add_right_comm ..
      _ = s.hcc + BitVec.ofNat 64 (samples.length + 1) := (add_ofNat_succ s.hcc samples.length).symm

end Sys2Proof.Machine

/-! SUPPORT, then the proofs of the statements that 41_transaction_fifo.md gives rise to: what the two operations of the
FIFO do to its indices, slots and queue (R92 to R95), what every step does to the queue (R97, R98), overflow (R99), and
that every step keeps the invariant. -/

namespace Sys2Proof.Machine

open Sys2Proof

/-! ## States with one FIFO -/

/-- The same parameters, indices and slots: all that OCC, the queue and the FIFO's invariant read. -/
structure SameFifo (s t : State) : Prop where
  cfg_eq : t.cfg = s.cfg
  wr_eq : t.wr = s.wr
  rd_eq : t.rd = s.rd
  slots_eq : t.slots = s.slots

namespace SameFifo

variable {s t : State}

theorem occ_eq (h : SameFifo s t) : t.occ = s.occ := occ_congr h.cfg_eq h.wr_eq h.rd_eq

theorem queuedWord_eq (h : SameFifo s t) : queuedWord t = queuedWord s := by
  funext k
  unfold queuedWord
  rw [h.cfg_eq, h.rd_eq, h.slots_eq]

theorem queueOf_eq (h : SameFifo s t) : queueOf t = queueOf s := by
  unfold queueOf
  rw [h.occ_eq, h.queuedWord_eq]

/-- The FIFO's invariant moves to a state with the same FIFO. -/
theorem fifoInv (h : SameFifo s t) (hs : FifoInv s) : FifoInv t := by
  constructor
  · rw [h.cfg_eq, h.wr_eq]
    exact hs.wr_lt
  · rw [h.cfg_eq, h.rd_eq]
    exact hs.rd_lt
  · rw [h.cfg_eq, h.occ_eq]
    exact hs.occ_le
  · rw [h.cfg_eq, h.slots_eq]
    exact hs.slots_wf
  · rw [h.occ_eq, h.queuedWord_eq]
    exact hs.queued_written

end SameFifo

/-- Taking a turn leaves the FIFO alone. -/
theorem fetch_sameFifo (s : State) : SameFifo s (fetch s).2 := ⟨fetch_cfg s, fetch_wr s, fetch_rd s, fetch_slots s⟩

/-! ## RD moved on, and an event published: the FIFO's invariant (R92, R94, R95) -/

/-- A FIFO that is not empty holds an event (R92). -/
theorem occ_pos {s : State} (h : FifoInv s) (hne : s.wr ≠ s.rd) : 0 < s.occ :=
  Nat.pos_of_ne_zero (mt (indexDiff_eq_zero_iff h.wr_lt h.rd_lt).mp hne)

/-- After RD moved on, each offset addresses what the next one did (R91). -/
theorem queuedWord_advanceRd (s : State) (k : Nat) : queuedWord (advanceRd s) k = queuedWord s (k + 1) :=
  congrArg (slotRead s.slots) (slotOf_indexNext_add s.cfg s.rd k)

theorem fifoInv_advanceRd {s : State} (h : FifoInv s) (hne : s.wr ≠ s.rd) : FifoInv (advanceRd s) := by
  have hocc := advanceRd_occ h.wr_lt h.rd_lt hne
  refine ⟨h.wr_lt, indexNext_lt _ _, ?_, h.slots_wf, fun k hk => ?_⟩
  · exact (Nat.le_of_lt (Nat.lt_of_succ_le hocc.ge)).trans h.occ_le
  · rw [queuedWord_advanceRd]
    exact h.queued_written (k + 1) (by omega)

theorem fifoInv_publish (ev : BusEvent) {s : State} (h : FifoInv s) (hroom : s.occ < 2 ^ s.cfg.log2cap) :
    FifoInv (publish ev s) := by
  have hocc := publish_occ h.wr_lt h.rd_lt ev hroom
  refine ⟨indexNext_lt _ _, h.rd_lt, ?_, slotWrite_wf _ (slotOf_lt _ _) h.slots_wf, fun k hk => ?_⟩
  · rw [hocc]
    exact hroom
  · have hword : queuedWord (publish ev s) k
        = if slotOf s.cfg (s.rd + k) = slotOf s.cfg s.wr then some (packEvent ev) else queuedWord s k :=
      slotRead_slotWrite ..
    rw [hword]
    split
    · rfl
    · rename_i hother
      refine h.queued_written k (lt_of_le_of_ne (by omega) ?_)
      rintro rfl
      exact hother (slotOf_rd_add_occ h.wr_lt h.rd_lt)

/-! ## ENQUEUE (R94) -/

section Enqueue

variable (ev : BusEvent) {s : State} (h : FifoInv s)

include h

/-- A full FIFO is not empty, and after an eviction it has room for one event (R94). -/
theorem evict_of_full (hfull : s.occ = 2 ^ s.cfg.log2cap) :
    FifoInv (advanceRd s) ∧ (advanceRd s).occ + 1 = 2 ^ s.cfg.log2cap := by
  have hne : s.wr ≠ s.rd := by
    intro heq
    have hzero : s.occ = 0 := (indexDiff_eq_zero_iff h.wr_lt h.rd_lt).mpr heq
    exact absurd (hfull.symm.trans hzero) (Nat.two_pow_pos _).ne'
  exact ⟨fifoInv_advanceRd h hne, (advanceRd_occ h.wr_lt h.rd_lt hne).symm.trans hfull⟩

theorem fifoInv_enqueue : FifoInv (enqueue ev s) := by
  rw [enqueue_eq_publish]
  by_cases hfull : s.occ = 2 ^ s.cfg.log2cap
  · obtain ⟨hevicted, hocc⟩ := evict_of_full h hfull
    rw [if_pos ((fifoFull_iff s).mpr hfull)]
    exact fifoInv_publish ev hevicted (Nat.lt_of_succ_le hocc.le)
  · rw [if_neg (mt (fifoFull_iff s).mp hfull)]
    exact fifoInv_publish ev h (lt_of_le_of_ne h.occ_le hfull)

/-- OCC grows by 1 unless it was CAP (R94). -/
theorem enqueue_occ :
    (enqueue ev s).occ = if s.occ = 2 ^ s.cfg.log2cap then 2 ^ s.cfg.log2cap else s.occ + 1 := by
  rw [enqueue_eq_publish]
  by_cases hfull : s.occ = 2 ^ s.cfg.log2cap
  · obtain ⟨hevicted, hocc⟩ := evict_of_full h hfull
    rw [if_pos ((fifoFull_iff s).mpr hfull), if_pos hfull,
      publish_occ hevicted.wr_lt hevicted.rd_lt ev (Nat.lt_of_succ_le hocc.le), hocc]
  · rw [if_neg (mt (fifoFull_iff s).mp hfull), if_neg hfull]
    exact publish_occ h.wr_lt h.rd_lt ev (lt_of_le_of_ne h.occ_le hfull)

/-- The FIFO is not empty after an enqueue (R94). -/
theorem enqueue_not_empty : (enqueue ev s).isEmpty = false := by
  have hfifo := fifoInv_enqueue ev h
  have hcap : 0 < 2 ^ s.cfg.log2cap := Nat.two_pow_pos _
  have hocc := enqueue_occ ev h
  rw [Bool.eq_false_iff, ne_eq, fifoEmpty_iff]
  intro heq
  have hzero : (enqueue ev s).occ = 0 := (indexDiff_eq_zero_iff hfifo.wr_lt hfifo.rd_lt).mpr heq
  split at hocc <;> omega

end Enqueue

/-- Settles O18: the write port's format is the slot word's, and ENQUEUE is one record update. -/
theorem enqueueWritesThenPublishes : Obligations.EnqueueWritesThenPublishes := by
  refine ⟨fun w => rfl, fun ev s => ⟨enqueue ev s, rfl, fun j => ?slots, ?frame, fun h => ?occ⟩⟩
  case slots =>
    rw [enqueue_slots]
    exact slotRead_slotWrite s.slots (slotOf s.cfg s.wr) _ j
  case frame =>
    rw [enqueue_eq]
    simp only [fifoFull_iff]
    rfl
  case occ => exact ⟨enqueue_not_empty ev h, enqueue_occ ev h⟩

/-! ## TRY_DEQUEUE_DUE_BY (R95) -/

/-- TRY_DEQUEUE_DUE_BY ends in the state the dequeue leaves (R95). -/
theorem exec_tryDequeueDueBy_of_ok {y : Word64} {s t : State} {m : Option BusEvent}
    (h : tryDequeueDueBy y s = .ok (m, t)) : exec (.tryDequeueDueBy y) s = .next t := by
  simp [exec, execTryDequeueDueBy, h]

/-- A TRY_DEQUEUE_DUE_BY that answers is a dequeue that answers (R95). -/
theorem tryDequeueDueBy_of_exec {y : Word64} {s t : State} (h : exec (.tryDequeueDueBy y) s = .next t) :
    ∃ m, tryDequeueDueBy y s = .ok (m, t) := by
  change execTryDequeueDueBy y s = .next t at h
  unfold execTryDequeueDueBy at h
  split at h
  · rename_i m u hd
    cases h
    exact ⟨m, hd⟩
  · cases h

/-- A dequeue leaves in the read port what it answers (R73). -/
theorem tryDequeueDueBy_readPort {y : Word64} {s t : State} {m : Option BusEvent}
    (h : tryDequeueDueBy y s = .ok (m, t)) : t.readPort = m := by
  rcases tryDequeueDueBy_cases h with ⟨rfl, rfl, -⟩ | ⟨w, -, -, -, rfl, rfl⟩ <;> rfl

/-- Settles O19: every way a dequeue can answer, from the empty FIFO's, the due head's and the other head's lemmas. -/
theorem tryDequeueTakesTheOldestIfDue : Obligations.TryDequeueTakesTheOldestIfDue := by
  refine ⟨fun dq hre => if_pos hre, fun y s t hfifo h => ?occ, fun y s => ⟨fun heq => ?empty, fun w hne hw =>
    ⟨fun hdue => ?hit, fun hearly => ?miss⟩⟩⟩
  case occ =>
    obtain ⟨m, hd⟩ := tryDequeueDueBy_of_exec h
    rcases tryDequeueDueBy_cases hd with ⟨-, rfl, -⟩ | ⟨w, hne, -, -, -, rfl⟩
    · rfl
    · have hocc : s.occ = (advanceRd s).occ + 1 := advanceRd_occ hfifo.wr_lt hfifo.rd_lt hne
      exact (Nat.sub_eq_of_eq_add hocc).symm
  case empty => exact exec_tryDequeueDueBy_of_ok (tryDequeueDueBy_empty y heq.symm)
  case hit => exact exec_tryDequeueDueBy_of_ok (tryDequeueDueBy_hit hne.symm hw hdue)
  case miss => exact exec_tryDequeueDueBy_of_ok (tryDequeueDueBy_miss hne.symm hw (not_le.mpr hearly))

/-! ## The FIFO refines the list (R93) -/

/-- An empty FIFO has an empty queue (R92). -/
theorem queueOf_empty {s : State} (heq : s.wr = s.rd) : queueOf s = [] := by
  have hocc : s.occ = 0 := by simp [State.occ, indexDiff, heq]
  simp [queueOf, hocc]

/-- The head slot holds the oldest event of the queue (R92, R95). -/
theorem queueOf_eq_cons {s : State} {w : EventWord} (h : FifoInv s) (hne : s.wr ≠ s.rd) (hw : headSlot s = some w) :
    queueOf s = unpackEvent w :: queueOf (advanceRd s) := by
  have hhead : queuedWord s 0 = some w := hw
  have hfirst : (queueOf s).head? = some (unpackEvent w) := by
    unfold queueOf
    rw [advanceRd_occ h.wr_lt h.rd_lt hne, List.range_succ_eq_map, List.filterMap_cons, hhead]
    rfl
  rw [queueOf_advanceRd h.wr_lt h.rd_lt hne (h.queued_written 0 (occ_pos h hne))]
  exact (List.cons_head?_tail hfirst).symm

/-- What one dequeue can do to the queue (R93): nothing, or take its oldest event when it is due; it keeps the FIFO's
invariant. -/
theorem tryDequeueDueBy_queue {y : Word64} {s t : State} {m : Option BusEvent} (h : FifoInv s)
    (hd : tryDequeueDueBy y s = .ok (m, t)) :
    FifoInv t ∧
    ((m = none ∧ queueOf t = queueOf s ∧ listDequeue y (queueOf s) = (none, queueOf s)) ∨
     (∃ ev, m = some ev ∧ queueOf s = ev :: queueOf t ∧ ev.atCycle ≤ y)) := by
  rcases tryDequeueDueBy_cases hd with ⟨rfl, rfl, hwhy⟩ | ⟨w, hne, hw, hdue, rfl, rfl⟩
  case inl =>
    have hsame : SameFifo s { s with readPort := none } := ⟨rfl, rfl, rfl, rfl⟩
    refine ⟨hsame.fifoInv h, .inl ⟨rfl, hsame.queueOf_eq, ?_⟩⟩
    rcases hwhy with heq | ⟨hne, w, hw, hearly⟩
    · rw [queueOf_empty heq]
      rfl
    · rw [queueOf_eq_cons h hne hw]
      exact if_neg hearly
  case inr =>
    have hsame : SameFifo (advanceRd s)
        { s with rd := indexNext s.cfg s.rd, readPort := some (unpackEvent w) } := ⟨rfl, rfl, rfl, rfl⟩
    refine ⟨hsame.fifoInv (fifoInv_advanceRd h hne), .inr ⟨_, rfl, ?_, hdue⟩⟩
    rw [hsame.queueOf_eq]
    exact queueOf_eq_cons h hne hw

/-- A dequeue does to the queue what the list's TryDequeueDueBy does (R93, R95). -/
theorem queueOf_tryDequeueDueBy {y : Word64} {s t : State} {m : Option BusEvent} (h : FifoInv s)
    (hd : tryDequeueDueBy y s = .ok (m, t)) : listDequeue y (queueOf s) = (m, queueOf t) := by
  obtain ⟨-, ⟨rfl, hqueue, hlist⟩ | ⟨ev, rfl, hqueue, hdue⟩⟩ := tryDequeueDueBy_queue h hd
  · rw [hlist, hqueue]
  · rw [hqueue]
    exact if_pos hdue

/-- Settles O21: each operation does to the queue what the list's does, and keeps the FIFO's invariant. -/
theorem fifoRefinesTheList : Obligations.FifoRefinesTheList := by
  refine ⟨queueOf_empty rfl, fun s h => ?length, fun ev s h => ?enqueue, fun y s h => ?dequeue⟩
  case length =>
    have hlength := queueOf_length h.queued_written
    exact ⟨hlength, hlength.trans_le h.occ_le⟩
  case enqueue => exact ⟨_, rfl, fifoInv_enqueue ev h, queueOf_enqueue ev h⟩
  case dequeue =>
    obtain ⟨m, t, hd⟩ := tryDequeueDueBy_answers y h.headSlot_written
    obtain ⟨hfifo, -⟩ := tryDequeueDueBy_queue h hd
    refine ⟨t, exec_tryDequeueDueBy_of_ok hd, hfifo, ?_, ?_⟩
    · rw [queueOf_tryDequeueDueBy h hd, tryDequeueDueBy_readPort hd]
    · rw [queueOf_tryDequeueDueBy h hd]

/-! ## Overflow (R99) -/

/-- A list that takes events one by one and holds CAP at most keeps the last CAP of them (R93, R99). -/
theorem foldl_listEnqueue {cap : Nat} (hcap : 0 < cap) (evs q : List BusEvent) (hq : q.length ≤ cap) :
    evs.foldl (fun q ev => listEnqueue cap ev q) q = (q ++ evs).drop (q.length + evs.length - cap) := by
  induction evs generalizing q with
  | nil => simp [hq]
  | cons ev evs ih =>
    rw [List.foldl_cons]
    by_cases hfull : q.length = cap
    · obtain ⟨old, rest, rfl⟩ := List.exists_cons_of_length_pos (hcap.trans_eq hfull.symm)
      have hstep : listEnqueue cap ev (old :: rest) = rest ++ [ev] := by simp [listEnqueue, hfull]
      rw [List.length_cons] at hfull
      have hdrop : rest.length + 1 + (evs.length + 1) - cap = evs.length + 1 := by omega
      have hdrop' : rest.length + 1 + evs.length - cap = evs.length := by omega
      rw [hstep, ih _ (by simp [hfull])]
      simp [hdrop, hdrop']
    · have hstep : listEnqueue cap ev q = q ++ [ev] := by simp [listEnqueue, hfull]
      rw [hstep, ih _ (by simp; omega)]
      simp [Nat.add_assoc, Nat.add_comm 1]

/-- A lined up request at the write port enqueues its event (R73, entry 18). -/
theorem step_writeRequest {s : State} {ev : BusEvent} {rest : List Turn} (hl : s.cfg.legal = true)
    (ha : s.agenda = .fifoWrite true (packEvent ev) :: rest) :
    step s = .next (enqueue ev { s with agenda := rest }) := by
  have hd : decode (.fifoWrite true (packEvent ev)) = .ok (.enqueue ev) :=
    congrArg (Except.ok ∘ Instr.enqueue) (unpackEvent_packEvent ev)
  exact step_cons_ok hl ha rfl hd

/-- `t` is `s` after the requests that enqueue `evs`, as far as the FIFO goes (R94). -/
structure Enqueued (evs : List BusEvent) (s t : State) : Prop where
  fifo : FifoInv t
  cfg_eq : t.cfg = s.cfg
  wr_eq : t.wr = indexTrunc s.cfg (s.wr + evs.length)
  queue_eq : queueOf t = evs.foldl (fun q ev => listEnqueue (2 ^ s.cfg.log2cap) ev q) (queueOf s)

/-- A run of requests at the write port, by induction on them, the first one taken off. -/
theorem run_writeRequests (evs : List BusEvent) {rest : List Turn} {s : State} (hl : s.cfg.legal = true)
    (h : FifoInv s) (ha : s.agenda = evs.map (fun ev => Turn.fifoWrite true (packEvent ev)) ++ rest) :
    ∃ t, Host.Core.run Sys2Proof.core evs.length s = .next t ∧ Enqueued evs s t := by
  induction evs generalizing s with
  | nil => exact ⟨s, rfl, h, rfl, (Nat.mod_eq_of_lt h.wr_lt).symm, rfl⟩
  | cons ev evs ih =>
    have hsame : SameFifo s { s with agenda := evs.map (fun ev => Turn.fifoWrite true (packEvent ev)) ++ rest } :=
      ⟨rfl, rfl, rfl, rfl⟩
    have hfifo := hsame.fifoInv h
    obtain ⟨t, hrun, ht⟩ := ih (by simpa using hl) (fifoInv_enqueue ev hfifo) (enqueue_agenda ev _)
    refine ⟨t, (run_succ_next (step_writeRequest hl ha)).trans hrun, ht.fifo, ?_, ?_, ?_⟩
    · rw [ht.cfg_eq, enqueue_cfg]
    · rw [ht.wr_eq, enqueue_wr, enqueue_cfg]
      simp only [indexNext, indexTrunc, List.length_cons, Nat.mod_add_mod]
      rw [Nat.add_assoc, Nat.add_comm 1]
    · rw [ht.queue_eq, queueOf_enqueue ev hfifo, hsame.queueOf_eq, enqueue_cfg, List.foldl_cons]

/-- Settles O22: the requests leave the last CAP events, so CAP of them, and RD lies CAP below WR. -/
theorem overflowKeepsTheNewest : Obligations.OverflowKeepsTheNewest := by
  intro evs k rest s hl h hwr hrd hlen hk ha
  obtain ⟨t, hrun, ht⟩ := run_writeRequests evs hl h ha
  have hwidth : 2 ^ (s.cfg.log2cap + 1) = 2 * 2 ^ s.cfg.log2cap := Nat.pow_succ'
  have hqueue : queueOf t = evs.drop k := by
    rw [ht.queue_eq, queueOf_empty (hwr.trans hrd.symm), foldl_listEnqueue (Nat.two_pow_pos _) _ _ (Nat.zero_le _)]
    simp [hlen]
  have hocc : t.occ = 2 ^ s.cfg.log2cap := by
    rw [← queueOf_length ht.fifo.queued_written, hqueue, List.length_drop, hlen, Nat.add_sub_cancel]
  have hwr' : t.wr = 2 ^ s.cfg.log2cap + k := by
    rw [ht.wr_eq, hwr, hlen, Nat.zero_add]
    exact Nat.mod_eq_of_lt (by omega)
  refine ⟨t, hrun, hocc, ?_, ?_, hqueue⟩
  · have hrd' := ht.fifo.rd_lt
    unfold State.occ at hocc
    rw [indexDiff_eq ht.fifo.wr_lt hrd', ht.cfg_eq, hwr'] at hocc
    rw [ht.cfg_eq] at hrd'
    split at hocc <;> omega
  · rw [hwr']
    exact (Nat.mod_eq_of_lt (by omega)).symm


/-! ## What the operations do to the FIFO, the tone generators and their calls -/

/-- Every way DRAIN_APPLY answers: not performed (R123), or the read port's answer applied (R129). -/
theorem exec_drainApply_cases {s t : State} (h : exec .drainApply s = .next t) :
    (s.consRuns = false ∧ t = s) ∨
    (s.consRuns = true ∧ ∃ m u, tryDequeueDueBy s.ce s = .ok (m, u) ∧ t = applyAnswer m u) := by
  change execDrainApply s = .next t at h
  unfold execDrainApply at h
  split at h
  · rename_i hruns
    split at h
    · rename_i m u hd
      cases h
      exact .inr ⟨hruns, m, u, hd, rfl⟩
    · cases h
  · rename_i hstopped
    cases h
    exact .inl ⟨by simpa using hstopped, rfl⟩

/-- Applying an answer leaves the FIFO to the dequeue before it (R129). -/
theorem applyAnswer_sameFifo (m : Option BusEvent) (s : State) : SameFifo s (applyAnswer m s) := by
  obtain ⟨tgreg, tgCalls, mode, phase, h⟩ := applyAnswer_writes m s
  rw [h]
  exact ⟨rfl, rfl, rfl, rfl⟩

/-- The phases but DRAIN_APPLY leave the FIFO alone (R45). -/
theorem exec_phase_sameFifo {i : Instr} {s t : State} (hi : isPhase i = true) (hdrain : i ≠ .drainApply)
    (h : exec i s = .next t) : SameFifo s t := by
  obtain ⟨hcfg, -, -, hwr, hslots, -, -, -, -, -, -, -, -, -, -, -, hrd, -⟩ := phasesWriteOnlyConsumerState i s t hi h
  obtain ⟨hrd, -⟩ := hrd hdrain
  exact ⟨hcfg, hwr, hrd, hslots⟩

/-- What every bus cycle keeps, armed or not: the tone generators' side, and the data lines driven just when D_OE says
so (R29, R87). -/
structure BusFrame (s t : State) : Prop where
  tgCalls_eq : t.tgCalls = s.tgCalls
  tgreg_eq : t.tgreg = s.tgreg
  drive : t.dOE = t.dOut.isSome

/-- What one bus cycle does to the FIFO: nothing, or an armed WRITE's enqueue of the event stamped HCC (R84 to R87). -/
theorem exec_bus_fifo {bs : BusWord} {s t : State} (h : exec (decodeBus bs) s = .next t) :
    BusFrame s t ∧
    (SameFifo s t ∨
     (s.armed = true ∧ bs &&& 0x30000#19 = 0x20000#19 ∧ t.hcc = s.hcc + 1 ∧
      SameFifo (enqueue { chipIndex := bs.extractLsb' 5 3, register := bs.extractLsb' 0 5, value := bs.extractLsb' 8 8,
                          atCycle := s.hcc } s) t)) := by
  obtain ⟨i, hd, hkind⟩ := decode_bus_transaction bs
  obtain rfl : decodeBus bs = i := Except.ok.inj hd
  rcases Bool.eq_false_or_eq_true s.armed with harmed | harmed
  case inr =>
    rw [exec_transaction_disarmed hkind harmed] at h
    cases h
    exact ⟨⟨rfl, rfl, rfl⟩, .inl ⟨rfl, rfl, rfl, rfl⟩⟩
  case inl =>
    rcases everyBusSampleIsOneKind bs with ⟨-, -, -, hd⟩ | ⟨-, -, -, hd⟩ | ⟨-, -, hwrite, hd⟩ <;>
      rw [Except.ok.inj hd] at h
    · rw [exec_idle_armed _ harmed] at h
      cases h
      exact ⟨⟨rfl, rfl, rfl⟩, .inl ⟨rfl, rfl, rfl, rfl⟩⟩
    · rw [exec_read_armed _ _ harmed] at h
      cases h
      exact ⟨⟨rfl, rfl, rfl⟩, .inl ⟨rfl, rfl, rfl, rfl⟩⟩
    · rw [exec_write_armed _ _ _ _ harmed] at h
      cases h
      exact ⟨⟨enqueue_tgCalls _ s, enqueue_tgreg _ s, rfl⟩, .inr ⟨harmed, hwrite, rfl, rfl, rfl, rfl, rfl⟩⟩

/-! ## A step, by whose turn it is (R56, R65) -/

/-- Taking a turn changes no register (R56). -/
theorem fetch_registers (s : State) : ∃ agenda turnNo env,
    (fetch s).2 = { s with agenda := agenda, turnNo := turnNo, env := env } :=
  ⟨_, _, _, fetch_eq s⟩

@[simp] theorem fetch_phase (s : State) : (fetch s).2.phase = s.phase := by rw [fetch_eq]

/-- Every way a step answers, kind of turn by kind of turn (R65, R73). -/
theorem step_turn_cases {s t : State} (h : step s = .next t) :
    (∃ bs, (nextTurn s).1 = .agent (.producer bs) ∧ exec (decodeBus bs) (fetch s).2 = .next t) ∨
    (∃ e, (nextTurn s).1 = .agent (.consumer e) ∧ exec (decodePhase s.phase) (fetch s).2 = .next t) ∨
    (∃ w, (nextTurn s).1 = .fifoWrite true w ∧ t = enqueue (unpackEvent w) (fetch s).2) ∨
    (∃ dq, (nextTurn s).1 = .fifoRead dq ∧ dq.getLsbD 64 = true ∧
      ∃ m, tryDequeueDueBy (dq.extractLsb' 0 64) (fetch s).2 = .ok (m, t)) ∨
    t = (fetch s).2 := by
  obtain ⟨-, -, ⟨i, hd, hexec⟩ | ⟨e, -, rfl⟩⟩ := step_cases h
  case inr => exact .inr (.inr (.inr (.inr rfl)))
  case inl =>
    match hturn : (nextTurn s).1 with
    | .agent (.producer bs) =>
      rw [hturn] at hd
      cases hd
      exact .inl ⟨bs, rfl, hexec⟩
    | .agent (.consumer e) =>
      rw [hturn] at hd
      obtain rfl : decodePhase (nextTurn s).2.phase = i := Except.ok.inj hd
      rw [nextTurn_phase] at hexec
      exact .inr (.inl ⟨e, rfl, hexec⟩)
    | .fifoWrite we w =>
      rw [hturn] at hd
      cases we with
      | false => cases hd
      | true =>
        cases hd
        cases hexec
        exact .inr (.inr (.inl ⟨w, rfl, rfl⟩))
    | .fifoRead dq =>
      rw [hturn] at hd
      change decodeRequest dq = .ok i at hd
      unfold decodeRequest at hd
      split at hd
      · rename_i hre
        cases hd
        exact .inr (.inr (.inr (.inl ⟨dq, rfl, hre, tryDequeueDueBy_of_exec hexec⟩)))
      · cases hd

/-! ## Order of the events (R97, R98) -/

/-- The codes of PHASE other than DRAIN_APPLY's ask for other phases (R74). -/
theorem isPhase_decodePhase (p : PhaseCode) :
    isPhase (decodePhase p) = true ∧ (decodePhase p = .drainApply ↔ p = 0b100#3) := by
  revert p
  decide

/-- What one phase does to the queue: nothing, or DRAIN_APPLY takes its oldest event, when due, to the register it
addresses (R129). -/
theorem exec_phase_queue {s t : State} (hfifo : FifoInv s) (h : exec (decodePhase s.phase) s = .next t) :
    queueOf t = queueOf s ∨
    ∃ ev, s.phase = 0b100#3 ∧ queueOf s = ev :: queueOf t ∧ ev.atCycle ≤ s.ce ∧
      t.tgCalls = .write ev.chipIndex ev.register ev.value :: s.tgCalls ∧
      ∀ (c : ChipIndex) (r : RegNum), tgRegAt t c r
        = if c = ev.chipIndex ∧ r = ev.register then ev.value else tgRegAt s c r := by
  obtain ⟨hphase, hdrain⟩ := isPhase_decodePhase s.phase
  by_cases hcode : s.phase = 0b100#3
  case neg => exact .inl (exec_phase_sameFifo hphase (mt hdrain.mp hcode) h).queueOf_eq
  rw [hdrain.mpr hcode] at h
  rcases exec_drainApply_cases h with ⟨-, rfl⟩ | ⟨-, m, u, hd, rfl⟩
  case inl => exact .inl rfl
  obtain ⟨-, ⟨rfl, hqueue, -⟩ | ⟨ev, rfl, hqueue, hdue⟩⟩ := tryDequeueDueBy_queue hfifo hd
  case inl => exact .inl ((applyAnswer_sameFifo none u).queueOf_eq.trans hqueue)
  obtain ⟨rd, readPort, rfl⟩ := tryDequeueDueBy_writes hd
  have hsame := applyAnswer_sameFifo (some ev) { s with rd := rd, readPort := readPort }
  refine .inr ⟨ev, hcode, hsame.queueOf_eq ▸ hqueue, hdue, ?_, fun c r => ?_⟩
  · simp [applyAnswer]
  · have hloop (x : State) : tgRegAt (loopTest x) c r = tgRegAt x c r := by
      unfold tgRegAt
      rw [loopTest_tgreg]
    exact (hloop _).trans (tgWrite_tgRegAt ..)

/-- Settles O23, kind of turn by kind of turn. -/
theorem eventsLeaveInOrder : Obligations.EventsLeaveInOrder := by
  intro s t hinv h
  have hsame := fetch_sameFifo s
  have hfifo := hsame.fifoInv hinv.fifo
  have hqueue := hsame.queueOf_eq
  obtain ⟨agenda, turnNo, env, hfetch⟩ := fetch_registers s
  rcases step_turn_cases h with ⟨bs, hturn, hexec⟩ | ⟨e, hturn, hexec⟩ | ⟨w, hturn, rfl⟩ | ⟨dq, hturn, hre, m, hd⟩ | rfl
  case inl =>
    obtain ⟨hframe, hsame' | ⟨harmed, hwrite, -, hsame'⟩⟩ := exec_bus_fifo hexec
    · exact .inl (hsame'.queueOf_eq.trans hqueue)
    · have hq := hsame'.queueOf_eq.trans (queueOf_enqueue _ hfifo)
      rw [hqueue] at hq
      rw [hfetch] at harmed hq hframe
      exact .inr (.inr (.inr (.inl ⟨bs, hturn, harmed, hwrite, hq, hframe.tgCalls_eq, hframe.tgreg_eq⟩)))
  case inr.inl =>
    rcases exec_phase_queue hfifo (by rwa [fetch_phase]) with hq | ⟨ev, hcode, hq, hdue, hcalls, hregs⟩
    · exact .inl (hq.trans hqueue)
    · rw [hqueue] at hq
      rw [hfetch] at hcode hdue hcalls hregs
      exact .inr (.inl ⟨e, ev, hturn, hcode, hq, hdue, hcalls, hregs⟩)
  case inr.inr.inl =>
    have hq := queueOf_enqueue (unpackEvent w) hfifo
    rw [hqueue, fetch_cfg] at hq
    refine .inr (.inr (.inr (.inr ⟨w, hturn, hq, ?_, ?_⟩)))
    · rw [enqueue_tgCalls, hfetch]
    · rw [enqueue_tgreg, hfetch]
  case inr.inr.inr.inl =>
    obtain ⟨-, ⟨-, hq, -⟩ | ⟨ev, rfl, hq, hdue⟩⟩ := tryDequeueDueBy_queue hfifo hd
    · exact .inl (hq.trans hqueue)
    · rw [hqueue] at hq
      have hport := tryDequeueDueBy_readPort hd
      obtain ⟨rd, readPort, rfl⟩ := tryDequeueDueBy_writes hd
      refine .inr (.inr (.inl ⟨dq, ev, hturn, hre, hq, hdue, hport, ?_, ?_⟩))
      · rw [hfetch]
      · rw [hfetch]
  case inr.inr.inr.inr => exact .inl hqueue

/-! ## The stamps (R97) -/

/-- The stamps of a list rise strictly and lie below a count. -/
def RisingBelow (n : Word64) (q : List BusEvent) : Prop :=
  q.Pairwise (fun a b => a.atCycle < b.atCycle) ∧ ∀ ev ∈ q, ev.atCycle < n

theorem stampsRise_iff (s : State) : stampsRise s ↔ RisingBelow s.hcc (queueOf s) := Iff.rfl

namespace RisingBelow

variable {n : Word64} {q : List BusEvent}

theorem mono {n' : Word64} (h : RisingBelow n q) (hle : n ≤ n') : RisingBelow n' q :=
  ⟨h.1, fun ev hev => Nat.lt_of_lt_of_le (h.2 ev hev) hle⟩

theorem sublist {q' : List BusEvent} (h : RisingBelow n q) (hsub : q'.Sublist q) : RisingBelow n q' :=
  ⟨h.1.sublist hsub, fun ev hev => h.2 ev (hsub.subset hev)⟩

/-- An event stamped with the count, and the count moved on (R87, R88). -/
theorem listEnqueue {n' : Word64} {ev : BusEvent} (cap : Nat) (h : RisingBelow n q) (hstamp : ev.atCycle = n)
    (hlt : n < n') : RisingBelow n' (listEnqueue cap ev q) := by
  have hkept : RisingBelow n (if q.length = cap then q.tail else q) := by
    split
    · exact h.sublist (List.tail_sublist q)
    · exact h
  obtain ⟨hrise, hbelow⟩ := hkept
  refine ⟨List.pairwise_append.mpr ⟨hrise, List.pairwise_singleton _ _, fun a ha b hb => ?_⟩, fun e he => ?_⟩
  · rw [List.mem_singleton.mp hb, hstamp]
    exact hbelow a ha
  · rcases List.mem_append.mp he with he | he
    · exact BitVec.lt_trans (hbelow e he) hlt
    · rwa [List.mem_singleton.mp he, hstamp]

end RisingBelow

/-- An armed bus cycle counts (R88). -/
theorem step_producer_counts {s t : State} {bs : BusWord} (hturn : (nextTurn s).1 = .agent (.producer bs))
    (harmed : s.armed = true) (h : step s = .next t) : t.hcc = s.hcc + 1 := by
  obtain ⟨agenda, turnNo, env, hfetch⟩ := fetch_registers s
  obtain ⟨i, hbus, hkind⟩ := decode_bus_transaction bs
  obtain ⟨-, -, ⟨j, hd, hexec⟩ | ⟨e, hd, -⟩⟩ := step_cases h <;> rw [hturn] at hd
  · obtain rfl : i = j := Except.ok.inj (hbus.symm.trans hd)
    obtain ⟨wr, slots, rd, dOE, dOut, hexec', -⟩ := exec_transaction_armed (s := (fetch s).2) hkind (by rwa [hfetch])
    rw [hexec'] at hexec
    cases hexec
    exact congrArg (· + 1) (fetch_hcc s)
  · exact absurd hd nofun

/-- Settles O24 from O23: no kind of step but a request at the write port, which the premise excludes, puts into the
queue an event not stamped with the count of an armed bus cycle, and that cycle counts. -/
theorem stampsKeepRising : Obligations.StampsKeepRising := by
  have hreset : queueOf State.reset = [] := queueOf_empty rfl
  refine ⟨by simp [stampsRise, hreset], fun s t hinv hrise hwrap hno h => ?_⟩
  have hcount : s.hcc < s.hcc + 1 := by
    rw [BitVec.lt_def, BitVec.toNat_add]
    exact (Nat.lt_succ_self _).trans_eq (Nat.mod_eq_of_lt (Nat.add_lt_of_lt_sub hwrap)).symm
  have hle : s.hcc ≤ t.hcc := by
    rcases step_countOrCopy h with ⟨hhcc, -⟩ | ⟨hhcc, -⟩ | ⟨hhcc, -⟩ <;> rw [hhcc]
    · exact BitVec.le_of_lt hcount
    · exact BitVec.le_refl _
    · exact BitVec.le_refl _
  rw [stampsRise_iff] at hrise ⊢
  have hold : RisingBelow t.hcc (queueOf s) := hrise.mono hle
  rcases eventsLeaveInOrder s t hinv h with hq | ⟨e, ev, -, -, hq, -⟩ | ⟨dq, ev, -, -, hq, -⟩ |
    ⟨bs, hturn, harmed, -, hq, -⟩ | ⟨w, hturn, -⟩
  case inl => exact hq ▸ hold
  case inr.inl => exact hold.sublist (hq ▸ List.sublist_cons_self ..)
  case inr.inr.inl => exact hold.sublist (hq ▸ List.sublist_cons_self ..)
  case inr.inr.inr.inl =>
    have hhcc := step_producer_counts hturn harmed h
    rw [hq, hhcc]
    exact hrise.listEnqueue _ rfl hcount
  case inr.inr.inr.inr => exact absurd hturn (hno w)

/-! ## Lockstep: the cycles a history of calls advances a chip by (R138) -/

theorem cyclesAdvanced_cons (c : ChipIndex) (call : TGCall) (calls : List TGCall) :
    cyclesAdvanced c (call :: calls) = cyclesAdvanced c [call] + cyclesAdvanced c calls := by
  cases call <;> simp [cyclesAdvanced]

theorem cyclesAdvanced_append (c : ChipIndex) (calls calls' : List TGCall) :
    cyclesAdvanced c (calls ++ calls') = cyclesAdvanced c calls + cyclesAdvanced c calls' := by
  induction calls with
  | nil => simp [cyclesAdvanced]
  | cons call calls ih =>
    rw [List.cons_append, cyclesAdvanced_cons, ih, cyclesAdvanced_cons c call calls, Nat.add_assoc]

/-- Calls that advance nothing (R135). -/
theorem cyclesAdvanced_map_zero {α : Type} (c : ChipIndex) {call : α → TGCall}
    (hcall : ∀ a, cyclesAdvanced c [call a] = 0) (l : List α) : cyclesAdvanced c (l.map call) = 0 := by
  induction l with
  | nil => rfl
  | cons a l ih => rw [List.map_cons, cyclesAdvanced_cons, hcall, ih]

/-- One advance of each listed chip (R127). -/
theorem cyclesAdvanced_advances (c : ChipIndex) (n : Nat) {l : List ChipIndex} (hl : l.Nodup) :
    cyclesAdvanced c (l.map fun c => .advance c n) = if c ∈ l then n else 0 := by
  induction l with
  | nil => rfl
  | cons d l ih =>
    obtain ⟨hd, hl⟩ := List.nodup_cons.mp hl
    rw [List.map_cons, cyclesAdvanced_cons, ih hl]
    by_cases hc : c = d
    · subst hc
      simp [cyclesAdvanced, hd]
    · simp [cyclesAdvanced, hc]

/-- TG_ADVANCE's calls advance every chip alike (R127). -/
theorem cyclesAdvanced_allChips (c : ChipIndex) (n : Nat) :
    cyclesAdvanced c (allChips.map fun c => TGCall.advance c n).reverse = n := by
  have hnodup : allChips.reverse.Nodup := by decide
  have hmem : ∀ c : ChipIndex, c ∈ allChips.reverse := by decide
  rw [← List.map_reverse, cyclesAdvanced_advances c n hnodup, if_pos (hmem c)]

/-- Calls that advance nothing leave the lockstep. -/
theorem lockstep_append {α : Type} {s : State} (h : Inv s) {call : α → TGCall}
    (hcall : ∀ c a, cyclesAdvanced c [call a] = 0) (l : List α) (c : ChipIndex) :
    BitVec.ofNat 64 (cyclesAdvanced c ((l.map call).reverse ++ s.tgCalls)) = s.ce := by
  rw [cyclesAdvanced_append, ← List.map_reverse, cyclesAdvanced_map_zero c (hcall c), Nat.zero_add]
  exact h.lockstep c

/-! ## MODE, PHASE, ARMED and CALSTATE (R124, R125) -/

/-- CONS is in its main loop, DEC armed and the clock measured (R124, R125). -/
structure Looping (s : State) : Prop where
  mode_loop : s.mode = .catchup ∨ s.mode = .playing
  armed : s.armed = true
  calibrated : s.calState = .done

/-- While CONS runs it calibrates, or is in its main loop, or clears after a reset; PHASE tells which (R124, R125). -/
theorem controlOk_running {s : State} (h : controlOk s) (hruns : s.consRuns = true) :
    (s.phase = phCalibrate ∧ s.calState ≠ .done ∧ (s.mode = .init ∨ s.mode = .calibrating ∧ s.armed = true)) ∨
    (s.phase.toNat ≤ 5 ∧ Looping s) ∨
    (s.phase = phResetClear ∧ s.armed = true ∧ s.calState = .done) := by
  obtain ⟨hhalted, hstopped⟩ := (consRuns_iff s).mp hruns
  cases hm : s.mode <;> simp only [controlOk, hm] at h
  case init =>
    obtain ⟨hphase, -, hlive⟩ := h
    exact .inl ⟨hphase, hlive ▸ nofun, .inl rfl⟩
  case calibrating =>
    obtain ⟨hphase, harmed, hmeasuring⟩ := h
    exact .inl ⟨hphase, hmeasuring, .inr ⟨rfl, harmed⟩⟩
  case catchup =>
    obtain ⟨hphase, harmed, hdone⟩ := h
    exact .inr (.inl ⟨hphase, .inl hm, harmed, hdone⟩)
  case playing =>
    obtain ⟨hphase, harmed, hdone⟩ := h
    exact .inr (.inl ⟨hphase, .inr hm, harmed, hdone⟩)
  case resetting => exact .inr (.inr h)
  case halted => exact absurd hm hhalted
  case stopped => exact absurd hm hstopped

theorem Looping.controlOk {s : State} {p : PhaseCode} (h : Looping s) (hle : p.toNat ≤ 5) (hp : s.phase = p) :
    controlOk s := by
  have hphase : s.phase.toNat ≤ 5 := hp ▸ hle
  rcases h.mode_loop with hm | hm <;> simp only [Machine.controlOk, hm] <;> exact ⟨hphase, h.armed, h.calibrated⟩

/-! ## Every phase keeps the invariant -/

/-- Any pair handed over with any calls before it, as one record update (R115, R121). -/
theorem goTo_sinkPut (left right : Sample) (calls : List TGCall) (s : State) :
    goTo phFetchTarget (sinkPut left right (recordCalls calls { s with left := left, right := right })) = { s with
      left := left
      right := right
      sink := (left, right) :: s.sink
      tgCalls := calls.reverse ++ s.tgCalls
      phase := phFetchTarget } := rfl

/-- MIX_OUT as one record update (R115, R121). -/
theorem mixOut_eq (s : State) :
    goTo phFetchTarget (mix s) = { s with
      left := (mix s).left
      right := (mix s).right
      sink := ((mix s).left, (mix s).right) :: s.sink
      tgCalls := (allChips.map TGCall.output).reverse ++ s.tgCalls
      phase := phFetchTarget } := goTo_sinkPut (mix s).left (mix s).right (allChips.map TGCall.output) s

section Phases

variable {s : State} (h : Inv s)

include h

/-- The FIFO's invariant where the phase leaves the FIFO alone. -/
theorem Inv.sameFifo {t : State} (hsame : SameFifo s t) : FifoInv t := hsame.fifoInv h.fifo

theorem inv_loopTest (hloop : Looping s) : Inv (loopTest s) := by
  have hclock := (CalibratorFrame.loopTest s).clockOk h.clock
  have hcontrol : controlOk (loopTest s) := by
    refine Looping.controlOk ⟨?_, by simpa using hloop.armed, by simpa using hloop.calibrated⟩ ?_ (loopTest_phase s)
    · rw [loopTest_mode]
      split
      · exact .inr rfl
      · exact hloop.mode_loop
    · split <;> decide
  rw [loopTest_eq] at hclock hcontrol ⊢
  exact { h with fifo := h.sameFifo ⟨rfl, rfl, rfl, rfl⟩, control := hcontrol, clock := hclock }

theorem inv_fetchTarget (hloop : Looping s) : Inv (fetchTarget s) := by
  rcases fetchTarget_cases s with ⟨-, heq⟩ | ⟨-, -, heq⟩ | ⟨-, -, heq⟩ <;> rw [heq]
  · exact { h with fifo := h.sameFifo ⟨rfl, rfl, rfl, rfl⟩, control := rfl, clock := nofun }
  · exact { h with
      fifo := h.sameFifo ⟨rfl, rfl, rfl, rfl⟩
      control := ⟨rfl, hloop.armed, hloop.calibrated⟩
      clock := nofun }
  · have hread : Inv { s with target := s.hcc } := { h with fifo := h.sameFifo ⟨rfl, rfl, rfl, rfl⟩ }
    exact inv_loopTest hread ⟨hloop.mode_loop, hloop.armed, hloop.calibrated⟩

theorem inv_accStep (hloop : Looping s) : Inv (goTo phTgAdvance (accumulate s)) := by
  obtain ⟨-, hcarry⟩ := accumulate_toNat s
  have hlt : (accumulate s).carry.toNat < 2 ^ 16 := hcarry ▸ Nat.mod_lt _ (by decide)
  exact { h with
    fifo := h.sameFifo ⟨rfl, rfl, rfl, rfl⟩
    carry_lt := hlt
    control := Looping.controlOk (p := phTgAdvance) ⟨hloop.mode_loop, hloop.armed, hloop.calibrated⟩ (by decide) rfl }

theorem inv_tgAdvance (hloop : Looping s) : Inv (tgAdvance s) where
  __ := h
  fifo := h.sameFifo ⟨rfl, rfl, rfl, rfl⟩
  lockstep c := by
    change BitVec.ofNat 64 (cyclesAdvanced c (_ ++ s.tgCalls)) = s.ce + _
    rw [cyclesAdvanced_append, cyclesAdvanced_allChips, BitVec.ofNat_add, h.lockstep, BitVec.add_comm]
  control := Looping.controlOk (p := phCacheRefresh) ⟨hloop.mode_loop, hloop.armed, hloop.calibrated⟩ (by decide) rfl

theorem inv_cacheRefresh (hloop : Looping s) : Inv (cacheRefresh s) := by
  have hlock := lockstep_append h (call := fun r => .read 0 r) (fun _ _ => rfl) allRegs
  rw [cacheRefresh_eq]
  generalize (allRegs.map fun r => TGCall.read 0 r).reverse ++ s.tgCalls = calls at hlock ⊢
  generalize (Vector.ofFn fun r => tgReadAnswer s (BitVec.ofFin r)) = cache
  exact { h with
    fifo := h.sameFifo ⟨rfl, rfl, rfl, rfl⟩
    lockstep := hlock
    control := Looping.controlOk (p := phDrainApply) ⟨hloop.mode_loop, hloop.armed, hloop.calibrated⟩ (by decide) rfl }

theorem inv_applyAnswer (hloop : Looping s) (m : Option BusEvent) : Inv (applyAnswer m s) := by
  cases m with
  | none => exact inv_loopTest h hloop
  | some ev =>
    have hwrite : Inv (tgWrite ev.chipIndex ev.register ev.value s) := { h with
      fifo := h.sameFifo ⟨rfl, rfl, rfl, rfl⟩
      tgreg_wf := memWrite_wf ev.value (tgAddr_lt _ _) h.tgreg_wf }
    exact inv_loopTest hwrite ⟨hloop.mode_loop, hloop.armed, hloop.calibrated⟩

theorem inv_mixOut (hloop : Looping s) : Inv (goTo phFetchTarget (mix s)) := by
  obtain ⟨hleft, hright⟩ := mix_toInt s
  have hlock := lockstep_append h (call := .output) (fun _ _ => rfl) allChips
  have hleft_ge : -32767 ≤ (mix s).left.toInt := hleft.ge.trans' (clipHalf_range _).1
  have hright_ge : -32767 ≤ (mix s).right.toInt := hright.ge.trans' (clipHalf_range _).1
  rw [mixOut_eq]
  generalize (allChips.map TGCall.output).reverse ++ s.tgCalls = calls at hlock ⊢
  generalize (mix s).left = left at hleft_ge ⊢
  generalize (mix s).right = right at hright_ge ⊢
  exact { h with
    fifo := h.sameFifo ⟨rfl, rfl, rfl, rfl⟩
    left_ge := hleft_ge
    right_ge := hright_ge
    lockstep := hlock
    control := Looping.controlOk (p := phFetchTarget) ⟨hloop.mode_loop, hloop.armed, hloop.calibrated⟩ (by decide) rfl }

theorem inv_resetClear (harmed : s.armed = true) (hdone : s.calState = .done) : Inv (resetClear s) := by
  have hlock := lockstep_append h (call := fun p => .write p.1 p.2 0x00) (fun _ _ => rfl) allChipRegs
  have hwf : Memory.wf 256 (tgClear allChipRegs s).tgreg := by
    rw [tgClear_tgreg]
    exact clear_wf allChipRegs h.tgreg_wf
  rw [resetClear_eq]
  generalize (allChipRegs.map fun p => TGCall.write p.1 p.2 0x00).reverse ++ s.tgCalls = calls at hlock ⊢
  generalize (tgClear allChipRegs s).tgreg = tgreg at hwf ⊢
  exact { h with
    fifo := h.sameFifo ⟨rfl, rfl, rfl, rfl⟩
    tgreg_wf := hwf
    carry_lt := Nat.two_pow_pos 16
    lockstep := hlock
    control := Looping.controlOk (p := phFetchTarget) ⟨.inr rfl, harmed, hdone⟩ (by decide) rfl
    clock := nofun }

theorem inv_calibrateStep (hphase : s.phase = phCalibrate)
    (hmode : s.mode = .init ∨ s.mode = .calibrating ∧ s.armed = true) : Inv (calibrateStep s) := by
  have hclock := calibrateStep_clockOk h.clock
  rcases calibrateStep_cases s with ⟨-, heq⟩ | ⟨hm, -, -, heq⟩ | ⟨-, -, heq⟩ | ⟨-, heq⟩ |
    ⟨hm, -, f, -, -, -, hinc, heq⟩ <;> rw [heq] at hclock ⊢
  case inl =>
    exact { h with
      fifo := h.sameFifo ⟨rfl, rfl, rfl, rfl⟩
      inc_le := nofun
      control := ⟨hphase, rfl, nofun⟩
      clock := hclock }
  case inr.inl =>
    obtain ⟨hcalibrating, harmed⟩ := hmode.resolve_left hm
    have hcontrol : controlOk { s with t0 := s.env.wallClock, c0 := s.hcc, calState := .window } := by
      simp only [controlOk, hcalibrating]
      exact ⟨hphase, harmed, nofun⟩
    exact { h with
      fifo := h.sameFifo ⟨rfl, rfl, rfl, rfl⟩
      inc_le := nofun
      control := hcontrol
      clock := hclock }
  case inr.inr.inl =>
    exact { h with fifo := h.sameFifo ⟨rfl, rfl, rfl, rfl⟩, control := rfl, clock := nofun }
  case inr.inr.inr.inl => exact h
  case inr.inr.inr.inr =>
    obtain ⟨-, harmed⟩ := hmode.resolve_left hm
    have hle : (BitVec.ofNat 32 (incrementOf f s.cfg.sampleRate)).toNat ≤ 2 ^ 32 - 2 ^ 16 := by
      rw [BitVec.toNat_ofNat]
      exact (Nat.mod_le _ _).trans hinc
    exact { h with
      fifo := h.sameFifo ⟨rfl, rfl, rfl, rfl⟩
      inc_le := fun _ => hle
      control := Looping.controlOk (p := phFetchTarget) ⟨.inl rfl, harmed, rfl⟩ (by decide) rfl
      clock := hclock }

end Phases

/-- CONS has no step in HALTED and STOPPED, whatever the phase (R123). -/
theorem exec_phase_stopped {i : Instr} {s : State} (hi : isPhase i = true) (hstopped : s.consRuns = false) :
    exec i s = .next s := by
  cases i with
  | idle _ | read _ _ | write _ _ _ _ | enqueue _ | tryDequeueDueBy _ => cases hi
  | drainApply => simp [exec, execDrainApply, hstopped]
  | fetchTarget | accStep | tgAdvance | cacheRefresh | mixOut | resetClear | calibrate =>
    exact congrArg Host.Outcome.next (whileConsRuns_stopped _ hstopped)

/-- The phases of the main loop have the codes 0 to 5 (R74). -/
theorem decodePhase_loop {p : PhaseCode} (hp : p.toNat ≤ 5) :
    decodePhase p = .fetchTarget ∨ decodePhase p = .accStep ∨ decodePhase p = .tgAdvance ∨
    decodePhase p = .cacheRefresh ∨ decodePhase p = .drainApply ∨ decodePhase p = .mixOut := by
  revert p
  decide

/-- DRAIN_APPLY keeps the invariant: the dequeue the FIFO's, the answer's write the rest (R129). -/
theorem inv_exec_drainApply {s t : State} (h : Inv s) (hloop : Looping s) (hexec : exec .drainApply s = .next t) :
    Inv t := by
  rcases exec_drainApply_cases hexec with ⟨-, rfl⟩ | ⟨-, m, u, hd, rfl⟩
  · exact h
  · obtain ⟨hfifo, -⟩ := tryDequeueDueBy_queue h.fifo hd
    obtain ⟨rd, readPort, rfl⟩ := tryDequeueDueBy_writes hd
    have hdequeued : Inv { s with rd := rd, readPort := readPort } := { h with fifo := hfifo }
    exact inv_applyAnswer hdequeued ⟨hloop.mode_loop, hloop.armed, hloop.calibrated⟩ m

/-- The phase that PHASE names keeps the invariant (R124, R125). -/
theorem inv_exec_phase {s t : State} (h : Inv s) (hexec : exec (decodePhase s.phase) s = .next t) : Inv t := by
  rcases Bool.eq_false_or_eq_true s.consRuns with hruns | hstopped
  case inr =>
    obtain ⟨hphase, -⟩ := isPhase_decodePhase s.phase
    rw [exec_phase_stopped hphase hstopped] at hexec
    cases hexec
    exact h
  rcases controlOk_running h.control hruns with ⟨hphase, -, hmode⟩ | ⟨hphase, hloop⟩ | ⟨hphase, harmed, hdone⟩
  case inl =>
    rw [hphase] at hexec
    cases hexec
    rw [whileConsRuns_eq _ hruns]
    exact inv_calibrateStep h hphase hmode
  case inr.inl =>
    rcases decodePhase_loop hphase with hi | hi | hi | hi | hi | hi <;> rw [hi] at hexec
    case inr.inr.inr.inr.inl => exact inv_exec_drainApply h hloop hexec
    all_goals
      cases hexec
      rw [whileConsRuns_eq _ hruns]
    · exact inv_fetchTarget h hloop
    · exact inv_accStep h hloop
    · exact inv_tgAdvance h hloop
    · exact inv_cacheRefresh h hloop
    · exact inv_mixOut h hloop
  case inr.inr =>
    rw [hphase] at hexec
    cases hexec
    rw [whileConsRuns_eq _ hruns]
    exact inv_resetClear h harmed hdone

/-! ## Every step keeps the invariant -/

/-- A bus cycle keeps the invariant: it writes the FIFO by an enqueue or not at all (R79, R80). -/
theorem inv_exec_bus {bs : BusWord} {s t : State} (h : Inv s) (hexec : exec (decodeBus bs) s = .next t) : Inv t := by
  obtain ⟨hframe, hmove⟩ := exec_bus_fifo hexec
  have hfifo : FifoInv t := by
    rcases hmove with hsame | ⟨-, -, -, hsame⟩
    · exact h.sameFifo hsame
    · exact hsame.fifoInv (fifoInv_enqueue _ h.fifo)
  have hdrive := hframe.drive
  obtain ⟨i, hd, hkind⟩ := decode_bus_transaction bs
  obtain rfl : decodeBus bs = i := Except.ok.inj hd
  obtain ⟨hwrites, -⟩ := transactionsWriteOnlyProducerState _ s t (isTransaction_iff.mpr ⟨_, hkind⟩) hexec
  rw [hwrites] at hfifo hdrive ⊢
  exact { h with fifo := hfifo, drive := hdrive }

/-- A turn taken, with its inputs presented, keeps the invariant where it passes the clock's check (U24). -/
theorem inv_fetch {s : State} (h : Inv s) (hclock : clockRunsBack (nextTurn s).1 s = false) : Inv (fetch s).2 := by
  have hfifo := h.sameFifo (fetch_sameFifo s)
  have hreadings := fetch_clockOk hclock h.clock
  obtain ⟨agenda, turnNo, env, hfetch⟩ := fetch_registers s
  rw [hfetch] at hfifo hreadings ⊢
  exact { h with fifo := hfifo, clock := hreadings }

/-- Settles O54, kind of turn by kind of turn. -/
theorem stepKeepsTheInvariant : Obligations.StepKeepsTheInvariant := by
  intro s t hinv hstep
  obtain ⟨-, hclock, -⟩ := step_cases hstep
  have h := inv_fetch hinv hclock
  rcases step_turn_cases hstep with ⟨bs, -, hexec⟩ | ⟨e, -, hexec⟩ | ⟨w, -, rfl⟩ | ⟨dq, -, -, m, hd⟩ | rfl
  case inl => exact inv_exec_bus h hexec
  case inr.inl => exact inv_exec_phase h (by rwa [fetch_phase])
  case inr.inr.inl =>
    have hfifo := fifoInv_enqueue (unpackEvent w) h.fifo
    rw [enqueue_eq] at hfifo ⊢
    exact { h with fifo := hfifo }
  case inr.inr.inr.inl =>
    obtain ⟨hfifo, -⟩ := tryDequeueDueBy_queue h.fifo hd
    obtain ⟨rd, readPort, rfl⟩ := tryDequeueDueBy_writes hd
    exact { h with fifo := hfifo }
  case inr.inr.inr.inr => exact h

end Sys2Proof.Machine

/-! SUPPORT, then the proofs of the statements that 42_cycle_accumulator.md gives rise to: the accumulator splits an
exact sum and does not drift (R104 to R106), and the calibrator measures once and leaves a tight INC (R103, R109, R110). -/

namespace Sys2Proof.Machine

open Sys2Proof

/-! ## ACC_STEP as one record update (R104) -/

/-- The exact sum split at bit 16: the bit that a 32-bit sum would lose lies above both halves. -/
theorem goTo_accumulate_eq (s : State) :
    goTo phTgAdvance (accumulate s) = { s with
      nout := BitVec.ofNat 16 ((s.inc.toNat + s.carry.toNat) / 2 ^ 16)
      carry := BitVec.ofNat 32 ((s.inc.toNat + s.carry.toNat) % 2 ^ 16)
      phase := phTgAdvance } := by
  obtain ⟨hquot, hrem⟩ := accumulate_toNat s
  have hnout : (accumulate s).nout = BitVec.ofNat 16 ((s.inc.toNat + s.carry.toNat) / 2 ^ 16) :=
    BitVec.eq_of_toNat_eq (by rw [hquot, BitVec.toNat_ofNat])
  have hcarry : (accumulate s).carry = BitVec.ofNat 32 ((s.inc.toNat + s.carry.toNat) % 2 ^ 16) :=
    BitVec.eq_of_toNat_eq (by rw [hrem, BitVec.toNat_ofNat]; omega)
  rw [← hnout, ← hcarry]
  rfl

/-- ACC_STEP while CONS runs (R104, R123). -/
theorem exec_accStep_running {s : State} (hruns : s.consRuns = true) :
    exec .accStep s = .next (goTo phTgAdvance (accumulate s)) :=
  congrArg Host.Outcome.next (whileConsRuns_eq (fun t => goTo phTgAdvance (accumulate t)) hruns)

/-- Settles O25: the two halves of the exact sum, and its bound from those of R103 and R105. -/
theorem accStepSplitsTheSum : Obligations.AccStepSplitsTheSum := by
  refine ⟨rfl, fun s hruns => ?_, fun s hinc hcarry => by omega⟩
  rw [exec_accStep_running hruns, goTo_accumulate_eq]
  rfl

/-! ## The no-drift law (R106) -/

@[simp] theorem accumulate_inc (s : State) : (accumulate s).inc = s.inc := rfl

/-- Within the bounds of R103 and R105 one ACC_STEP loses nothing: its count, in units of 2^16, and the new CARRY make
up the sum. -/
theorem accumulate_conserves {s : State} (hinc : s.inc.toNat ≤ 2 ^ 32 - 2 ^ 16) (hcarry : s.carry.toNat < 2 ^ 16) :
    (accumulate s).carry.toNat < 2 ^ 16 ∧
    (accumulate s).nout.toNat * 2 ^ 16 + (accumulate s).carry.toNat = s.inc.toNat + s.carry.toNat := by
  obtain ⟨hquot, hrem⟩ := accumulate_toNat s
  omega

/-- A run of one ACC_STEP more begins with that step's count (R106). -/
theorem accRun_succ {k : Nat} {s t : State} {ns : List Nat} (hruns : s.consRuns = true)
    (h : accRun k (goTo phTgAdvance (accumulate s)) = some (ns, t)) :
    accRun (k + 1) s = some ((accumulate s).nout.toNat :: ns, t) := by
  rw [accRun, exec_accStep_running hruns]
  simp [h]

/-- What `k` ACC_STEPs conserve: the counts, in units of 2^16, and the last CARRY make up `k` increments and the first
CARRY. -/
theorem accRun_conserves (k : Nat) {s : State} (hruns : s.consRuns = true) (hinc : s.inc.toNat ≤ 2 ^ 32 - 2 ^ 16)
    (hcarry : s.carry.toNat < 2 ^ 16) :
    ∃ ns t, accRun k s = some (ns, t) ∧ ns.length = k ∧ t.carry.toNat < 2 ^ 16 ∧
      ns.sum * 2 ^ 16 + t.carry.toNat = k * s.inc.toNat + s.carry.toNat ∧
      ∀ n ∈ ns, n = s.inc.toNat / 2 ^ 16 ∨ n = s.inc.toNat / 2 ^ 16 + 1 := by
  induction k generalizing s with
  | zero => exact ⟨[], s, rfl, rfl, hcarry, by simp, nofun⟩
  | succ k ih =>
    obtain ⟨hcarry', hsplit⟩ := accumulate_conserves hinc hcarry
    obtain ⟨ns, t, hrun, hlength, hlast, hsum, hcounts⟩ :=
      ih (s := goTo phTgAdvance (accumulate s)) hruns hinc hcarry'
    refine ⟨_, t, accRun_succ hruns hrun, by simp [hlength], hlast, ?_, ?_⟩
    · rw [goTo_inc, goTo_carry, accumulate_inc] at hsum
      rw [List.sum_cons, Nat.succ_mul]
      linarith only [hsum, hsplit]
    · rw [List.forall_mem_cons]
      exact ⟨by omega, hcounts⟩

/-- Settles O26: quotient and remainder of what the run conserves. -/
theorem periodCountsDoNotDrift : Obligations.PeriodCountsDoNotDrift := by
  intro k s hruns hinc hcarry
  obtain ⟨ns, t, hrun, hlength, hlast, hsum, hcounts⟩ := accRun_conserves k hruns hinc hcarry
  exact ⟨ns, t, hrun, hlength, by omega, by omega, hcounts, by omega, by omega⟩

/-! ## One CALIBRATE step, state by state of the calibrator (R109) -/

/-- More than `n` microseconds have passed, without a difference (R15, R109). -/
theorem elapsedUs_gt_iff (now since : Word64) (n : Nat) :
    elapsedUs now since > (n : Int) ↔ since.toNat + n < now.toNat := by
  unfold elapsedUs
  omega

/-- At least `n` microseconds have passed, without a difference (R15, R109). -/
theorem elapsedUs_ge_iff (now since : Word64) (n : Nat) :
    elapsedUs now since ≥ (n : Int) ↔ since.toNat + n ≤ now.toNat := by
  unfold elapsedUs
  omega

/-- A legal configuration has a sample rate to divide by (R11). -/
theorem sampleRate_pos_of_legal {p : Params} (h : p.legal = true) : 1 ≤ p.sampleRate := by
  simp only [Params.legal, Bool.and_eq_true, decide_eq_true_eq] at h
  omega

/-- CALIBRATE while CONS runs (R109, R123). -/
theorem exec_calibrate_running {s : State} (hruns : s.consRuns = true) : exec .calibrate s = .next (calibrateStep s) :=
  congrArg Host.Outcome.next (whileConsRuns_eq calibrateStep hruns)

section CalibrateStep

variable {s : State}

theorem calibrateStep_init (hm : s.mode = .init) : calibrateStep s = calibrateStart s := if_pos hm

theorem calibrateStep_live (hm : s.mode ≠ .init) (hc : s.calState = .live) : calibrateStep s = calibrateLive s := by
  rw [calibrateStep, if_neg hm, hc]

theorem calibrateStep_window (hm : s.mode ≠ .init) (hc : s.calState = .window) :
    calibrateStep s = calibrateWindow s := by
  rw [calibrateStep, if_neg hm, hc]

theorem calibrateStep_done (hm : s.mode ≠ .init) (hc : s.calState = .done) : calibrateStep s = s := by
  rw [calibrateStep, if_neg hm, hc]

theorem calibrateLive_ready (h : s.cfg.minLiveCycles ≤ s.hcc.toNat) :
    calibrateLive s = { s with t0 := s.env.wallClock, c0 := s.hcc, calState := .window } := if_pos h

theorem calibrateLive_timeout (h : s.hcc.toNat < s.cfg.minLiveCycles)
    (hlate : s.tstart.toNat + s.cfg.livenessTimeoutUs < s.env.wallClock.toNat) :
    calibrateLive s = raiseCalibrationFailure s := by
  rw [calibrateLive, if_neg (not_le.mpr h), if_pos ((elapsedUs_gt_iff ..).mpr hlate)]

theorem calibrateLive_waits (h : s.hcc.toNat < s.cfg.minLiveCycles)
    (hearly : s.env.wallClock.toNat ≤ s.tstart.toNat + s.cfg.livenessTimeoutUs) : calibrateLive s = s := by
  rw [calibrateLive, if_neg (not_le.mpr h), if_neg (mt (elapsedUs_gt_iff ..).mp (not_lt.mpr hearly))]

theorem calibrateWindow_open (h : s.env.wallClock.toNat < s.t0.toNat + s.cfg.calWindowUs) : calibrateWindow s = s :=
  if_neg (mt (elapsedUs_ge_iff ..).mp (not_le.mpr h))

/-- The window is over: the elapsed time is not negative, so R109's quotient is one of natural numbers. -/
theorem calibrateWindow_over (h : s.t0.toNat + s.cfg.calWindowUs ≤ s.env.wallClock.toNat) :
    calibrateWindow s =
      calibrateFinish ((s.hcc - s.c0).toNat * 1000000 / (s.env.wallClock.toNat - s.t0.toNat)) s := by
  rw [calibrateWindow, if_pos ((elapsedUs_ge_iff ..).mpr h), elapsedUs, Int.toNat_sub, measuredFrequency]

theorem calibrateFinish_refused {f : Nat}
    (h : f < 1 ∨ 2 ^ 32 ≤ f ∨ 2 ^ 32 - 2 ^ 16 < incrementOf f s.cfg.sampleRate) :
    calibrateFinish f s = raiseCalibrationFailure s := if_pos (.inr h)

theorem calibrateFinish_accepted {f : Nat} (hrate : 1 ≤ s.cfg.sampleRate) (hpos : 1 ≤ f) (hlt : f < 2 ^ 32)
    (hinc : incrementOf f s.cfg.sampleRate ≤ 2 ^ 32 - 2 ^ 16) :
    calibrateFinish f s = goTo phFetchTarget { s with
      freq := BitVec.ofNat 32 f
      inc := BitVec.ofNat 32 (incrementOf f s.cfg.sampleRate)
      calState := .done
      mode := .catchup } := if_neg (by omega)

end CalibrateStep

/-- Settles O28, case by case of R109's pseudocode. -/
theorem calibrateStepByStep : Obligations.CalibrateStepByStep := by
  refine ⟨rfl, fun s hlegal hruns => ?_⟩
  rw [exec_calibrate_running hruns]
  refine ⟨fun hm => ?start, fun hm hc hready => ?ready, fun hm hc hshort hlate => ?timeout,
    fun hm hc hshort hearly => ?waits, fun hm hc hopen => ?closesLater, fun f hm hc hover hf => ?isOver,
    fun hm hc => ?done⟩
  case start => rw [calibrateStep_init hm, calibrateStart]
  case ready => rw [calibrateStep_live hm hc, calibrateLive_ready hready]
  case timeout => rw [calibrateStep_live hm hc, calibrateLive_timeout hshort hlate, raiseCalibrationFailure]
  case waits => rw [calibrateStep_live hm hc, calibrateLive_waits hshort hearly]
  case closesLater => rw [calibrateStep_window hm hc, calibrateWindow_open hopen]
  case isOver =>
    rw [calibrateStep_window hm hc, calibrateWindow_over hover, ← hf]
    refine ⟨fun hbad => ?_, fun hpos hlt hinc => ?_⟩
    · rw [calibrateFinish_refused hbad, raiseCalibrationFailure]
    · rw [calibrateFinish_accepted (sampleRate_pos_of_legal hlegal) hpos hlt hinc]
      rfl
  case done => rw [calibrateStep_done hm hc]

/-! ## What a successful calibration leaves (R103) -/

/-- INC is the greatest increment that does not overstate `2^16 * F / S` (R103). -/
theorem incrementOf_tight (f : Nat) {rate : Nat} (hrate : 1 ≤ rate) :
    incrementOf f rate * rate ≤ 2 ^ 16 * f ∧ 2 ^ 16 * f < (incrementOf f rate + 1) * rate :=
  ⟨Nat.div_mul_le_self .., Nat.mul_comm _ rate ▸ Nat.lt_mul_div_succ _ hrate⟩

/-- Settles O29: of the ways a CALIBRATE step can end, only the window's success makes CALSTATE DONE. -/
theorem incrementIsTight : Obligations.IncrementIsTight := by
  intro s t _ h hbefore hdone
  cases h
  rcases whileConsRuns_cases calibrateStep s with hrun | hrun <;> rw [hrun] at hdone ⊢
  case inr => exact absurd hdone hbefore
  rcases calibrateStep_cases s with ⟨-, heq⟩ | ⟨-, -, -, heq⟩ | ⟨-, -, heq⟩ | ⟨-, heq⟩ |
    ⟨-, -, f, hpos, hlt, hrate, hinc, heq⟩ <;> rw [heq] at hdone ⊢
  case inl => cases hdone
  case inr.inl => cases hdone
  case inr.inr.inl => exact absurd hdone hbefore
  case inr.inr.inr.inl => exact absurd hdone hbefore
  case inr.inr.inr.inr =>
    have hfreq : (BitVec.ofNat 32 f).toNat = f := by rw [BitVec.toNat_ofNat, Nat.mod_eq_of_lt hlt]
    have hincrement : (BitVec.ofNat 32 (incrementOf f s.cfg.sampleRate)).toNat = incrementOf f s.cfg.sampleRate := by
      rw [BitVec.toNat_ofNat, Nat.mod_eq_of_lt (hinc.trans_lt (by decide))]
    simp only [goTo_freq, goTo_inc, hfreq, hincrement]
    exact ⟨hpos, hinc, incrementOf_tight f hrate⟩

/-! ## Whose step writes CARRY, FREQ, INC and PHASE (R45) -/

/-- The accumulator's registers and PHASE, which CONS alone writes (R45), are as before. -/
structure SameAccumulator (s t : State) : Prop where
  carry_eq : t.carry = s.carry
  freq_eq : t.freq = s.freq
  inc_eq : t.inc = s.inc
  phase_eq : t.phase = s.phase

theorem SameAccumulator.trans {s t u : State} (h : SameAccumulator s t) (h' : SameAccumulator t u) :
    SameAccumulator s u where
  carry_eq := h'.carry_eq.trans h.carry_eq
  freq_eq := h'.freq_eq.trans h.freq_eq
  inc_eq := h'.inc_eq.trans h.inc_eq
  phase_eq := h'.phase_eq.trans h.phase_eq

/-- Taking a turn changes none of them (R56). -/
theorem fetch_sameAccumulator (s : State) : SameAccumulator s (fetch s).2 := by
  obtain ⟨agenda, turnNo, env, hfetch⟩ := fetch_registers s
  rw [hfetch]
  exact ⟨rfl, rfl, rfl, rfl⟩

/-- A bus cycle writes PROD's registers only (R45, R80). -/
theorem exec_bus_sameAccumulator {bs : BusWord} {s t : State} (h : exec (decodeBus bs) s = .next t) :
    SameAccumulator s t := by
  obtain ⟨i, hd, hkind⟩ := decode_bus_transaction bs
  obtain rfl : decodeBus bs = i := Except.ok.inj hd
  obtain ⟨hwrites, -⟩ := transactionsWriteOnlyProducerState _ s t (isTransaction_iff.mpr ⟨_, hkind⟩) h
  rw [hwrites]
  exact ⟨rfl, rfl, rfl, rfl⟩

/-- A step runs CONS's phase, or leaves the accumulator's registers and PHASE alone. -/
theorem step_phase_or_sameAccumulator {s t : State} (h : step s = .next t) :
    exec (decodePhase s.phase) (fetch s).2 = .next t ∨ SameAccumulator s t := by
  have hfetch := fetch_sameAccumulator s
  rcases step_turn_cases h with ⟨bs, -, hexec⟩ | ⟨e, -, hexec⟩ | ⟨w, -, rfl⟩ | ⟨dq, -, -, m, hd⟩ | rfl
  case inl => exact .inr (hfetch.trans (exec_bus_sameAccumulator hexec))
  case inr.inl => exact .inl hexec
  case inr.inr.inl =>
    exact .inr (hfetch.trans ⟨enqueue_carry .., enqueue_freq .., enqueue_inc .., enqueue_phase ..⟩)
  case inr.inr.inr.inl =>
    obtain ⟨rd, readPort, rfl⟩ := tryDequeueDueBy_writes hd
    exact .inr (hfetch.trans ⟨rfl, rfl, rfl, rfl⟩)
  case inr.inr.inr.inr => exact .inr hfetch

/-! ## CARRY stays a fraction (R105) -/

/-- Every phase keeps `CARRY < 2^16`: ACC_STEP leaves a remainder, RESET_CLEAR 0, and no other phase writes it. -/
theorem exec_phase_carry_lt {i : Instr} {s t : State} (hi : isPhase i = true) (hcarry : s.carry.toNat < 2 ^ 16)
    (h : exec i s = .next t) : t.carry.toNat < 2 ^ 16 := by
  obtain ⟨-, -, -, -, -, -, -, -, -, -, -, hkeep, -⟩ := phasesWriteOnlyConsumerState i s t hi h
  by_cases hclear : i = .resetClear
  · subst hclear
    cases h
    rcases whileConsRuns_cases resetClear s with hrun | hrun <;> rw [hrun]
    · rw [resetClear_eq]
      exact Nat.two_pow_pos 16
    · exact hcarry
  by_cases hacc : i = .accStep
  · subst hacc
    cases h
    rcases whileConsRuns_cases (fun u => goTo phTgAdvance (accumulate u)) s with hrun | hrun <;> rw [hrun]
    · obtain ⟨-, hrem⟩ := accumulate_toNat s
      rw [goTo_carry, hrem]
      exact Nat.mod_lt _ (Nat.two_pow_pos 16)
    · exact hcarry
  · rwa [hkeep hclear hacc]

/-- Settles O27: a step writes CARRY as a phase of CONS, or not at all. -/
theorem carryStaysAFraction : Obligations.CarryStaysAFraction := by
  refine ⟨by decide, fun s t hcarry h => ?_⟩
  rcases step_phase_or_sameAccumulator h with hexec | hsame
  · obtain ⟨hphase, -⟩ := isPhase_decodePhase s.phase
    exact exec_phase_carry_lt hphase (by rwa [(fetch_sameAccumulator s).carry_eq]) hexec
  · rwa [hsame.carry_eq]

/-! ## CALIBRATE is not entered again (R110) -/

/-- Code 0b111 alone asks for CALIBRATE (R74). -/
theorem decodePhase_ne_calibrate {p : PhaseCode} (h : p ≠ phCalibrate) : decodePhase p ≠ .calibrate := by
  revert p
  decide

/-- The loop test stays in the main loop (R126, R129). -/
theorem loopTest_phase_ne_calibrate (s : State) : (loopTest s).phase ≠ phCalibrate := by
  rw [loopTest_phase]
  split <;> decide

theorem fetchTarget_phase_ne_calibrate {s : State} (hs : s.phase ≠ phCalibrate) :
    (fetchTarget s).phase ≠ phCalibrate := by
  rcases fetchTarget_cases s with ⟨-, h⟩ | ⟨-, -, h⟩ | ⟨-, -, h⟩ <;> rw [h]
  · exact hs
  · exact (by decide : phResetClear ≠ phCalibrate)
  · exact loopTest_phase_ne_calibrate _

theorem applyAnswer_phase_ne_calibrate (m : Option BusEvent) (s : State) :
    (applyAnswer m s).phase ≠ phCalibrate := by
  cases m <;> exact loopTest_phase_ne_calibrate _

theorem whileConsRuns_phase_ne_calibrate {f : State → State} {s : State} (hf : (f s).phase ≠ phCalibrate)
    (hs : s.phase ≠ phCalibrate) : (whileConsRuns f s).phase ≠ phCalibrate := by
  rcases whileConsRuns_cases f s with h | h <;> rwa [h]

/-- No phase but CALIBRATE goes to CALIBRATE (R110, R124). -/
theorem exec_phase_ne_calibrate {i : Instr} {s t : State} (hi : isPhase i = true) (hcal : i ≠ .calibrate)
    (hs : s.phase ≠ phCalibrate) (h : exec i s = .next t) : t.phase ≠ phCalibrate := by
  cases i with
  | idle _ | read _ _ | write _ _ _ _ | enqueue _ | tryDequeueDueBy _ => cases hi
  | calibrate => exact absurd rfl hcal
  | fetchTarget =>
    cases h
    exact whileConsRuns_phase_ne_calibrate (fetchTarget_phase_ne_calibrate hs) hs
  | accStep =>
    cases h
    exact whileConsRuns_phase_ne_calibrate (by decide : phTgAdvance ≠ phCalibrate) hs
  | tgAdvance =>
    cases h
    exact whileConsRuns_phase_ne_calibrate (by decide : phCacheRefresh ≠ phCalibrate) hs
  | cacheRefresh =>
    cases h
    exact whileConsRuns_phase_ne_calibrate (by decide : phDrainApply ≠ phCalibrate) hs
  | drainApply =>
    rcases exec_drainApply_cases h with ⟨-, rfl⟩ | ⟨-, m, u, -, rfl⟩
    · exact hs
    · exact applyAnswer_phase_ne_calibrate m u
  | mixOut | resetClear =>
    cases h
    exact whileConsRuns_phase_ne_calibrate (by decide : phFetchTarget ≠ phCalibrate) hs

/-- Settles O30: outside CALIBRATE a step is another phase of CONS, or leaves PHASE, FREQ and INC alone. -/
theorem calibrationHappensOnce : Obligations.CalibrationHappensOnce := by
  intro s t hs h
  rcases step_phase_or_sameAccumulator h with hexec | hsame
  case inl =>
    obtain ⟨hphase, -⟩ := isPhase_decodePhase s.phase
    have hcal := decodePhase_ne_calibrate hs
    have hfetch := fetch_sameAccumulator s
    obtain ⟨-, -, -, -, -, -, -, -, -, -, -, -, -, -, -, -, -, -, -, hfixed, -⟩ :=
      phasesWriteOnlyConsumerState _ _ t hphase hexec
    obtain ⟨hfreq, hinc, -⟩ := hfixed hcal
    exact ⟨exec_phase_ne_calibrate hphase hcal (by rwa [hfetch.phase_eq]) hexec, hfreq.trans hfetch.freq_eq,
      hinc.trans hfetch.inc_eq⟩
  case inr => exact ⟨by rwa [hsame.phase_eq], hsame.freq_eq, hsame.inc_eq⟩

end Sys2Proof.Machine

/-! SUPPORT, then the proofs of the statements that 43_mixer.md gives rise to: MIX_OUT sums, halves and clips (R115,
R119), and its two channels do not mix (R120). -/

namespace Sys2Proof.Machine

open Sys2Proof

/-! ## The clipped half sum (R115, R117, R118) -/

/-- The clip of R115 as a maximum and a minimum. -/
theorem clipHalf_eq_max_min (v : Int) : clipHalf v = max (-32767) (min 32767 (v / 2)) := by
  unfold clipHalf clamp asr
  split <;> [skip; split] <;> omega

/-- The clip leaves a half sum in its range alone (R119). -/
theorem clipHalf_of_mem {v : Int} (hlo : -32767 ≤ asr v 1) (hhi : asr v 1 ≤ 32767) : clipHalf v = asr v 1 := by
  rw [clipHalf, clamp, if_neg hlo.not_gt, if_neg hhi.not_gt]

/-! ## The two sums (R115, R120) -/

section Sums

variable {s : State} {o : Fin 8 → Int}

/-- The left sum reads the odd chips alone. -/
theorem sumLeft_eq_of_odd (ho : ∀ c : Fin 8, c.val % 2 = 1 → o c = (s.env.tgOutput[c.val]).toInt) :
    sumLeft s = o 1 + o 3 + o 5 + o 7 := by
  rw [ho 1 rfl, ho 3 rfl, ho 5 rfl, ho 7 rfl]
  rfl

/-- The right sum reads the even chips alone. -/
theorem sumRight_eq_of_even (ho : ∀ c : Fin 8, c.val % 2 = 0 → o c = (s.env.tgOutput[c.val]).toInt) :
    sumRight s = o 0 + o 2 + o 4 + o 6 := by
  rw [ho 0 rfl, ho 2 rfl, ho 4 rfl, ho 6 rfl]
  rfl

end Sums

/-- Eight equal outputs give each channel four times the one. -/
theorem sums_of_outputs_eq {s : State} {v : Int} (h : ∀ c : Fin 8, (s.env.tgOutput[c.val]).toInt = v) :
    sumLeft s = 4 * v ∧ sumRight s = 4 * v := by
  have hleft : sumLeft s = v + v + v + v := sumLeft_eq_of_odd (o := fun _ => v) fun c _ => (h c).symm
  have hright : sumRight s = v + v + v + v := sumRight_eq_of_even (o := fun _ => v) fun c _ => (h c).symm
  omega

/-! ## MIX_OUT while CONS runs -/

theorem mix_left (s : State) : (mix s).left = BitVec.ofInt 16 (clipHalf (sumLeft s)) := rfl

theorem mix_right (s : State) : (mix s).right = BitVec.ofInt 16 (clipHalf (sumRight s)) := rfl

/-- MIX_OUT while CONS runs (R115, R123). -/
theorem exec_mixOut_running {s : State} (hruns : s.consRuns = true) :
    exec .mixOut s = .next (goTo phFetchTarget (mix s)) :=
  congrArg Host.Outcome.next (whileConsRuns_eq (fun t => goTo phFetchTarget (mix t)) hruns)

/-- What a running MIX_OUT leaves in LEFT and RIGHT (R115). -/
theorem mixOut_channels {s t : State} (hruns : s.consRuns = true) (h : exec .mixOut s = .next t) :
    t.left = BitVec.ofInt 16 (clipHalf (sumLeft s)) ∧ t.right = BitVec.ofInt 16 (clipHalf (sumRight s)) := by
  rw [exec_mixOut_running hruns] at h
  cases h
  exact ⟨mix_left s, mix_right s⟩

/-- Settles O31: the mixer's record update, its pair rewritten by the two sums and the clip. -/
theorem mixOutSumsHalvesAndClips : Obligations.MixOutSumsHalvesAndClips := by
  refine ⟨rfl, fun s o hruns ho l r hl hr => ?_⟩
  have hleft : (mix s).left = l := by
    rw [mix_left, clipHalf_eq_max_min, sumLeft_eq_of_odd fun c _ => ho c, hl]
  have hright : (mix s).right = r := by
    rw [mix_right, clipHalf_eq_max_min, sumRight_eq_of_even fun c _ => ho c, hr]
  rw [exec_mixOut_running hruns, mixOut_eq, hleft, hright]
  rfl

/-- Settles O32: each channel, as an integer, is its clipped half sum; the extremes clip 4 * 32767 and 4 * -32768. -/
theorem mixerClipsHard : Obligations.MixerClipsHard := by
  intro s hruns
  obtain ⟨hleft, hright⟩ := mix_toInt s
  refine ⟨_, exec_mixOut_running hruns, ?_⟩
  rw [goTo_left, goTo_right, hleft, hright]
  refine ⟨clipHalf_range _, clipHalf_range _, clipHalf_of_mem, clipHalf_of_mem, fun hmax => ?_, fun hmin => ?_⟩
  · obtain ⟨hl, hr⟩ := sums_of_outputs_eq hmax
    rw [hl, hr]
    decide
  · obtain ⟨hl, hr⟩ := sums_of_outputs_eq hmin
    rw [hl, hr]
    decide

/-- Settles O33: LEFT is a function of the left sum and RIGHT of the right one, and each sum reads its own chips
alone. -/
theorem channelsAreIndependent : Obligations.ChannelsAreIndependent := by
  intro s s' t t' hruns hruns' h h'
  obtain ⟨hleft, hright⟩ := mixOut_channels hruns h
  obtain ⟨hleft', hright'⟩ := mixOut_channels hruns' h'
  refine ⟨fun hodd => ?_, fun heven => ?_⟩
  · have hsum : sumLeft s' = sumLeft s := sumLeft_eq_of_odd fun c hc => congrArg BitVec.toInt (hodd c hc)
    rw [hleft, hleft', hsum]
  · have hsum : sumRight s' = sumRight s := sumRight_eq_of_even fun c hc => congrArg BitVec.toInt (heven c hc)
    rw [hright, hright', hsum]

end Sys2Proof.Machine

/-! SUPPORT, then the proofs of the statements that 44_sequencer.md gives rise to: what each phase of the sequencer does
while CONS runs (R126 to R129, R134), the successors of PHASE and MODE (R124, R125), the two final modes (R123), and
that nothing reads NOUT (R131). -/

namespace Sys2Proof.Machine

open Sys2Proof

/-! ## The phases while CONS runs (R123) -/

section Running

variable {s : State} (hruns : s.consRuns = true)

include hruns

theorem exec_fetchTarget_running : exec .fetchTarget s = .next (fetchTarget s) :=
  congrArg Host.Outcome.next (whileConsRuns_eq fetchTarget hruns)

theorem exec_tgAdvance_running : exec .tgAdvance s = .next (tgAdvance s) :=
  congrArg Host.Outcome.next (whileConsRuns_eq tgAdvance hruns)

theorem exec_cacheRefresh_running : exec .cacheRefresh s = .next (cacheRefresh s) :=
  congrArg Host.Outcome.next (whileConsRuns_eq cacheRefresh hruns)

theorem exec_resetClear_running : exec .resetClear s = .next (resetClear s) :=
  congrArg Host.Outcome.next (whileConsRuns_eq resetClear hruns)

/-- DRAIN_APPLY applies what the dequeue by CE answers (R129). -/
theorem exec_drainApply_running {m : Option BusEvent} {u : State} (hd : tryDequeueDueBy s.ce s = .ok (m, u)) :
    exec .drainApply s = .next (applyAnswer m u) := by
  simp [exec, execDrainApply, hruns, hd]

end Running

/-- HALTED and STOPPED are the modes in which CONS does not run (R123). -/
theorem consRuns_eq_false {s : State} (h : s.mode = .halted ∨ s.mode = .stopped) : s.consRuns = false := by
  rcases h with h | h <;> simp [State.consRuns, h]

/-! ## The loop test and FETCH_TARGET on numbers (R126, R129, R133) -/

/-- The loop test is the unsigned comparison of CE and TARGET (R126). -/
theorem behind_iff (s : State) : s.behind = true ↔ s.ce.toNat < s.target.toNat := by
  simp [State.behind, BitVec.lt_def]

/-- The loop test as one record update, its comparison on numbers (R126, R129). -/
theorem loopTest_eq_toNat (s : State) :
    loopTest s = { s with
      phase := if s.ce.toNat < s.target.toNat then phAccStep else phMixOut
      mode := if s.target.toNat ≤ s.ce.toNat ∧ s.mode = .catchup then .playing else s.mode } := by
  rw [loopTest_eq]
  simp only [behind_iff, ← not_lt, ← Bool.not_eq_true]

/-- A reset is due past the threshold, with the line released (R133). -/
theorem resetDue_iff (s : State) :
    s.resetDue = true ↔ s.cfg.resetThreshold < s.rc.toNat ∧ s.released = true := by
  simp [State.resetDue]

section FetchTarget

variable {s : State}

theorem fetchTarget_shutdown (hshut : s.env.shutdownReq = true) : fetchTarget s = shutdown s := if_pos hshut

theorem fetchTarget_reset (hgo : s.env.shutdownReq = false) (hdue : s.resetDue = true) :
    fetchTarget s = enterReset s := by
  simp [fetchTarget, hgo, hdue]

theorem fetchTarget_read (hgo : s.env.shutdownReq = false) (hnot : s.resetDue = false) :
    fetchTarget s = loopTest { s with target := s.hcc } := by
  simp [fetchTarget, hgo, hnot]

end FetchTarget

/-- Settles O34: the three cases of FETCH_TARGET, the last one through the loop test. -/
theorem fetchTargetInOrder : Obligations.FetchTargetInOrder := by
  refine ⟨rfl, fun s hruns => ?_⟩
  rw [exec_fetchTarget_running hruns]
  refine ⟨fun hshut => ?shutdown, fun hgo hdue => ?reset, fun hgo hnot => ?read⟩
  case shutdown =>
    rw [fetchTarget_shutdown hshut]
    rfl
  case reset =>
    rw [fetchTarget_reset hgo ((resetDue_iff s).mpr hdue)]
    rfl
  case read =>
    rw [← resetDue_iff, Bool.not_eq_true] at hnot
    rw [fetchTarget_read hgo hnot, loopTest_eq_toNat]
    refine ⟨fun hbehind => ?_, fun hcaught => ?_⟩
    · simp [hbehind, not_le.mpr hbehind, phAccStep]
    · simp [hcaught, not_lt.mpr hcaught, phMixOut]

/-! ## What one phase does, as a record update -/

/-- Settles O35: the record update of TG_ADVANCE, its eight calls written out. -/
theorem tgAdvanceMovesAllEight : Obligations.TgAdvanceMovesAllEight :=
  ⟨rfl, fun _ hruns => exec_tgAdvance_running hruns⟩

/-- Settles O36: the cache CACHE_REFRESH leaves, and its 32 calls in the order of `allRegs`. -/
theorem cacheRefreshCopiesChipZero : Obligations.CacheRefreshCopiesChipZero := by
  refine ⟨rfl, fun s hruns => ⟨_, exec_cacheRefresh_running hruns, cacheRefresh_at s,
    ⟨allRegs.map fun r => .read 0 r, rfl, rfl, fun k hk => ?calls⟩, ?frame⟩⟩
  case calls => simp [allRegs, hk]
  case frame => exact cacheRefresh_eq s

/-- RESET_CLEAR as one record update, whatever its clears leave in TGREG and the history of calls (R134). -/
theorem resetClear_writes (s : State) : ∃ tgreg tgCalls,
    resetClear s = { s with
      tgreg := tgreg, tgCalls := tgCalls, rc := 0, released := false, carry := 0
      mode := .playing, phase := phFetchTarget } := ⟨_, _, resetClear_eq s⟩

/-- Settles O38: the registers RESET_CLEAR leaves, and its 256 calls in the order of `allChipRegs`. -/
theorem resetClearZeroesTheRegisters : Obligations.ResetClearZeroesTheRegisters := by
  refine ⟨rfl, fun s hruns => ⟨_, exec_resetClear_running hruns, resetClear_tgRegAt s,
    ⟨allChipRegs.map fun p => .write p.1 p.2 0x00, ?order, ?length, fun k hk => ?calls⟩, ?frame⟩⟩
  case order => rw [resetClear_eq]
  case length => simp [allChipRegs_eq]
  case calls => simp [allChipRegs_eq, hk]
  case frame =>
    obtain ⟨tgreg, tgCalls, hclear⟩ := resetClear_writes s
    rw [hclear]
    rfl

/-- No answer: the loop test alone (R129). -/
theorem applyAnswer_none_eq (s : State) :
    applyAnswer none s = { s with
      phase := if s.ce.toNat < s.target.toNat then phAccStep else phMixOut
      mode := if s.target.toNat ≤ s.ce.toNat ∧ s.mode = .catchup then .playing else s.mode } :=
  loopTest_eq_toNat s

/-- An event's register is written before the loop test (R129). -/
theorem applyAnswer_some_eq (ev : BusEvent) (s : State) :
    applyAnswer (some ev) s = { s with
      tgreg := (tgWrite ev.chipIndex ev.register ev.value s).tgreg
      tgCalls := .write ev.chipIndex ev.register ev.value :: s.tgCalls
      phase := if s.ce.toNat < s.target.toNat then phAccStep else phMixOut
      mode := if s.target.toNat ≤ s.ce.toNat ∧ s.mode = .catchup then .playing else s.mode } :=
  loopTest_eq_toNat (tgWrite ev.chipIndex ev.register ev.value s)

/-- Settles O37: the dequeue by CE misses or hits, and its answer is applied before the loop test. -/
theorem drainApplyAppliesOneDueEvent : Obligations.DrainApplyAppliesOneDueEvent := by
  refine ⟨rfl, fun s hruns => ⟨fun hmiss => ?miss, fun w hne hw hdue => ?hit⟩⟩
  case miss =>
    have hd : tryDequeueDueBy s.ce s = .ok (none, { s with readPort := none }) := by
      by_cases heq : s.wr = s.rd
      · exact tryDequeueDueBy_empty s.ce heq
      · obtain ⟨w, hw, hearly⟩ := hmiss.resolve_left (Ne.symm heq)
        exact tryDequeueDueBy_miss heq hw (not_le.mpr hearly)
    refine ⟨_, exec_drainApply_running hruns hd, ?_⟩
    rw [applyAnswer_none_eq]
    rfl
  case hit =>
    refine ⟨_, exec_drainApply_running hruns (tryDequeueDueBy_hit hne.symm hw hdue), fun c r => ?register, ?frame⟩
    all_goals rw [applyAnswer_some_eq]
    case register => exact tgWrite_tgRegAt ..
    case frame => rfl

/-! ## A due reset, turn by turn (R126, R133, R134) -/

/-- A lined up turn of CONS performs the phase that PHASE names, where the calibrator does not read the clock. -/
theorem step_consumer {s : State} {i : Instr} {e : EnvInputs} {rest : List Turn} (hl : s.cfg.legal = true)
    (ha : s.agenda = .agent (.consumer e) :: rest) (hm : s.mode ≠ .calibrating) (hi : decodePhase s.phase = i) :
    step s = exec i { s with agenda := rest, env := e } := by
  obtain ⟨-, hconsumer, -⟩ := stepRunsTheDecodedOperation s rest hl
  exact hconsumer e i ha (congrArg Except.ok hi) fun hcal => absurd hcal hm

/-- The turn that finds a reset due enters RESET_CLEAR (R126). -/
theorem step_enterReset {s : State} {e : EnvInputs} {rest : List Turn} (hl : s.cfg.legal = true)
    (ha : s.agenda = .agent (.consumer e) :: rest) (hmode : s.mode = .catchup ∨ s.mode = .playing)
    (hphase : s.phase = phFetchTarget) (hgo : e.shutdownReq = false) (hdue : s.resetDue = true) :
    step s = .next (enterReset { s with agenda := rest, env := e }) := by
  have hcal : s.mode ≠ .calibrating := by rcases hmode with hm | hm <;> simp [hm]
  have hruns : s.consRuns = true := by rcases hmode with hm | hm <;> simp [State.consRuns, hm]
  rw [step_consumer hl ha hcal (congrArg decodePhase hphase),
    ← fetchTarget_reset (s := { s with agenda := rest, env := e }) hgo hdue]
  exact exec_fetchTarget_running hruns

/-- The turn of CONS while MODE = RESETTING clears (R134). -/
theorem step_resetClear {s : State} {e : EnvInputs} {rest : List Turn} (hl : s.cfg.legal = true)
    (ha : s.agenda = .agent (.consumer e) :: rest) (hmode : s.mode = .resetting) (hphase : s.phase = phResetClear) :
    step s = .next (resetClear { s with agenda := rest, env := e }) := by
  have hruns : s.consRuns = true := by simp [State.consRuns, hmode]
  rw [step_consumer hl ha (by simp [hmode]) (congrArg decodePhase hphase)]
  exact exec_resetClear_running hruns

/-- Settles O39: the first turn enters RESET_CLEAR and the second one clears. -/
theorem dueResetClearsInTwoTurns : Obligations.DueResetClearsInTwoTurns := by
  intro e1 e2 rest s hinv hmode hphase hdue hgo ha
  have henter := step_enterReset hinv.cfg_legal ha hmode hphase hgo hdue
  have hclear := step_resetClear (s := enterReset { s with agenda := .agent (.consumer e2) :: rest, env := e1 })
    hinv.cfg_legal rfl rfl rfl
  refine ⟨_, (run_succ_next henter).trans (run_succ_next hclear), resetClear_tgRegAt _, ?_⟩
  obtain ⟨tgreg, tgCalls, heq⟩ := resetClear_writes
    { enterReset { s with agenda := .agent (.consumer e2) :: rest, env := e1 } with agenda := rest, env := e2 }
  rw [heq]
  exact ⟨by simp [State.resetDue], rfl, rfl, SameFifo.queueOf_eq ⟨rfl, rfl, rfl, rfl⟩, rfl, rfl⟩

/-! ## The successors of PHASE (R124) -/

/-- FETCH_TARGET stops, enters RESET_CLEAR, or goes where the loop test on its new TARGET says (R126). -/
theorem fetchTarget_successor (s : State) :
    (s.env.shutdownReq = true ∧ (fetchTarget s).mode = .stopped) ∨
    (s.env.shutdownReq = false ∧ s.resetDue = true ∧ (fetchTarget s).phase = phResetClear) ∨
    (s.env.shutdownReq = false ∧ s.resetDue = false ∧
      (fetchTarget s).phase
        = if (fetchTarget s).ce.toNat < (fetchTarget s).target.toNat then phAccStep else phMixOut) := by
  rcases fetchTarget_cases s with ⟨hshut, h⟩ | ⟨hgo, hdue, h⟩ | ⟨hgo, hnot, h⟩ <;> rw [h]
  · exact .inl ⟨hshut, rfl⟩
  · exact .inr (.inl ⟨hgo, hdue, rfl⟩)
  · rw [loopTest_eq_toNat]
    exact .inr (.inr ⟨hgo, hnot, rfl⟩)

/-- A running DRAIN_APPLY goes where the loop test says (R129). -/
theorem drainApply_successor {s t : State} (hruns : s.consRuns = true) (h : exec .drainApply s = .next t) :
    t.phase = if t.ce.toNat < t.target.toNat then phAccStep else phMixOut := by
  rcases exec_drainApply_cases h with ⟨hstopped, -⟩ | ⟨-, m, u, -, rfl⟩
  · simp [hruns] at hstopped
  · cases m with
    | none => rw [applyAnswer_none_eq]
    | some ev => rw [applyAnswer_some_eq]

/-- At CALIBRATE, while CONS runs, MODE is INIT or CALIBRATING (R125). -/
theorem controlOk_calibrate {s : State} (h : controlOk s) (hruns : s.consRuns = true) (hphase : s.phase = phCalibrate) :
    s.mode = .init ∨ s.mode = .calibrating := by
  rcases controlOk_running h hruns with ⟨-, -, hmode⟩ | ⟨hle, -⟩ | ⟨hreset, -⟩
  · exact hmode.imp_right And.left
  · exact absurd hle (by rw [hphase]; decide)
  · exact absurd (hphase.symm.trans hreset) (by decide)

/-- Where one CALIBRATE step leads: it calibrates on, enters the main loop, or gives up (R109, R145). -/
theorem calibrateStep_successor {s : State} (hphase : s.phase = phCalibrate)
    (hmode : s.mode = .init ∨ s.mode = .calibrating) :
    ((calibrateStep s).mode = .calibrating ∧ (calibrateStep s).phase = phCalibrate) ∨
    (s.mode = .calibrating ∧ (calibrateStep s).mode = .catchup ∧ (calibrateStep s).phase = phFetchTarget) ∨
    (s.mode = .calibrating ∧ (calibrateStep s).mode = .halted) := by
  rcases calibrateStep_cases s with ⟨-, h⟩ | ⟨hm, -, -, h⟩ | ⟨hm, -, h⟩ | ⟨hm, h⟩ | ⟨hm, -, f, -, -, -, -, h⟩ <;>
    rw [h]
  case inl => exact .inl ⟨rfl, hphase⟩
  case inr.inl => exact .inl ⟨hmode.resolve_left hm, hphase⟩
  case inr.inr.inl => exact .inr (.inr ⟨hmode.resolve_left hm, rfl⟩)
  case inr.inr.inr.inl => exact .inl ⟨hmode.resolve_left hm, hphase⟩
  case inr.inr.inr.inr => exact .inr (.inl ⟨hmode.resolve_left hm, rfl, rfl⟩)

/-- Settles O41, code by code of PHASE. -/
theorem phasesFollowTheTable : Obligations.PhasesFollowTheTable := by
  intro s t hinv hruns h
  refine ⟨fun hp => ?fetchTarget, fun hp => ?accStep, fun hp => ?tgAdvance, fun hp => ?cacheRefresh,
    fun hp => ?drainApply, fun hp => ?mixOut, fun hp => ?resetClear, fun hp => ?calibrate⟩ <;> rw [hp] at h
  case drainApply => exact drainApply_successor hruns h
  all_goals
    cases h
    rw [whileConsRuns_eq _ hruns]
  case fetchTarget => exact fetchTarget_successor s
  case accStep | tgAdvance | cacheRefresh | mixOut | resetClear => rfl
  case calibrate =>
    rcases calibrateStep_successor hp (controlOk_calibrate hinv.control hruns hp) with hon | ⟨-, hloop⟩ | ⟨-, hfail⟩
    · exact .inl hon
    · exact .inr (.inl hloop)
    · exact .inr (.inr hfail)

/-! ## The final modes (R123, R145, R156) -/

/-- Settles O43: in both modes CONS does not run. -/
theorem noPhaseWhileHaltedOrStopped : Obligations.NoPhaseWhileHaltedOrStopped :=
  fun _ _ hi hfinal => exec_phase_stopped hi (consRuns_eq_false hfinal)

/-- In both modes DEC is disarmed (R145, R156). -/
theorem controlOk_final {s : State} (h : controlOk s) (hfinal : s.mode = .halted ∨ s.mode = .stopped) :
    s.armed = false := by
  rcases hfinal with hm | hm <;> simpa only [controlOk, hm] using h

@[simp] theorem fetch_armed (s : State) : (fetch s).2.armed = s.armed := by rw [fetch_eq]

/-- A bus cycle presents no new inputs to CONS (R41). -/
theorem fetch_env_producer {s : State} {bs : BusWord} (hturn : (nextTurn s).1 = .agent (.producer bs)) :
    (fetch s).2.env = s.env := by
  rcases fetch_env_cases s with ⟨e, hturn', -⟩ | henv
  · rw [hturn] at hturn'
    cases hturn'
  · exact henv

/-- A step that takes an agent's turn runs the operation that its word decodes to: agents have no idle port (R73). -/
theorem step_agent_exec {s t : State} {a : AgentTurn} (hturn : (nextTurn s).1 = .agent a) (h : step s = .next t) :
    ∃ i, decode (turnWord (.agent a) s) = .ok i ∧ exec i (fetch s).2 = .next t := by
  have hword : turnWord (.agent a) (nextTurn s).2 = turnWord (.agent a) s := by
    cases a with
    | producer bs => rfl
    | consumer e => exact congrArg PortWord.phase (nextTurn_phase s)
  obtain ⟨-, -, hrun⟩ := step_cases h
  rw [hturn, hword] at hrun
  rcases hrun with hrun | ⟨e, hd, -⟩
  · exact hrun
  · cases a <;> cases hd

/-- Settles O44: a bus cycle finds DEC disarmed and only ends a drive, and a consumer turn finds no phase to perform. -/
theorem haltedAndStoppedAreFinal : Obligations.HaltedAndStoppedAreFinal := by
  rintro s t hinv hfinal ⟨a, hturn⟩ h
  have harmed := controlOk_final hinv.control hfinal
  have hstopped := consRuns_eq_false hfinal
  obtain ⟨i, hd, hexec⟩ := step_agent_exec hturn h
  obtain ⟨agenda, turnNo, env, hfetch⟩ := fetch_registers s
  cases a with
  | producer bs =>
    have henv := fetch_env_producer hturn
    obtain ⟨i', hd', hkind⟩ := decode_bus_transaction bs
    obtain rfl : i' = i := Except.ok.inj (hd'.symm.trans hd)
    rw [exec_transaction_disarmed hkind (by rwa [fetch_armed])] at hexec
    cases hexec
    rw [hfetch] at henv ⊢
    refine ⟨rfl, fun _ => ⟨rfl, rfl, henv⟩, ?_⟩
    rintro ⟨e, hturn'⟩
    rw [hturn] at hturn'
    cases hturn'
  | consumer e =>
    obtain rfl : decodePhase s.phase = i := Except.ok.inj hd
    obtain ⟨hphase, -⟩ := isPhase_decodePhase s.phase
    rw [exec_phase_stopped hphase (by rwa [fetch_consRuns])] at hexec
    cases hexec
    rw [hfetch]
    refine ⟨rfl, ?_, fun _ => ⟨rfl, rfl⟩⟩
    rintro ⟨bs, hturn'⟩
    rw [hturn] at hturn'
    cases hturn'

/-! ## The successors of MODE (R125) -/

/-- A row of R125's table from `s` to `t`. -/
inductive ModeRow (s t : State) : Prop where
  /-- CALIBRATE begins. -/
  | calibrates (hs : s.mode = .init) (ht : t.mode = .calibrating) (hphase : s.phase = phCalibrate)
  /-- CALIBRATE has measured. -/
  | measured (hs : s.mode = .calibrating) (ht : t.mode = .catchup) (hphase : s.phase = phCalibrate)
  /-- CALIBRATE fails (R145). -/
  | fails (hs : s.mode = .calibrating) (ht : t.mode = .halted) (hphase : s.phase = phCalibrate)
  /-- The loop test finds CE at TARGET or past it. -/
  | catchesUp (hs : s.mode = .catchup) (ht : t.mode = .playing)
      (hphase : s.phase = phDrainApply ∨ s.phase = phFetchTarget) (hcaught : t.target.toNat ≤ t.ce.toNat)
  /-- FETCH_TARGET finds a reset due. -/
  | resets (hs : s.mode = .catchup ∨ s.mode = .playing) (ht : t.mode = .resetting) (hphase : s.phase = phFetchTarget)
      (hdue : s.resetDue = true)
  /-- RESET_CLEAR resumes. -/
  | resumes (hs : s.mode = .resetting) (ht : t.mode = .playing) (hphase : s.phase = phResetClear)
  /-- FETCH_TARGET finds shutdown_req. -/
  | stops (hs : s.mode = .catchup ∨ s.mode = .playing) (ht : t.mode = .stopped) (hphase : s.phase = phFetchTarget)
      (hshut : t.env.shutdownReq = true)

/-- The loop test changes MODE only from CATCHUP to PLAYING, caught up (R126, R129). -/
theorem loopTest_mode_changed {s : State} (hne : (loopTest s).mode ≠ s.mode) :
    s.mode = .catchup ∧ (loopTest s).mode = .playing ∧ (loopTest s).target.toNat ≤ (loopTest s).ce.toNat := by
  rw [loopTest_eq_toNat] at hne ⊢
  by_cases hcaught : s.target.toNat ≤ s.ce.toNat ∧ s.mode = .catchup
  · exact ⟨hcaught.right, if_pos hcaught, hcaught.left⟩
  · exact absurd (if_neg hcaught) hne

/-- The codes of PHASE whose phase may write MODE (R45, R74). -/
theorem decodePhase_mode_writers (p : PhaseCode) :
    p = phFetchTarget ∨ p = phDrainApply ∨ p = phResetClear ∨ p = phCalibrate ∨
    (decodePhase p ≠ .calibrate ∧ decodePhase p ≠ .fetchTarget ∧ decodePhase p ≠ .drainApply ∧
      decodePhase p ≠ .resetClear) := by
  revert p
  decide

/-- In a phase of the main loop MODE is CATCHUP or PLAYING (R125). -/
theorem controlOk_loop {s : State} (h : controlOk s) (hruns : s.consRuns = true) (hphase : s.phase.toNat ≤ 5) :
    s.mode = .catchup ∨ s.mode = .playing := by
  rcases controlOk_running h hruns with ⟨hcal, -⟩ | ⟨-, hloop⟩ | ⟨hreset, -⟩
  · exact absurd hphase (by rw [hcal]; decide)
  · exact hloop.mode_loop
  · exact absurd hphase (by rw [hreset]; decide)

/-- In RESET_CLEAR, while CONS runs, MODE is RESETTING (R125). -/
theorem controlOk_resetClear {s : State} (h : controlOk s) (hruns : s.consRuns = true)
    (hphase : s.phase = phResetClear) : s.mode = .resetting := by
  obtain ⟨hhalted, hstopped⟩ := (consRuns_iff s).mp hruns
  cases hm : s.mode <;> simp only [controlOk, hm, hphase] at h
  case init | calibrating | catchup | playing => exact absurd h.left (by decide)
  case resetting => rfl
  case halted => exact absurd hm hhalted
  case stopped => exact absurd hm hstopped

/-- FETCH_TARGET changes MODE by a row of the table (R126). -/
theorem fetchTarget_modeRow {s : State} (hmode : s.mode = .catchup ∨ s.mode = .playing)
    (hphase : s.phase = phFetchTarget) (hne : (fetchTarget s).mode ≠ s.mode) : ModeRow s (fetchTarget s) := by
  rcases fetchTarget_cases s with ⟨hshut, h⟩ | ⟨-, hdue, h⟩ | ⟨-, -, h⟩ <;> rw [h] at hne ⊢
  · exact .stops hmode rfl hphase hshut
  · exact .resets hmode rfl hphase hdue
  · obtain ⟨hs, ht, hcaught⟩ := loopTest_mode_changed hne
    exact .catchesUp hs ht (.inr hphase) hcaught

/-- DRAIN_APPLY changes MODE by its loop test alone (R129). -/
theorem drainApply_modeRow {s t : State} (hphase : s.phase = phDrainApply) (h : exec .drainApply s = .next t)
    (hne : t.mode ≠ s.mode) : ModeRow s t := by
  rcases exec_drainApply_cases h with ⟨-, rfl⟩ | ⟨-, m, u, hd, rfl⟩
  · exact absurd rfl hne
  · obtain ⟨rd, readPort, rfl⟩ := tryDequeueDueBy_writes hd
    cases m with
    | none =>
      obtain ⟨hs, ht, hcaught⟩ := loopTest_mode_changed hne
      exact .catchesUp hs ht (.inl hphase) hcaught
    | some ev =>
      obtain ⟨hs, ht, hcaught⟩ := loopTest_mode_changed
        (s := tgWrite ev.chipIndex ev.register ev.value { s with rd := rd, readPort := readPort }) hne
      exact .catchesUp hs ht (.inl hphase) hcaught

/-- CALIBRATE changes MODE by a row of the table (R109). -/
theorem calibrateStep_modeRow {s : State} (hmode : s.mode = .init ∨ s.mode = .calibrating)
    (hphase : s.phase = phCalibrate) (hne : (calibrateStep s).mode ≠ s.mode) : ModeRow s (calibrateStep s) := by
  rcases calibrateStep_successor hphase hmode with ⟨ht, -⟩ | ⟨hs, ht, -⟩ | ⟨hs, ht⟩
  · rcases hmode with hs | hs
    · exact .calibrates hs ht hphase
    · exact absurd (ht.trans hs.symm) hne
  · exact .measured hs ht hphase
  · exact .fails hs ht hphase

/-- The phase that PHASE names changes MODE by a row of the table (R124, R125). -/
theorem exec_phase_modeRow {s t : State} (hcontrol : controlOk s) (h : exec (decodePhase s.phase) s = .next t)
    (hne : t.mode ≠ s.mode) : ModeRow s t := by
  obtain ⟨hi, -⟩ := isPhase_decodePhase s.phase
  have hruns : s.consRuns = true := by
    by_contra hstopped
    rw [exec_phase_stopped hi (by simpa using hstopped)] at h
    cases h
    exact hne rfl
  rcases decodePhase_mode_writers s.phase with hp | hp | hp | hp | ⟨hcal, hfetch, hdrain, hclear⟩
  case inr.inr.inr.inr =>
    obtain ⟨-, -, -, -, -, -, -, -, -, -, -, -, -, -, -, -, -, -, -, -, -, hmode, -⟩ :=
      phasesWriteOnlyConsumerState _ s t hi h
    exact absurd (hmode hcal hfetch hdrain hclear) hne
  all_goals rw [hp] at h
  case inr.inl => exact drainApply_modeRow hp h hne
  all_goals
    cases h
    rw [whileConsRuns_eq _ hruns] at hne ⊢
  case inl => exact fetchTarget_modeRow (controlOk_loop hcontrol hruns (by rw [hp]; decide)) hp hne
  case inr.inr.inl => exact .resumes (controlOk_resetClear hcontrol hruns hp) rfl hp
  case inr.inr.inr.inl => exact calibrateStep_modeRow (controlOk_calibrate hcontrol hruns hp) hp hne

/-- A bus cycle leaves MODE alone (R80). -/
theorem exec_bus_mode {bs : BusWord} {s t : State} (h : exec (decodeBus bs) s = .next t) : t.mode = s.mode := by
  obtain ⟨i, hd, hkind⟩ := decode_bus_transaction bs
  obtain rfl : decodeBus bs = i := Except.ok.inj hd
  obtain ⟨hwrites, -⟩ := transactionsWriteOnlyProducerState _ s t (isTransaction_iff.mpr ⟨_, hkind⟩) h
  rw [hwrites]

/-- A step runs CONS's phase, or leaves MODE alone. -/
theorem step_phase_or_sameMode {s t : State} (h : step s = .next t) :
    exec (decodePhase s.phase) (fetch s).2 = .next t ∨ t.mode = s.mode := by
  rcases step_turn_cases h with ⟨bs, -, hexec⟩ | ⟨e, -, hexec⟩ | ⟨w, -, rfl⟩ | ⟨dq, -, -, m, hd⟩ | rfl
  case inl => exact .inr ((exec_bus_mode hexec).trans (fetch_mode s))
  case inr.inl => exact .inl hexec
  case inr.inr.inl => exact .inr ((enqueue_mode ..).trans (fetch_mode s))
  case inr.inr.inr.inl =>
    obtain ⟨rd, readPort, rfl⟩ := tryDequeueDueBy_writes hd
    exact .inr (fetch_mode s)
  case inr.inr.inr.inr => exact .inr (fetch_mode s)

/-- Settles O42: MODE changes by a phase of CONS, which meets the registers of the state before the turn. -/
theorem modesFollowTheTable : Obligations.ModesFollowTheTable := by
  intro s t hinv h hne
  have hexec := (step_phase_or_sameMode h).resolve_right hne
  obtain ⟨agenda, turnNo, env, hfetch⟩ := fetch_registers s
  rw [hfetch] at hexec
  have hrow : ModeRow { s with agenda := agenda, turnNo := turnNo, env := env } t :=
    exec_phase_modeRow hinv.control hexec hne
  cases hrow with
  | calibrates hs ht hphase => exact .inl ⟨hs, ht, hphase⟩
  | measured hs ht hphase => exact .inr (.inl ⟨hs, ht, hphase⟩)
  | fails hs ht hphase => exact .inr (.inr (.inl ⟨hs, ht, hphase⟩))
  | catchesUp hs ht hphase hcaught => exact .inr (.inr (.inr (.inl ⟨hs, ht, hphase, hcaught⟩)))
  | resets hs ht hphase hdue => exact .inr (.inr (.inr (.inr (.inl ⟨hs, ht, hphase, hdue⟩))))
  | resumes hs ht hphase => exact .inr (.inr (.inr (.inr (.inr (.inl ⟨hs, ht, hphase⟩)))))
  | stops hs ht hphase hshut => exact .inr (.inr (.inr (.inr (.inr (.inr ⟨hs, ht, hphase, hshut⟩)))))

/-! ## Nothing reads NOUT (R131) -/

/-- The state with another value in NOUT. -/
def withNout (n : BitVec 16) (s : State) : State := { s with nout := n }

/-- The update neither reads NOUT nor writes it: another value there passes through. -/
def IgnoresNout (f : State → State) : Prop := ∀ n s, f (withNout n s) = withNout n (f s)

namespace IgnoresNout

variable {f g : State → State}

theorem comp (hg : IgnoresNout g) (hf : IgnoresNout f) : IgnoresNout (fun s => g (f s)) := fun n s =>
  (congrArg g (hf n s)).trans (hg n (f s))

/-- A choice between two updates, by a test that does not read NOUT. -/
theorem ite {p : State → Prop} [DecidablePred p] (hp : ∀ n s, p (withNout n s) ↔ p s) (hf : IgnoresNout f)
    (hg : IgnoresNout g) : IgnoresNout (fun s => if p s then f s else g s) := fun n s => by
  simp only [hp, hf n s, hg n s]
  exact (apply_ite (withNout n) ..).symm

theorem whileConsRuns (hf : IgnoresNout f) : IgnoresNout (whileConsRuns f) :=
  ite (fun _ _ => Iff.rfl) hf fun _ _ => rfl

theorem debounce (rst : Bool) : IgnoresNout (debounce rst) := fun n s => by
  rw [debounce_eq, debounce_eq]
  rfl

theorem enqueue (ev : BusEvent) : IgnoresNout (enqueue ev) := fun n s => by
  rw [enqueue_eq, enqueue_eq]
  rfl

theorem loopTest : IgnoresNout loopTest := fun n s => by
  rw [loopTest_eq, loopTest_eq]
  rfl

theorem decoderStep {kind : State → State} (hkind : IgnoresNout kind) (rst : Bool) :
    IgnoresNout (decoderStep rst kind) :=
  ite (fun _ _ => Iff.rfl)
    (comp (g := countCycle) (fun _ _ => rfl) (hkind.comp (comp (g := releaseData) (fun _ _ => rfl) (debounce rst))))
    fun _ _ => rfl

theorem fetchTarget : IgnoresNout fetchTarget :=
  ite (fun _ _ => Iff.rfl) (fun _ _ => rfl)
    (ite (fun _ _ => Iff.rfl) (fun _ _ => rfl)
      (loopTest.comp (f := fun s => { s with target := s.hcc }) fun _ _ => rfl))

theorem applyAnswer (m : Option BusEvent) : IgnoresNout (applyAnswer m) := by
  cases m with
  | none => exact loopTest
  | some ev => exact loopTest.comp (f := tgWrite ev.chipIndex ev.register ev.value) fun _ _ => rfl

theorem cacheRefresh : IgnoresNout cacheRefresh := fun n s => by
  rw [cacheRefresh_eq, cacheRefresh_eq]
  rfl

theorem mixOut : IgnoresNout (fun s => goTo phFetchTarget (mix s)) := fun n s => by
  simp only [mixOut_eq]
  rfl

theorem tgClear (pairs : List (ChipIndex × RegNum)) : IgnoresNout (tgClear pairs) := fun _ _ => rfl

theorem resetClear : IgnoresNout resetClear :=
  comp (g := fun s => leaveReset { s with rc := 0, released := false, carry := 0 }) (fun _ _ => rfl)
    (tgClear allChipRegs)

theorem calibrateLive : IgnoresNout calibrateLive :=
  ite (fun _ _ => Iff.rfl) (fun _ _ => rfl) (ite (fun _ _ => Iff.rfl) (fun _ _ => rfl) fun _ _ => rfl)

theorem calibrateFinish (f : Nat) : IgnoresNout (calibrateFinish f) :=
  ite (fun _ _ => Iff.rfl) (fun _ _ => rfl) fun _ _ => rfl

theorem calibrateWindow : IgnoresNout calibrateWindow :=
  ite (fun _ _ => Iff.rfl) (fun n s => calibrateFinish _ n s) fun _ _ => rfl

theorem calibrateStep : IgnoresNout calibrateStep := fun n s => by
  by_cases hm : s.mode = .init
  · rw [calibrateStep_init (s := withNout n s) hm, calibrateStep_init hm]
    rfl
  cases hc : s.calState with
  | live =>
    rw [calibrateStep_live (s := withNout n s) hm hc, calibrateStep_live hm hc]
    exact calibrateLive n s
  | window =>
    rw [calibrateStep_window (s := withNout n s) hm hc, calibrateStep_window hm hc]
    exact calibrateWindow n s
  | done => rw [calibrateStep_done (s := withNout n s) hm hc, calibrateStep_done hm hc]

/-- An operation that answers such an update answers alike with another value in NOUT. -/
theorem answers {s t : State} (hf : IgnoresNout f) (n : BitVec 16)
    (h : (.next (f s) : Host.Outcome State Fault Refusal) = .next t) :
    (.next (f (withNout n s)) : Host.Outcome State Fault Refusal) = .next (withNout n t) := by
  rw [hf, Host.Outcome.next.inj h]

end IgnoresNout

/-- A dequeue neither reads NOUT nor writes it (R95). -/
theorem tryDequeueDueBy_withNout {y : Word64} {s t : State} {m : Option BusEvent} (n : BitVec 16)
    (h : tryDequeueDueBy y s = .ok (m, t)) : tryDequeueDueBy y (withNout n s) = .ok (m, withNout n t) := by
  rcases tryDequeueDueBy_cases h with ⟨rfl, rfl, heq | ⟨hne, w, hw, hearly⟩⟩ | ⟨w, hne, hw, hdue, rfl, rfl⟩
  · exact tryDequeueDueBy_empty (s := withNout n s) y heq
  · exact tryDequeueDueBy_miss (s := withNout n s) hne hw hearly
  · exact tryDequeueDueBy_hit (s := withNout n s) hne hw hdue

/-- DRAIN_APPLY neither reads NOUT nor writes it (R129). -/
theorem exec_drainApply_withNout {s t : State} (n : BitVec 16) (h : exec .drainApply s = .next t) :
    exec .drainApply (withNout n s) = .next (withNout n t) := by
  rcases exec_drainApply_cases h with ⟨hstopped, rfl⟩ | ⟨hruns, m, u, hd, rfl⟩
  · exact exec_phase_stopped (s := withNout n t) rfl hstopped
  · rw [exec_drainApply_running (s := withNout n s) hruns (tryDequeueDueBy_withNout n hd), IgnoresNout.applyAnswer]

/-- Every operation but ACC_STEP neither reads NOUT nor writes it (R131). -/
theorem exec_withNout {i : Instr} {s t : State} (n : BitVec 16) (hi : i ≠ .accStep) (h : exec i s = .next t) :
    exec i (withNout n s) = .next (withNout n t) := by
  cases i with
  | accStep => exact absurd rfl hi
  | idle rst => exact (IgnoresNout.decoderStep (kind := id) (fun _ _ => rfl) rst).answers n h
  | read rst reg =>
    have hkind : IgnoresNout fun u => driveData (cacheAt u reg) u := fun _ _ => rfl
    exact (hkind.decoderStep rst).answers n h
  | write rst d ci reg =>
    have hkind : IgnoresNout fun u =>
        enqueue { chipIndex := ci, register := reg, value := d, atCycle := u.hcc } u :=
      fun n u => IgnoresNout.enqueue _ n u
    exact (hkind.decoderStep rst).answers n h
  | fetchTarget => exact IgnoresNout.fetchTarget.whileConsRuns.answers n h
  | tgAdvance => exact (IgnoresNout.whileConsRuns (f := tgAdvance) fun _ _ => rfl).answers n h
  | cacheRefresh => exact IgnoresNout.cacheRefresh.whileConsRuns.answers n h
  | drainApply => exact exec_drainApply_withNout n h
  | mixOut => exact IgnoresNout.mixOut.whileConsRuns.answers n h
  | resetClear => exact IgnoresNout.resetClear.whileConsRuns.answers n h
  | calibrate => exact IgnoresNout.calibrateStep.whileConsRuns.answers n h
  | enqueue ev => exact (IgnoresNout.enqueue ev).answers n h
  | tryDequeueDueBy cycle =>
    obtain ⟨m, hd⟩ := tryDequeueDueBy_of_exec h
    exact exec_tryDequeueDueBy_of_ok (tryDequeueDueBy_withNout n hd)

/-- Settles O46: a running ACC_STEP overwrites NOUT from INC and CARRY, and whatever else runs lets it pass. -/
theorem noOperationReadsNout : Obligations.NoOperationReadsNout := by
  intro i n s t h
  by_cases hwrites : i = .accStep ∧ s.consRuns = true
  · obtain ⟨rfl, hruns⟩ := hwrites
    rw [exec_accStep_running hruns] at h
    cases h
    rw [if_pos ⟨rfl, hruns⟩]
    exact exec_accStep_running (s := withNout n s) hruns
  · rw [if_neg hwrites]
    by_cases hi : i = .accStep
    · subst hi
      have hstopped : s.consRuns = false := by simpa using hwrites
      rw [exec_phase_stopped rfl hstopped] at h
      cases h
      exact exec_phase_stopped (s := withNout n s) rfl hstopped
    · exact exec_withNout n hi h

end Sys2Proof.Machine

/-! SUPPORT, then the proofs of the statements that 70_reset_and_hazards.md gives rise to: the registers right after
initialisation, and that the invariant holds there (R157, R158). -/

namespace Sys2Proof.Machine

open Sys2Proof

/-! ## An empty FIFO (R43, R92) -/

/-- Equal indices leave no event queued, whatever LOG2CAP is (R92). -/
theorem occ_eq_zero {s : State} (heq : s.wr = s.rd) : s.occ = 0 := by
  simp [State.occ, indexDiff, heq]

/-- An empty FIFO is not full, since CAP is at least 1 (R43, R91). -/
theorem isFull_eq_false_of_empty {s : State} (heq : s.wr = s.rd) : s.isFull = false := by
  have hcap : 2 ^ s.cfg.log2cap ≠ 0 := (Nat.two_pow_pos _).ne'
  rw [Bool.eq_false_iff, ne_eq, fifoFull_iff, occ_eq_zero heq]
  exact hcap.symm

/-- With both indices 0 and no slot written, the registers and slots of the FIFO agree (R31, R92). -/
theorem fifoInv_of_unwritten {s : State} (hwr : s.wr = 0) (hrd : s.rd = 0) (hslots : s.slots = []) : FifoInv s := by
  have hocc : s.occ = 0 := occ_eq_zero (hwr.trans hrd.symm)
  exact {
    wr_lt := hwr ▸ Nat.two_pow_pos _
    rd_lt := hrd ▸ Nat.two_pow_pos _
    occ_le := hocc ▸ Nat.zero_le _
    slots_wf := hslots ▸ ⟨List.Pairwise.nil, nofun⟩
    queued_written := fun k hk => absurd (hocc ▸ hk) (Nat.not_lt_zero k) }

/-! ## The state after initialisation (R157) -/

theorem slotRead_resetWith (cfg : Params) (i : Nat) : slotRead (State.resetWith cfg).slots i = none := cellFind_nil i

theorem cacheAt_resetWith (cfg : Params) (r : RegNum) : cacheAt (State.resetWith cfg) r = 0x00 :=
  Vector.getElem_replicate r.isLt

/-- A tone generator register that is not listed reads 0 (R157, R42). -/
theorem tgRegAt_resetWith (cfg : Params) (c : ChipIndex) (r : RegNum) : tgRegAt (State.resetWith cfg) c r = 0x00 :=
  congrArg (Option.getD · unlistedByte) (cellFind_nil (tgAddr c r))

/-- Settles O52: the FIFO's flags follow from its equal indices, the indexed registers from their lemmas, and each of
the others is a field that `State.resetWith` names. -/
theorem resetStateOfTheTable : Obligations.ResetStateOfTheTable := by
  have hempty : State.reset.isEmpty = true := (fifoEmpty_iff _).mpr rfl
  have hfull : State.reset.isFull = false := isFull_eq_false_of_empty rfl
  exact ⟨rfl, rfl, rfl, rfl, rfl, rfl, hempty, hfull, slotRead_resetWith _, cacheAt_resetWith _,
    rfl, rfl, rfl, rfl, rfl, rfl, rfl, rfl, rfl, rfl, rfl, rfl, tgRegAt_resetWith _⟩

/-- The invariant asks nothing of FREQ and C0, of INC only once calibration is done, and of TSTART, T0 and the wall
clock only while MODE = CALIBRATING; after initialisation neither is the case (R157). -/
theorem inv_resetWith {cfg : Params} (hlegal : cfg.legal = true) (freq inc : Word32) (tstart t0 c0 : Word64)
    (env : EnvInputs) :
    Inv { State.resetWith cfg with freq := freq, inc := inc, tstart := tstart, t0 := t0, c0 := c0, env := env } where
  cfg_legal := hlegal
  fifo := fifoInv_of_unwritten rfl rfl rfl
  tgreg_wf := reset_memories_wf.1
  carry_lt := show (0 : Word32).toNat < 2 ^ 16 by decide
  inc_le := nofun
  left_ge := show -32767 ≤ (0 : Sample).toInt by decide
  right_ge := show -32767 ≤ (0 : Sample).toInt by decide
  drive := rfl
  lockstep _ := rfl
  control := ⟨rfl, rfl, rfl⟩
  clock := nofun

/-- Settles O53: `State.reset` is the case of the default parameters, which are legal, with zeros for the unspecified
registers and the inputs. -/
theorem resetMeetsTheInvariant : Obligations.ResetMeetsTheInvariant :=
  ⟨fun _ freq inc tstart t0 c0 env hlegal => inv_resetWith hlegal freq inc tstart t0 c0 env,
    inv_resetWith (cfg := Params.default) (by decide) 0 0 0 0 0 EnvInputs.zero⟩

end Sys2Proof.Machine
